-- ==== Sys2Proof/Word.lean ====
section
/-! DEFINITION. The core's plainest types: bytes, TAP states, and what the request port carries (30_encoding.md, 20_memory.md). -/

namespace Sys2Proof

/-- A byte: 8 bits, bit 0 the least significant (R7). -/
abbrev Byte := BitVec 8

/-- A 32-bit identification word (R42). -/
abbrev Word32 := BitVec 32

/-- A string compared character for character (R211). -/
abbrev Str := List Char

/-- The 16 TAP states, in the order of R60, which is also the order of their codes. -/
inductive TapState where
  | testLogicReset | runTestIdle
  | selectDrScan | captureDr | shiftDr | exit1Dr | pauseDr | exit2Dr | updateDr
  | selectIrScan | captureIr | shiftIr | exit1Ir | pauseIr | exit2Ir | updateIr
deriving DecidableEq, Repr, Inhabited

/-- An input bit vector as the caller writes it: a byte list, or the name of one of its buffers (R73). -/
inductive VecArg where
  | bytes (bs : List Byte)
  | buffer (name : Nat)
deriving DecidableEq, Repr

/-- One typed operand of a request on the port (R61, R62). -/
inductive Operand where
  /-- a TapState, by its 4-bit code (R60) -/
  | state (code : BitVec 4)
  /-- one bit -/
  | bit (b : Bool)
  /-- one byte -/
  | byte (b : Byte)
  /-- a natural number -/
  | nat (n : Nat)
  /-- an optional bit vector that is not present -/
  | absent
  /-- a bit vector written as a byte list (R73) -/
  | bytes (bs : List Byte)
  /-- a bit vector that is one of the caller's named buffers (R73) -/
  | buffer (name : Nat)
deriving DecidableEq, Repr

/-- Which unit puts a command on the stream: R72 says a decoder takes that from the request, not from the bytes. -/
inductive Issuer where
  | packer
  | shifter
deriving DecidableEq, Repr

/-- What stands on the port: a request, which is a 4-bit code and its typed operands (R61), or one command of the
command stream (R63) as the single step of a request that R21 lets a model unroll. -/
inductive PortItem where
  | request (code : BitVec 4) (operands : List Operand)
  | command (issuer : Issuer) (bytes : List Byte)
deriving DecidableEq, Repr

end Sys2Proof
end

