-- ==== Sys2Proof/Config.lean ====
section
/-! DEFINITION. What is fixed for a session: the constants and parameters of 00_scope.md R6, and the free values. -/

namespace Sys2Proof

/-- `TMS_CHUNK`: most TMS bits in one TMS command (R6). -/
def Config.tmsChunk : Nat := 6

/-- `RESET_TMS_COUNT`: TMS=1 bits of the reset fast path (R6, 90_conflicts.md C6). -/
def Config.resetTmsCount : Nat := 6

/-- `IDCODE_WIDTH`: bits per chain position (R6). -/
def Config.idcodeWidth : Nat := 32

/-- The least transport buffer size the core takes (R6, R152). -/
def Config.bufSizeMin : Nat := 4

/-- The largest transport buffer size the core takes (R6, R152). -/
def Config.bufSizeMax : Nat := 65539

/-- The command flag values `OPC` (R66): a configuration record. -/
structure Opc where
  writeNeg : Byte
  bitmode  : Byte
  lsb      : Byte
  write    : Byte
  read     : Byte
  writeTms : Byte
deriving DecidableEq, Repr

/-- The six flags as a list. -/
def Opc.flags (o : Opc) : List Byte := [o.writeNeg, o.bitmode, o.lsb, o.write, o.read, o.writeTms]

/-- "The six values are distinct single bits" (R66). -/
def Opc.wf (o : Opc) : Bool :=
  o.flags.all (fun f => decide (f ∈ ([0x01, 0x02, 0x04, 0x08, 0x10, 0x20, 0x40, 0x80] : List Byte)))
    && decide o.flags.Nodup

/-- The default flag values (R66). -/
def Opc.default : Opc :=
  { writeNeg := 0x01, bitmode := 0x02, lsb := 0x08, write := 0x10, read := 0x20, writeTms := 0x40 }

/-- The parameters of R6, "each fixed for the life of a session": plain data of the machine, so that a statement about
every state is a statement about every value of every OPEN parameter (92_eei_decisions.md D3, D22, D29). -/
structure Params where
  /-- `TMS_CAPACITY` -/
  tmsCapacity    : Nat
  /-- `INIT_TAP_STATE`, OPEN -/
  initTap        : TapState
  /-- `QUIRK_ID`, OPEN -/
  quirkId        : Str
  /-- `OPC` -/
  opc            : Opc
  /-- `TEARDOWN_CMDS`, OPEN -/
  teardownCmds   : List Byte
  /-- `TEARDOWN_EXPECT`, OPEN -/
  teardownExpect : Nat
deriving DecidableEq, Repr

/-- The parameters `State.reset` stands for. The capacity and `OPC` are the spec's defaults; the four OPEN ones are
DESIGN CHOICE (log 2), and no statement rests on them. -/
def Config.resetParams : Params :=
  { tmsCapacity := 1024, initTap := .testLogicReset, quirkId := ['q'], opc := Opc.default,
    teardownCmds := [], teardownExpect := 0 }

/-- The byte a transport answers where nothing says which (R47 "any n bytes", 93 U2): a free value, one for each
place in the receive stream (log 4). -/
opaque Config.freeByte : Nat → Byte

end Sys2Proof
end

