-- ==== Sys2Proof/Syntax.lean ====
section
/-! DEFINITION. The instructions: one constructor for each row of spec/opcode_table.json. -/

namespace Sys2Proof

/-- The requests of R62 (codes 0x0 to 0xF) and the commands of R70. A command keeps its fields as they stand in its
bytes (R64 to R68); `Instr.wf` says which of them the core emits. -/
inductive Instr where
  /-- 0x0 SESSION_CREATE (R210) -/
  | sessionCreate
  /-- 0x1 MOVE_TO_STATE (R105) -/
  | moveToState (target : TapState)
  /-- 0x2 RESET_TLR (R106) -/
  | resetTlr
  /-- 0x3 PUSH_TMS (R131) -/
  | pushTms (bit : Bool)
  /-- 0x4 FLUSH (R133) -/
  | flush (force : Bool)
  /-- 0x5 SHIFT (R160) -/
  | shift (input : Option VecArg) (output : Option Nat) (length : Nat) (isLast : Bool)
  /-- 0x6 SHIFT_IR (R161) -/
  | shiftIr (input : Option VecArg) (output : Option Nat) (irlen : Nat) (endState : TapState)
  /-- 0x7 SHIFT_IR_BYTE (R162) -/
  | shiftIrByte (tdi : Byte) (irlen : Nat) (endState : TapState)
  /-- 0x8 SHIFT_DR (R163) -/
  | shiftDr (input : Option VecArg) (output : Option Nat) (drlen : Nat) (endState : TapState)
  /-- 0x9 DETECT_CHAIN (R194) -/
  | detectChain (maxDevices : Nat)
  /-- 0xA SESSION_RELEASE (R213) -/
  | sessionRelease
  /-- 0xB, reserved (R234) -/
  | reservedB
  /-- 0xC, reserved (R234) -/
  | reservedC
  /-- 0xD, reserved (R234) -/
  | reservedD
  /-- 0xE, reserved (R234) -/
  | reservedE
  /-- 0xF, reserved (R234) -/
  | reservedF
  /-- TMS command: `length_minus_one` and the data byte (R64) -/
  | tms (len data : Byte)
  /-- final-bit command, no read: the length byte and the data byte (R68) -/
  | finalBit (len data : Byte)
  /-- final-bit command with read (R68) -/
  | finalBitRead (len data : Byte)
  /-- byte-mode command, neither write nor read: `len_hi:len_lo` (R65) -/
  | bytes (len : BitVec 16)
  /-- byte-mode write (R65) -/
  | bytesWrite (len : BitVec 16) (payload : List Byte)
  /-- byte-mode read (R65) -/
  | bytesRead (len : BitVec 16)
  /-- byte-mode write and read (R65) -/
  | bytesWriteRead (len : BitVec 16) (payload : List Byte)
  /-- bit-mode command, neither write nor read: `len_bits_minus_one` (R67) -/
  | bits (len : Byte)
  /-- bit-mode write (R67) -/
  | bitsWrite (len payload : Byte)
  /-- bit-mode read (R67) -/
  | bitsRead (len : Byte)
  /-- bit-mode write and read (R67) -/
  | bitsWriteRead (len payload : Byte)
deriving DecidableEq, Repr

end Sys2Proof
end

