-- ==== Sys2Proof/WellFormed.lean ====
section
/-! DEFINITION. Which terms of `Instr` the core can issue: the field ranges and fixed fields of R64 to R71. -/

namespace Sys2Proof

/-- The TMS command's fields (R64, R71): 1 to 6 bits, the bits above them up to bit 6 zero, bit 7 one. With
`x = len + 1` usable bits the data byte lies in `0x80 .. 0x80 + 2^x - 1`. -/
def WellFormed.tmsFields (len data : Byte) : Bool :=
  decide (len.toNat ≤ 5) && decide (0x80 ≤ data.toNat) && decide (data.toNat < 0x80 + 2 ^ (len.toNat + 1))

/-- The final-bit command's fields (R68): the length byte 0, TMS in bit 0, bits 6:1 zero, TDI in bit 7. -/
def WellFormed.finalFields (len data : Byte) : Bool :=
  decide (len = 0) && decide (data = 0x01 ∨ data = 0x81)

/-- A byte-mode write carries one more payload byte than its length field says (R63, R65). -/
def WellFormed.bytePayload (len : BitVec 16) (payload : List Byte) : Bool :=
  decide (payload.length = len.toNat + 1)

/-- A bit-mode command carries 1 to 7 bits (R67). -/
def WellFormed.bitLength (len : Byte) : Bool :=
  decide (len.toNat ≤ 6)

/-- The check. A request's operands are typed (R62) and every value of their types is a request; what a request may not
ask is refused when it runs (R234). -/
def Instr.wf (i : Instr) : Bool :=
  match i with
  | .sessionCreate => true
  | .moveToState _ => true
  | .resetTlr => true
  | .pushTms _ => true
  | .flush _ => true
  | .shift _ _ _ _ => true
  | .shiftIr _ _ _ _ => true
  | .shiftIrByte _ _ _ => true
  | .shiftDr _ _ _ _ => true
  | .detectChain _ => true
  | .sessionRelease => true
  | .reservedB => true
  | .reservedC => true
  | .reservedD => true
  | .reservedE => true
  | .reservedF => true
  | .tms len data => WellFormed.tmsFields len data
  | .finalBit len data => WellFormed.finalFields len data
  | .finalBitRead len data => WellFormed.finalFields len data
  | .bytes _ => true
  | .bytesWrite len payload => WellFormed.bytePayload len payload
  | .bytesRead _ => true
  | .bytesWriteRead len payload => WellFormed.bytePayload len payload
  | .bits len => WellFormed.bitLength len
  | .bitsWrite len _ => WellFormed.bitLength len
  | .bitsRead len => WellFormed.bitLength len
  | .bitsWriteRead len _ => WellFormed.bitLength len

end Sys2Proof
end

