-- ==== Sys2Proof/Decode.lean ====
section
/-! DEFINITION. The decoder from the port's items to instructions, total and rejecting by name, and the encoder after it
(30_encoding.md). -/

namespace Sys2Proof

/-! ### TapState codes (R60) -/

/-- The 4-bit code of a TAP state (R60). -/
def TapState.code : TapState → BitVec 4
  | .testLogicReset => 0
  | .runTestIdle => 1
  | .selectDrScan => 2
  | .captureDr => 3
  | .shiftDr => 4
  | .exit1Dr => 5
  | .pauseDr => 6
  | .exit2Dr => 7
  | .updateDr => 8
  | .selectIrScan => 9
  | .captureIr => 10
  | .shiftIr => 11
  | .exit1Ir => 12
  | .pauseIr => 13
  | .exit2Ir => 14
  | .updateIr => 15

/-- The state a code stands for: all 16 are used (R60). -/
def TapState.ofCode (c : BitVec 4) : TapState :=
  match c.toNat with
  | 0 => .testLogicReset
  | 1 => .runTestIdle
  | 2 => .selectDrScan
  | 3 => .captureDr
  | 4 => .shiftDr
  | 5 => .exit1Dr
  | 6 => .pauseDr
  | 7 => .exit2Dr
  | 8 => .updateDr
  | 9 => .selectIrScan
  | 10 => .captureIr
  | 11 => .shiftIr
  | 12 => .exit1Ir
  | 13 => .pauseIr
  | 14 => .exit2Ir
  | _ => .updateIr

/-! ### Opcode bytes (R63 to R70) -/

/-- The opcode with the named flags set: `LSB` and `WRITE_NEG` stand in every command (R64, R65, R67, R68, R153). -/
def Opc.code (o : Opc) (tms bitmode write read : Bool) : Byte :=
  o.lsb ||| o.writeNeg ||| (if write then o.write else 0) ||| (if read then o.read else 0)
    ||| (if bitmode then o.bitmode else 0) ||| (if tms then o.writeTms else 0)

/-- Is the flag set in the opcode byte (R63)? -/
def Opc.has (flag op : Byte) : Bool := decide (op &&& flag ≠ 0)

/-- Which kinds of command there are: the ten opcodes of R70. -/
inductive CommandKind where
  /-- `WRITE_TMS`, with or without `READ` (R64, R68) -/
  | tmsLine (read : Bool)
  /-- byte mode (R65) -/
  | byteMode (write read : Bool)
  /-- bit mode (R67) -/
  | bitMode (write read : Bool)
deriving DecidableEq, Repr

/-- The opcode byte of a kind (R70). -/
def CommandKind.opcode (o : Opc) : CommandKind → Byte
  | .tmsLine r => o.code true true false r
  | .byteMode w r => o.code false false w r
  | .bitMode w r => o.code false true w r

/-- The opcode byte alone tells the format (R63); an opcode outside R70 is none. -/
def CommandKind.ofOpcode (o : Opc) (op : Byte) : Option CommandKind :=
  let w := Opc.has o.write op
  let r := Opc.has o.read op
  let kind : CommandKind :=
    if Opc.has o.writeTms op then .tmsLine r
    else if Opc.has o.bitmode op then .bitMode w r
    else .byteMode w r
  if kind.opcode o = op then some kind else none

/-- The 16-bit field `len_hi:len_lo` of the bytes after a byte-mode opcode; a missing byte counts as 0 (R63, R65). -/
def lenField (rest : List Byte) : BitVec 16 := (rest.getD 1 0) ++ (rest.getD 0 0)

/-- How many bytes the command has whose opcode is of this kind and whose further bytes are `rest` (R63). -/
def CommandKind.length (rest : List Byte) : CommandKind → Nat
  | .tmsLine _ => 3
  | .byteMode w _ => if w then 3 + ((lenField rest).toNat + 1) else 3
  | .bitMode w _ => if w then 3 else 2

/-! ### The decoder -/

/-- Why an item of the port is no instruction. -/
inductive DecodeError where
  /-- the operands are not those R62 gives the request code -/
  | badOperands (code : BitVec 4)
  /-- a command of no bytes -/
  | emptyCommand
  /-- an opcode outside R70 -/
  | unknownOpcode (op : Byte)
  /-- more or fewer bytes than R63 gives the command -/
  | badLength (op : Byte)
  /-- a command the packer or the shifter never emits (R70) -/
  | wrongIssuer (op : Byte)
deriving DecidableEq, Repr

/-- An input vector operand (R62, R73). -/
def Operand.asInput : Operand → Option (Option VecArg)
  | .absent => some none
  | .bytes bs => some (some (.bytes bs))
  | .buffer n => some (some (.buffer n))
  | _ => none

/-- An output vector operand: a name for an output buffer (R73). -/
def Operand.asOutput : Operand → Option (Option Nat)
  | .absent => some none
  | .buffer n => some (some n)
  | _ => none

/-- The last operand of the composite shifts: "`endState`: TapState, default RUN_TEST_IDLE" (R62). -/
def decodeEndState : List Operand → Option TapState
  | [] => some .runTestIdle
  | [.state c] => some (TapState.ofCode c)
  | _ => none

/-- The operands of the vector shifts SHIFT_IR and SHIFT_DR (R62). -/
def decodeShiftX (ops : List Operand) (k : Option VecArg → Option Nat → Nat → TapState → Instr) : Option Instr :=
  match ops with
  | i :: u :: .nat n :: rest =>
    match i.asInput, u.asOutput, decodeEndState rest with
    | some inp, some out, some e => some (k inp out n e)
    | _, _, _ => none
  | _ => none

/-- The request of a code and its operands (R62); a reserved code is that, whatever stands after it. -/
def requestOf (code : BitVec 4) (ops : List Operand) : Option Instr :=
  match code.toNat with
  | 0 => if ops = [] then some .sessionCreate else none
  | 1 => match ops with
    | [.state c] => some (.moveToState (TapState.ofCode c))
    | _ => none
  | 2 => if ops = [] then some .resetTlr else none
  | 3 => match ops with
    | [.bit b] => some (.pushTms b)
    | _ => none
  | 4 => match ops with
    | [.bit b] => some (.flush b)
    | _ => none
  | 5 => match ops with
    | [i, u, .nat n, .bit l] =>
      match i.asInput, u.asOutput with
      | some inp, some out => some (.shift inp out n l)
      | _, _ => none
    | _ => none
  | 6 => decodeShiftX ops .shiftIr
  | 7 => match ops with
    | .byte b :: .nat n :: rest => (decodeEndState rest).map (.shiftIrByte b n)
    | _ => none
  | 8 => decodeShiftX ops .shiftDr
  | 9 => match ops with
    | [.nat n] => some (.detectChain n)
    | _ => none
  | 10 => if ops = [] then some .sessionRelease else none
  | 11 => some .reservedB
  | 12 => some .reservedC
  | 13 => some .reservedD
  | 14 => some .reservedE
  | _ => some .reservedF

/-- The command of a kind from the bytes after its opcode (R63); R72: the issuer tells a TMS command from a final bit. -/
def commandOf (kind : CommandKind) (iss : Issuer) (op : Byte) (rest : List Byte) : Except DecodeError Instr :=
  match kind, iss with
  | .tmsLine false, .packer => match rest with
    | [len, data] => .ok (.tms len data)
    | _ => .error (.badLength op)
  | .tmsLine r, .shifter => match rest with
    | [len, data] => .ok (if r then .finalBitRead len data else .finalBit len data)
    | _ => .error (.badLength op)
  | .byteMode w r, .shifter =>
    if rest.length + 1 = CommandKind.length rest (.byteMode w r) then
      .ok (match w, r with
        | false, false => .bytes (lenField rest)
        | true, false => .bytesWrite (lenField rest) (rest.drop 2)
        | false, true => .bytesRead (lenField rest)
        | true, true => .bytesWriteRead (lenField rest) (rest.drop 2))
    else .error (.badLength op)
  | .bitMode w r, .shifter => match w, rest with
    | false, [len] => .ok (if r then .bitsRead len else .bits len)
    | true, [len, p] => .ok (if r then .bitsWriteRead len p else .bitsWrite len p)
    | _, _ => .error (.badLength op)
  | _, .packer => .error (.wrongIssuer op)

/-- The decoder, for the flag values `o`. -/
def decode (o : Opc) : PortItem → Except DecodeError Instr
  | .request code ops => match requestOf code ops with
    | some i => .ok i
    | none => .error (.badOperands code)
  | .command _ [] => .error .emptyCommand
  | .command iss (op :: rest) => match CommandKind.ofOpcode o op with
    | some kind => commandOf kind iss op rest
    | none => .error (.unknownOpcode op)

/-! ### The encoder -/

/-- An input vector as an operand. -/
def VecArg.operand : Option VecArg → Operand
  | none => .absent
  | some (.bytes bs) => .bytes bs
  | some (.buffer n) => .buffer n

/-- An output vector as an operand. -/
def outputOperand : Option Nat → Operand
  | none => .absent
  | some n => .buffer n

/-- `len_lo`, then `len_hi` (R41, R65). -/
def lenBytes (len : BitVec 16) : List Byte := [len.extractLsb' 0 8, len.extractLsb' 8 8]

/-- What stands on the port for an instruction: R62 for requests, R64 to R68 for commands. -/
def encode (o : Opc) : Instr → PortItem
  | .sessionCreate => .request 0x0 []
  | .moveToState t => .request 0x1 [.state t.code]
  | .resetTlr => .request 0x2 []
  | .pushTms b => .request 0x3 [.bit b]
  | .flush f => .request 0x4 [.bit f]
  | .shift i u n l => .request 0x5 [VecArg.operand i, outputOperand u, .nat n, .bit l]
  | .shiftIr i u n e => .request 0x6 [VecArg.operand i, outputOperand u, .nat n, .state e.code]
  | .shiftIrByte b n e => .request 0x7 [.byte b, .nat n, .state e.code]
  | .shiftDr i u n e => .request 0x8 [VecArg.operand i, outputOperand u, .nat n, .state e.code]
  | .detectChain m => .request 0x9 [.nat m]
  | .sessionRelease => .request 0xA []
  | .reservedB => .request 0xB []
  | .reservedC => .request 0xC []
  | .reservedD => .request 0xD []
  | .reservedE => .request 0xE []
  | .reservedF => .request 0xF []
  | .tms len data => .command .packer [o.code true true false false, len, data]
  | .finalBit len data => .command .shifter [o.code true true false false, len, data]
  | .finalBitRead len data => .command .shifter [o.code true true false true, len, data]
  | .bytes len => .command .shifter (o.code false false false false :: lenBytes len)
  | .bytesWrite len p => .command .shifter (o.code false false true false :: lenBytes len ++ p)
  | .bytesRead len => .command .shifter (o.code false false false true :: lenBytes len)
  | .bytesWriteRead len p => .command .shifter (o.code false false true true :: lenBytes len ++ p)
  | .bits len => .command .shifter [o.code false true false false, len]
  | .bitsWrite len p => .command .shifter [o.code false true true false, len, p]
  | .bitsRead len => .command .shifter [o.code false true false true, len]
  | .bitsWriteRead len p => .command .shifter [o.code false true true true, len, p]

/-! ### The opcode table's words

The table numbers a row's bits from the first byte's bit 0 and gives a request's operands no bits. -/

/-- A request's operands, every one of them zero (log 6). -/
def zeroOperands (code : BitVec 4) : List Operand :=
  match code.toNat with
  | 1 => [.state 0]
  | 3 => [.bit false]
  | 4 => [.bit false]
  | 5 => [.absent, .absent, .nat 0, .bit false]
  | 6 => [.absent, .absent, .nat 0, .state 0]
  | 7 => [.byte 0, .nat 0, .state 0]
  | 8 => [.absent, .absent, .nat 0, .state 0]
  | 9 => [.nat 0]
  | _ => []

/-- The unit that issues a command of this kind; `WRITE_TMS` without `READ` is taken as the packer's (R72, log 6). -/
def CommandKind.issuer : CommandKind → Issuer
  | .tmsLine false => .packer
  | _ => .shifter

/-- The port item of a table word: a command where the low byte is an opcode of R70 above 0x0F, else the request of the
low four bits with its operands zero. The numbers 0x09 and 0x0B name a request code and a command; the request is taken
(log 6). -/
def tableItem (nbits w : Nat) : PortItem :=
  let bytes : List Byte := (List.range (nbits / 8)).map fun k => BitVec.ofNat 8 (w / 256 ^ k)
  let request : PortItem := .request (BitVec.ofNat 4 w) (zeroOperands (BitVec.ofNat 4 w))
  if nbits < 8 ∨ w % 256 < 16 then request
  else match CommandKind.ofOpcode Opc.default (BitVec.ofNat 8 w) with
    | none => request
    | some kind =>
      let n := kind.length (bytes.drop 1)
      .command kind.issuer ((bytes ++ List.replicate n 0).take n)

/-- The instruction the decoder reads from a table word. -/
def decodeTableWord (nbits w : Nat) : Option Instr :=
  match decode Opc.default (tableItem nbits w) with
  | .ok i => some i
  | .error _ => none

end Sys2Proof
end

