-- ==== Sys2Proof/Machine/State.lean ====
section
/-! DEFINITION. The machine's state as plain data, the reasons a step stops, and the state after reset (10_state.md,
20_memory.md R44, 70_reset_and_hazards.md R260). -/

namespace Sys2Proof.Machine

open Sys2Proof

/-- `S.life` (R20). -/
inductive Life where
  | live
  | released
deriving DecidableEq, Repr

/-- The session record `S`: exactly the seven fields of R20. -/
structure Session where
  life     : Life
  /-- the tracked TAP state (R22) -/
  tap      : TapState
  /-- the TMS buffer's bits, `TMS_CAPACITY` of them, oldest first (R23) -/
  tmsBuf   : List Bool
  /-- how many of them are valid (R23) -/
  tmsCount : Nat
  /-- the quirk flag (R24) -/
  quirk    : Bool
  /-- sticky, set by every TransportError (R25) -/
  fault    : Bool
  /-- sticky, set by every refused request (R25, R27) -/
  refused  : Bool
deriving DecidableEq, Repr

/-- How the transport answers a `Flush`, `Read` or `Drain` (R44, R47). -/
inductive Answer where
  /-- it does all it is asked; a read answers `data`, completed by free bytes where `data` is too short (log 4) -/
  | full (data : List Byte)
  /-- it does `done` of what it is asked, which is an answer `short` where that is fewer (R232, log 13) -/
  | short (done : Nat)
  /-- it never answers (R235) -/
  | stall
deriving DecidableEq, Repr

/-- The events of R44, each with its answer. -/
inductive Event where
  | send (bytes : List Byte)
  | flush (answer : Answer)
  | read (count : Nat) (answer : Answer)
  | drain (count : Nat) (answer : Answer)
  | bufSize (size : Nat)
  | product (name : Str)
deriving DecidableEq, Repr

/-- The transport's answers to come (R47, R250; log 3). -/
structure Transport where
  /-- the answers to the coming `Flush`, `Read` and `Drain`, in order -/
  script   : List Answer
  /-- the answer once the script is used up -/
  steady   : Answer
  /-- the answers to the coming `BufSize`, in order (R271) -/
  bufSizes : List Nat
  /-- the answer to `BufSize` once those are used up -/
  bufSize  : Nat
  /-- the answer to `Product` -/
  product  : Str
  /-- how many bytes of the receive stream the reads and drains have consumed (R49), which numbers the free bytes (log 4) -/
  drawn    : Nat
deriving DecidableEq, Repr

/-- The primitives that can answer short (R232). -/
inductive Primitive where
  | flush
  | read
  | drain
deriving DecidableEq, Repr

/-- The errors a request ends with, each with its record (R230, R231, R232). -/
inductive Error where
  /-- code 1; records the irlen -/
  | invalidArgument (irlen : Nat)
  /-- code 2; records the primitive, the count asked and the count done -/
  | transport (primitive : Primitive) (asked done : Nat)
deriving DecidableEq, Repr

/-- IntegrityWarning (code 3): a short flush, or the count of bytes received (R230, R233). -/
inductive Warning where
  | flush
  | count (received : Nat)
deriving DecidableEq, Repr

/-- The reasons of a refusal (code 4, R234). `malformedCommand` is the model's own: a command whose fields are none the core
emits (R71; log 7). -/
inductive Reason where
  | notLive
  | reservedRequest
  | zeroLengthLast
  | notInShiftState
  | shortVector
  | aliasedVectors
  | bufferSizeOutOfRange
  | concurrentRequest
  | malformedCommand
deriving DecidableEq, Repr

/-- What a request that completes gives its caller (R62). -/
inductive Result where
  /-- no result -/
  | none
  /-- a natural number (FLUSH) -/
  | nat (n : Nat)
  /-- the ScanResult (DETECT_CHAIN) -/
  | words (ws : List Word32)
  /-- the bytes a reading command answers (R65, R67, R68; log 5) -/
  | bytes (bs : List Byte)
deriving DecidableEq, Repr

/-- The core's answer to a request (R61). -/
inductive Response where
  | result (r : Result)
  | error (e : Error)
  | refused (r : Reason)
deriving DecidableEq, Repr

/-- The caller's named bit vectors: pairs of a name and its bytes, in one canonical form (`Memory.wf`; log 11). -/
abbrev Memory := List (Nat × List Byte)

/-- Everything the spec gives the machine; INVENTORY.md lists it. -/
structure State where
  /-- the session record `S` (R20) -/
  sess     : Session
  /-- the session's parameters (R6, R26) -/
  params   : Params
  /-- the events so far, oldest first (R44) -/
  trace    : List Event
  /-- the transport's answers to come (R47) -/
  tx       : Transport
  /-- the items waiting on the port, first come first (R61; log 1) -/
  port     : List PortItem
  /-- a request is in progress, because a primitive never answered (R235; log 9) -/
  busy     : Bool
  /-- the answer to the last request (R61, R230; log 14) -/
  response : Option Response
  /-- the warnings recorded so far (R233; log 14) -/
  warnings : List Warning
  /-- the caller's bit vectors (R40; log 11) -/
  mem      : Memory
deriving DecidableEq, Repr

/-- Why the machine stops with a fault. -/
inductive Fault where
  /-- raised by `step` alone: a primitive has stalled, so the request in progress never completes and "the session takes
  no further step" (R235). Safe: the machine stops where the hardware waits for ever. -/
  | stuck
deriving DecidableEq, Repr

/-- Why the machine gives an item of the port no meaning. -/
inductive Refusal where
  /-- raised by a refused arm of `exec`: an instruction with no meaning yet. Safe: the machine stops. -/
  | notModelled (mnemonic : String)
  /-- raised by `step` for an item that is no instruction (R62, R70; log 7). Safe: the machine stops. -/
  | undecodable (e : DecodeError)
deriving DecidableEq, Repr

/-- The session record at creation (R20, R210). -/
def Session.created (p : Params) (product : Str) : Session :=
  { life := .live, tap := p.initTap, tmsBuf := List.replicate p.tmsCapacity false, tmsCount := 0,
    quirk := decide (product = p.quirkId), fault := false, refused := false }

/-- The machine right after reset, which is session creation (R260), for given parameters and transport. Creation has
asked the transport for its product string (R57, R210). -/
def State.created (p : Params) (tx : Transport) : State :=
  { sess := Session.created p tx.product, params := p, trace := [.product tx.product], tx := tx, port := [],
    busy := false, response := none, warnings := [], mem := [] }

/-- The transport `State.reset` stands for: DESIGN CHOICE (log 3); no statement rests on it. -/
def Transport.reset : Transport :=
  { script := [], steady := .full [], bufSizes := [], bufSize := 4096, product := [], drawn := 0 }

/-- The machine right after reset (R260), with the parameters of log 2 and the transport of log 3. -/
def State.reset : State := State.created Config.resetParams Transport.reset

end Sys2Proof.Machine
end

