-- ==== Sys2Proof/Machine/Tap.lean ====
section
/-! DEFINITION. The TAP graph, the self-loops, the next-hop policy and the paths (40_tap_state_machine.md R100 to R107). -/

namespace Sys2Proof.Machine

open Sys2Proof

/-- The transition function (R100): `delta current tms`. -/
def delta : TapState → Bool → TapState
  | .testLogicReset, false => .runTestIdle
  | .testLogicReset, true => .testLogicReset
  | .runTestIdle, false => .runTestIdle
  | .runTestIdle, true => .selectDrScan
  | .selectDrScan, false => .captureDr
  | .selectDrScan, true => .selectIrScan
  | .captureDr, false => .shiftDr
  | .captureDr, true => .exit1Dr
  | .shiftDr, false => .shiftDr
  | .shiftDr, true => .exit1Dr
  | .exit1Dr, false => .pauseDr
  | .exit1Dr, true => .updateDr
  | .pauseDr, false => .pauseDr
  | .pauseDr, true => .exit2Dr
  | .exit2Dr, false => .shiftDr
  | .exit2Dr, true => .updateDr
  | .updateDr, false => .runTestIdle
  | .updateDr, true => .selectDrScan
  | .selectIrScan, false => .captureIr
  | .selectIrScan, true => .testLogicReset
  | .captureIr, false => .shiftIr
  | .captureIr, true => .exit1Ir
  | .shiftIr, false => .shiftIr
  | .shiftIr, true => .exit1Ir
  | .exit1Ir, false => .pauseIr
  | .exit1Ir, true => .updateIr
  | .pauseIr, false => .pauseIr
  | .pauseIr, true => .exit2Ir
  | .exit2Ir, false => .shiftIr
  | .exit2Ir, true => .updateIr
  | .updateIr, false => .runTestIdle
  | .updateIr, true => .selectIrScan

/-- The state after a sequence of TMS bits, first bit first. -/
def walk : TapState → List Bool → TapState
  | t, [] => t
  | t, b :: bs => walk (delta t b) bs

/-- The self-loop's TMS value, where there is one (R102). -/
def selfTms : TapState → Option Bool
  | .testLogicReset => some true
  | .runTestIdle => some false
  | .shiftDr => some false
  | .pauseDr => some false
  | .shiftIr => some false
  | .pauseIr => some false
  | .selectDrScan => none
  | .captureDr => none
  | .exit1Dr => none
  | .exit2Dr => none
  | .updateDr => none
  | .selectIrScan => none
  | .captureIr => none
  | .exit1Ir => none
  | .exit2Ir => none
  | .updateIr => none

/-- The targets whose first TMS bit is 0, for each current state: R103's closed form. -/
def zeroTargets : TapState → List TapState
  | .testLogicReset =>
    [.runTestIdle, .selectDrScan, .captureDr, .shiftDr, .exit1Dr, .pauseDr, .exit2Dr, .updateDr, .selectIrScan,
      .captureIr, .shiftIr, .exit1Ir, .pauseIr, .exit2Ir, .updateIr]
  | .runTestIdle => []
  | .selectDrScan => [.captureDr, .shiftDr, .exit1Dr, .pauseDr, .exit2Dr, .updateDr]
  | .captureDr => [.shiftDr]
  | .shiftDr => []
  | .exit1Dr => [.shiftDr, .pauseDr, .exit2Dr]
  | .pauseDr => []
  | .exit2Dr => [.shiftDr, .exit1Dr, .pauseDr]
  | .updateDr => [.runTestIdle]
  | .selectIrScan => [.captureIr, .shiftIr, .exit1Ir, .pauseIr, .exit2Ir, .updateIr]
  | .captureIr => [.shiftIr]
  | .shiftIr => []
  | .exit1Ir => [.shiftIr, .pauseIr, .exit2Ir]
  | .pauseIr => []
  | .exit2Ir => [.shiftIr, .exit1Ir, .pauseIr]
  | .updateIr =>
    [.runTestIdle, .selectDrScan, .captureDr, .shiftDr, .exit1Dr, .pauseDr, .exit2Dr, .updateDr]

/-- The next TMS bit toward a target other than the current state (R103). -/
def nextTms (current target : TapState) : Bool := !(decide (target ∈ zeroTargets current))

/-- The bits of the loop "while S.tap != target" of R105, from a current state, for at most `fuel` passes. -/
def hops : Nat → TapState → TapState → List Bool
  | 0, _, _ => []
  | fuel + 1, current, target =>
    if current = target then []
    else nextTms current target :: hops fuel (delta current (nextTms current target)) target

/-- The TMS bits `moveToState` queues (R107): the self-loop's bit where target = current (R104), else the hops; the
longest path has 8 bits (R107). -/
def path (current target : TapState) : List Bool :=
  if current = target then (selfTms current).toList else hops 8 current target

/-- The two states a shift is admitted in (R150). -/
def isShiftState (t : TapState) : Bool := decide (t = .shiftDr ∨ t = .shiftIr)

end Sys2Proof.Machine
end

