-- ==== Sys2Proof/Machine/Flags.lean ====
section
/-! DEFINITION. Status bits and direction bits: the sticky marks (10_state.md R25), the quirk test (R211), a shift's
opcode selection (R153), and the codes of the outcomes (60_exceptions.md R230). -/

namespace Sys2Proof.Machine

open Sys2Proof

/-- `S.fault <- 1` (R25, R232). -/
def State.setFault (s : State) : State := { s with sess := { s.sess with fault := true } }

/-- `S.refused <- 1` (R25, R27). -/
def State.setRefused (s : State) : State := { s with sess := { s.sess with refused := true } }

/-- `S.tap <- t` (R101). -/
def State.setTap (t : TapState) (s : State) : State := { s with sess := { s.sess with tap := t } }

/-- The opcode of a shift's byte-mode commands (R153). -/
def byteOp (o : Opc) (write read : Bool) : Byte := o.code false false write read

/-- The same opcode with `BITMODE` added (R153, R155). -/
def bitOp (o : Opc) (write read : Bool) : Byte := o.code false true write read

/-- The opcode of the final-bit command (R156). -/
def finalOp (o : Opc) (read : Bool) : Byte := o.code true true false read

/-- The opcode of a TMS command (R134). -/
def tmsOp (o : Opc) : Byte := o.code true true false false

/-- The codes of the two errors that end a request (R230). -/
def Error.code : Error → Nat
  | .invalidArgument _ => 1
  | .transport _ _ _ => 2

/-- The code of IntegrityWarning, of both its forms (R230, R233). -/
def Warning.code : Warning → Nat
  | .flush => 3
  | .count _ => 3

/-- The code of every refusal, whatever its reason (R230, R234). -/
def refusedCode : Nat := 4

/-- The code of a stuck session (R230, R235). -/
def Fault.code : Fault → Nat
  | .stuck => 5

/-- The code of an answer that is no plain result (R230). -/
def Response.code : Response → Option Nat
  | .result _ => none
  | .error e => some e.code
  | .refused _ => some refusedCode

end Sys2Proof.Machine
end

