-- ==== Sys2Proof/Machine/Operands.lean ====
section
/-! DEFINITION. Operands and their assembly: the caller's vectors (20_memory.md R40, 00_scope.md R9), a shift's split
(42_data_shifter.md R151), the command bytes (30_encoding.md R64 to R69), and the captured word (R42). -/

namespace Sys2Proof.Machine

open Sys2Proof

/-! ### The caller's named vectors -/

/-- The form that makes equal memories equal data: names strictly rising, no entry equal to what an unlisted name reads
as, the vector of no bytes (log 11). -/
def Memory.wf : Memory → Bool
  | [] => true
  | [(_, bs)] => decide (bs ≠ [])
  | (a, bs) :: (b, cs) :: rest => decide (bs ≠ []) && decide (a < b) && Memory.wf ((b, cs) :: rest)

/-- The bytes of a named vector. -/
def Memory.get : Memory → Nat → List Byte
  | [], _ => []
  | (a, bs) :: rest, n => if a = n then bs else Memory.get rest n

/-- Put a vector under a name, keeping the canonical form. -/
def Memory.set : Memory → Nat → List Byte → Memory
  | [], n, v => if v = [] then [] else [(n, v)]
  | (a, bs) :: rest, n, v =>
    if n < a then (if v = [] then (a, bs) :: rest else (n, v) :: (a, bs) :: rest)
    else if a = n then (if v = [] then rest else (n, v) :: rest)
    else (a, bs) :: Memory.set rest n v

/-- One byte of a named vector, where it has one. -/
def State.readByte (s : State) (name k : Nat) : Option Byte := (s.mem.get name)[k]?

/-- `MemRead(In, k, n)` (R9). -/
def memRead (v : List Byte) (k n : Nat) : List Byte := (v.drop k).take n

/-- `MemWrite(Out, k, bs)` (R9). -/
def memWrite (v : List Byte) (k : Nat) (bs : List Byte) : List Byte := v.take k ++ bs ++ v.drop (k + bs.length)

/-- Byte `k` of a vector (R9). -/
def vecByte (v : List Byte) (k : Nat) : Byte := v.getD k 0

/-- Bit `i` of a vector: bit `i mod 8` of byte `i div 8` (R9, R40). -/
def vecBit (v : List Byte) (i : Nat) : Bool := (vecByte v (i / 8)).getLsbD (i % 8)

/-- How many bytes a vector of `len` bits needs (R40). -/
def vecBytes (len : Nat) : Nat := (len + 7) / 8

/-- The value of an input operand at the start of the request (R150). -/
def State.input (s : State) : Option VecArg → Option (List Byte)
  | none => none
  | some (.bytes bs) => some bs
  | some (.buffer n) => some (s.mem.get n)

/-- The value of an output operand at the start of the request. -/
def State.output (s : State) : Option Nat → Option (List Byte)
  | none => none
  | some n => some (s.mem.get n)

/-- Are `In` and `Out` the same storage (R150): the same name (log 11)? -/
def sameStorage : Option VecArg → Option Nat → Bool
  | some (.buffer a), some b => decide (a = b)
  | _, _ => false

/-- Write a request's output vector back to the caller; what did not change is left alone. -/
def State.putOutput (s : State) (name : Option Nat) (value : Option (List Byte)) : State :=
  match name, value with
  | some n, some v => if s.mem.get n = v then s else { s with mem := s.mem.set n v }
  | _, _ => s

/-- Is a vector that is present too short for the length (R150, check 4)? -/
def tooShort (v : Option (List Byte)) (len : Nat) : Bool :=
  match v with
  | none => false
  | some bs => decide (bs.length < vecBytes len)

/-! ### The split of a shift (R151) -/

/-- `eff`: the length less the deferred final bit (R151). -/
def effLength (len : Nat) (isLast : Bool) : Nat := if isLast then len - 1 else len

/-- `nb_byte` (R151). -/
def nbByte (len : Nat) (isLast : Bool) : Nat := effLength len isLast / 8

/-- `nb_bit` (R151). -/
def nbBit (len : Nat) (isLast : Bool) : Nat := effLength len isLast % 8

/-! ### Command bytes -/

/-- TMS bits packed with the first bit in bit 0 (R69, R134). -/
def packBits : List Bool → Byte
  | [] => 0
  | b :: bs => (if b then (1 : Byte) else 0) ||| (packBits bs <<< 1)

/-- The TMS command of one chunk (R64, R134). -/
def tmsCommand (o : Opc) (chunk : List Bool) : List Byte :=
  [tmsOp o, BitVec.ofNat 8 (chunk.length - 1), 0x80 ||| packBits chunk]

/-- The chunks of the loop of R133, oldest bits first, for at most `fuel` passes. -/
def chunks : Nat → List Bool → List (List Bool)
  | 0, _ => []
  | _ + 1, [] => []
  | fuel + 1, b :: bs =>
    (b :: bs).take Config.tmsChunk :: chunks fuel ((b :: bs).drop Config.tmsChunk)

/-- The commands that carry these TMS bits (R133). -/
def tmsCommands (o : Opc) (bits : List Bool) : List (List Byte) := (chunks bits.length bits).map (tmsCommand o)

/-- The byte-mode command of `n` bytes (R65, R154); `payload` is present when writing. -/
def byteCommand (o : Opc) (payload : Option (List Byte)) (read : Bool) (n : Nat) : List Byte :=
  [byteOp o payload.isSome read, BitVec.ofNat 8 (n - 1), BitVec.ofNat 8 ((n - 1) / 256)] ++ payload.getD []

/-- The bit-mode command of `n` bits (R67, R155). -/
def bitCommand (o : Opc) (payload : Option Byte) (read : Bool) (n : Nat) : List Byte :=
  [bitOp o payload.isSome read, BitVec.ofNat 8 (n - 1)] ++ payload.toList

/-- The final-bit command (R68, R156): `data = 0x01 | (tdi << 7)`. -/
def finalCommand (o : Opc) (read tdi : Bool) : List Byte :=
  [finalOp o read, 0x00, 0x01 ||| ((if tdi then (1 : Byte) else 0) <<< 7)]

/-! ### Captured values -/

/-- The residual byte, right-shifted because partial captures are left-aligned (R155). -/
def realign (r : Byte) (nb : Nat) : Byte := r >>> (8 - nb)

/-- The final captured bit, moved from bit 7 to bit `nb` (R156, 90_conflicts.md C3). -/
def finalCapture (r : Byte) (nb : Nat) : Byte := (r &&& 0x80) >>> (7 - nb)

/-- The 32-bit word of a window, little-endian (R42). -/
def wordOf (v : List Byte) : Word32 := vecByte v 3 ++ vecByte v 2 ++ vecByte v 1 ++ vecByte v 0

/-- Is the word recorded: neither all-zero nor all-ones (R192)? -/
def isDevice (w : Word32) : Bool := decide (w ≠ 0x00000000 ∧ w ≠ 0xFFFFFFFF)

end Sys2Proof.Machine
end

