-- ==== Sys2Proof/Machine/Ops.lean ====
section
/-! DEFINITION. The shared operations: how a request ends, the transport's primitives (00_scope.md R10, 20_memory.md R44 to
R48), error entry and refusal (60_exceptions.md R232 to R239), and the port's guard. -/

namespace Sys2Proof.Machine

open Sys2Proof

/-! ### How an operation ends -/

/-- Why a request ends before its last statement (R230). -/
inductive Stop where
  /-- an error is raised (R231, R232) -/
  | error (e : Error)
  /-- the model refuses (R234) -/
  | refused (r : Reason)
  /-- a primitive never answers (R235) -/
  | stuck
deriving DecidableEq, Repr

/-- The code of each end that is no result (R230). -/
def Stop.code : Stop → Nat
  | .error e => e.code
  | .refused _ => refusedCode
  | .stuck => Fault.stuck.code

/-- The end of an operation over a working state: done with a value, or ended early; both say what was written. -/
inductive Run (σ α : Type) where
  | done (a : α) (s : σ)
  | ended (w : Stop) (s : σ)
deriving DecidableEq, Repr

/-- The next statement, run only if the one before it completed (R12). -/
def Run.bind {σ α β : Type} (x : Run σ α) (f : α → σ → Run σ β) : Run σ β :=
  match x with
  | .done a s => f a s
  | .ended w s => .ended w s

/-- The same end over another working state. -/
def Run.mapState {σ τ α : Type} (f : σ → τ) : Run σ α → Run τ α
  | .done a s => .done a (f s)
  | .ended w s => .ended w (f s)

/-- The same end with another value. -/
def Run.map {σ α β : Type} (f : α → β) : Run σ α → Run σ β
  | .done a s => .done (f a) s
  | .ended w s => .ended w s

/-- What was written, however it ended. -/
def Run.final {σ α : Type} : Run σ α → σ
  | .done _ s => s
  | .ended _ s => s

/-! ### Errors and refusals: the core's exceptions -/

/-- Raise an error (R11, R232, R238): nothing is saved and no mode changes; a TransportError sets `S.fault`, an
InvalidArgument sets nothing (R231). What the request had written so far stays. There is no return from an error: the
caller goes on with its next request (R239). -/
def raise {α : Type} (e : Error) (s : State) : Run State α :=
  match e with
  | .transport p asked n => .ended (.error (.transport p asked n)) s.setFault
  | .invalidArgument n => .ended (.error (.invalidArgument n)) s

/-- Refuse (R11, R27, R234). -/
def refuse {α : Type} (r : Reason) (s : State) : Run State α := .ended (.refused r) s

/-- The answer of a request to its caller (R61, R230). A refusal sets `S.refused` and nothing else of `S` (R27); a stuck
request has no answer and stays in progress (R235). -/
def conclude : Run State Result → Host.Outcome State Fault Refusal
  | .done r s => .next { s with response := some (.result r) }
  | .ended (.error e) s => .next { s with response := some (.error e) }
  | .ended (.refused r) s => .next { s.setRefused with response := some (.refused r) }
  | .ended .stuck s => .next { s with busy := true, response := none }

/-- The port takes one request at a time: one that arrives while another is in progress is refused (R61, R234, R266). -/
def serve (body : State → Run State Result) (s : State) : Host.Outcome State Fault Refusal :=
  if s.busy then conclude (refuse .concurrentRequest s) else conclude (body s)

/-- "if S.life != Live: refuse NotLive" (R234). -/
def live {α : Type} (body : State → Run State α) (s : State) : Run State α :=
  if s.sess.life = .live then body s else refuse .notLive s

/-! ### The transport's primitives -/

/-- Record an event (R44). -/
def State.emit (e : Event) (s : State) : State := { s with trace := s.trace ++ [e] }

/-- What one event does to the transport's queue (R28, R46). -/
def queueAfter (q : List Byte) : Event → List Byte
  | .send bs => q ++ bs
  | .flush _ => []
  | .read _ _ => q
  | .drain _ _ => q
  | .bufSize _ => q
  | .product _ => q

/-- The transport's queue: "the bytes of the `Send` events after the last `Flush` event" (R28). -/
def queued (trace : List Event) : List Byte := trace.foldl queueAfter []

/-- The transport's next answer. -/
def Transport.answer (t : Transport) : Answer :=
  match t.script with
  | [] => t.steady
  | a :: _ => a

/-- The transport once it has given that answer. -/
def Transport.answered (t : Transport) : Transport := { t with script := t.script.tail }

/-- An answer is short when fewer is done than asked (R44, R232; log 13). -/
def Answer.against (asked : Nat) : Answer → Answer
  | .full data => .full data
  | .short n => if n < asked then .short n else .full []
  | .stall => .stall

/-- How many bytes of the receive stream a read or drain of `asked` bytes consumes with its answer (R49). -/
def Answer.consumed (asked : Nat) : Answer → Nat
  | .full _ => asked
  | .short n => n
  | .stall => 0

/-- The transport once it has answered and given up `n` bytes of its receive stream (R49). -/
def Transport.consume (n : Nat) (t : Transport) : Transport := { t.answered with drawn := t.drawn + n }

/-- `n` answered bytes from place `k` of the receive stream: `data`, completed by free bytes (R47; log 4). -/
def answerBytes (n : Nat) (data : List Byte) (k : Nat) : List Byte :=
  (data ++ ((List.range n).map fun i => Config.freeByte (k + i)).drop data.length).take n

/-- `TxSend(bs)` (R10): it never fails (R250). -/
def txSend (bs : List Byte) (s : State) : State := s.emit (.send bs)

/-- Send several commands, each in a `Send` of its own (R45, R49). -/
def txSendAll (cmds : List (List Byte)) (s : State) : State := { s with trace := s.trace ++ cmds.map Event.send }

/-- How many bytes the next `Flush` is to write: all that is queued (R44). -/
def flushAsked (s : State) : Nat := (queued s.trace).length

/-- The answer the next `Flush` gets. -/
def flushAnswer (s : State) : Answer :=
  match s.tx.answer.against (flushAsked s) with
  | .full _ => .full []
  | .short n => .short n
  | .stall => .stall

/-- The state after the next `Flush` has answered. -/
def flushed (s : State) : State := State.emit (.flush (flushAnswer s)) { s with tx := s.tx.answered }

/-- `TxFlush()`, a short answer raising TransportError (R232). -/
def txFlush (s : State) : Run State Unit :=
  match flushAnswer s with
  | .full _ => .done () (flushed s)
  | .short n => raise (.transport .flush (flushAsked s) n) (flushed s)
  | .stall => .ended .stuck (flushed s)

/-- The answer `TxRead(n)` gets: exactly `n` bytes where it is full. -/
def readAnswer (n : Nat) (s : State) : Answer :=
  match s.tx.answer.against n with
  | .full data => .full (answerBytes n data s.tx.drawn)
  | .short k => .short k
  | .stall => .stall

/-- The state after `TxRead(n)` has answered: the bytes it gave are gone from the receive stream (R49). -/
def readDone (n : Nat) (s : State) : State :=
  State.emit (.read n (readAnswer n s)) { s with tx := s.tx.consume ((readAnswer n s).consumed n) }

/-- `TxRead(n)`, a short answer raising TransportError and its bytes discarded (R232). -/
def txRead (n : Nat) (s : State) : Run State (List Byte) :=
  match readAnswer n s with
  | .full bs => .done bs (readDone n s)
  | .short k => raise (.transport .read n k) (readDone n s)
  | .stall => .ended .stuck (readDone n s)

/-- The answer `TxDrain(n)` gets. -/
def drainAnswer (n : Nat) (s : State) : Answer :=
  match s.tx.answer.against n with
  | .full _ => .full []
  | .short k => .short k
  | .stall => .stall

/-- The state after `TxDrain(n)` has answered: the bytes it took are gone from the receive stream (R49). -/
def drained (n : Nat) (s : State) : State :=
  State.emit (.drain n (drainAnswer n s)) { s with tx := s.tx.consume ((drainAnswer n s).consumed n) }

/-- `TxDrain(n)`, a short answer raising TransportError (R232). -/
def txDrain (n : Nat) (s : State) : Run State Unit :=
  match drainAnswer n s with
  | .full _ => .done () (drained n s)
  | .short k => raise (.transport .drain n k) (drained n s)
  | .stall => .ended .stuck (drained n s)

/-- The answer to `TxBufSize()`: it always answers (R47). -/
def bufSizeNow (s : State) : Nat := s.tx.bufSizes.headD s.tx.bufSize

/-- The state after `TxBufSize()`. -/
def bufSizeAsked (s : State) : State :=
  State.emit (.bufSize (bufSizeNow s)) { s with tx := { s.tx with bufSizes := s.tx.bufSizes.tail } }

/-- The state after `TxProduct()`, whose answer is `s.tx.product` (R210). -/
def productAsked (s : State) : State := s.emit (.product s.tx.product)

end Sys2Proof.Machine
end

