-- ==== Sys2Proof/Machine/Packer.lean ====
section
/-! DEFINITION. The TMS bit packer (41_tms_packer.md), the TAP walker above it (40_tap_state_machine.md R105, R106), and
the requests MOVE_TO_STATE, RESET_TLR, PUSH_TMS and FLUSH. -/

namespace Sys2Proof.Machine

open Sys2Proof

/-- The valid bits, oldest first (R23, R130). -/
def State.pending (s : State) : List Bool := s.sess.tmsBuf.take s.sess.tmsCount

/-- The buffer emptied: the count 0 and the contents all 0 (R133). -/
def State.clearTms (s : State) : State :=
  { s with sess := { s.sess with tmsBuf := List.replicate s.params.tmsCapacity false, tmsCount := 0 } }

/-- The pending bits as TMS commands on the stream, the buffer then empty: the loop of R133. -/
def sendPending (s : State) : State := (txSendAll (tmsCommands s.params.opc s.pending) s).clearTms

/-- `flush(false)` as the auto-flush runs it: `Send` events only, so it cannot fail (R132). -/
def autoFlush (s : State) : State := if s.sess.tmsCount = 0 then s else sendPending s

/-- Append one bit to the buffer (R131). -/
def appendTms (b : Bool) (s : State) : State :=
  { s with sess := { s.sess with tmsBuf := s.sess.tmsBuf.set s.sess.tmsCount b, tmsCount := s.sess.tmsCount + 1 } }

/-- `pushTmsBit(bit)` on a live session (R131). -/
def pushTms (b : Bool) (s : State) : State :=
  if s.sess.tmsCount = s.params.tmsCapacity then appendTms b (autoFlush s) else appendTms b s

/-- Several bits in order. -/
def pushAll : List Bool → State → State
  | [], s => s
  | b :: bs, s => pushAll bs (pushTms b s)

/-- `flush(force)` on a live session (R133): 0 and no event when nothing was pending, else the number of bits sent. -/
def flushTms (force : Bool) (s : State) : Run State Nat :=
  if s.sess.tmsCount = 0 then .done 0 s
  else if force then (txFlush (sendPending s)).map fun _ => s.sess.tmsCount
  else .done s.sess.tmsCount (sendPending s)

/-- One edge of `moveToState`: the bit is queued and `S.tap` follows it at once (R101, R105). -/
def queueEdge (b : Bool) (s : State) : State := (pushTms b s).setTap (delta (pushTms b s).sess.tap b)

/-- The edges of a path, in order. -/
def queuePath : List Bool → State → State
  | [], s => s
  | b :: bs, s => queuePath bs (queueEdge b s)

/-- `moveToState(target)` on a live session (R105). -/
def moveTo (target : TapState) (s : State) : Run State Unit :=
  (flushTms true (queuePath (path s.sess.tap target) s)).map fun _ => ()

/-- `resetToTestLogicReset()` on a live session (R106). -/
def resetTap (s : State) : Run State Unit :=
  (flushTms true ((pushAll (List.replicate Config.resetTmsCount true) s).setTap .testLogicReset)).map fun _ => ()

/-- MOVE_TO_STATE (R105). -/
def execMoveToState (target : TapState) (s : State) : Host.Outcome State Fault Refusal :=
  serve (live fun s => (moveTo target s).map fun _ => Result.none) s

/-- RESET_TLR (R106). -/
def execResetTlr (s : State) : Host.Outcome State Fault Refusal :=
  serve (live fun s => (resetTap s).map fun _ => Result.none) s

/-- PUSH_TMS (R131): `S.tap` does not follow (R264). -/
def execPushTms (bit : Bool) (s : State) : Host.Outcome State Fault Refusal :=
  serve (live fun s => .done Result.none (pushTms bit s)) s

/-- FLUSH (R133). -/
def execFlush (force : Bool) (s : State) : Host.Outcome State Fault Refusal :=
  serve (live fun s => (flushTms force s).map Result.nat) s

end Sys2Proof.Machine
end

