-- ==== Sys2Proof/Machine/Shifter.lean ====
section
/-! DEFINITION. The data shifter, its read/capture multiplexer and the IR/DR entry points (42_data_shifter.md), and the
requests SHIFT, SHIFT_IR, SHIFT_IR_BYTE and SHIFT_DR. -/

namespace Sys2Proof.Machine

open Sys2Proof

/-- The multiplexer (R154 to R156, R158): a command that returns `n` bytes goes out; then the response is read where an
output is wanted, else drained where the quirk flag is set, else left alone. A `Flush` precedes each (R48). -/
def issue (cmd : List Byte) (n : Nat) (wantRead : Bool) (s : State) : Run State (Option (List Byte)) :=
  if wantRead then
    (txFlush (txSend cmd s)).bind fun _ s => (txRead n s).map some
  else if s.sess.quirk then
    (txFlush (txSend cmd s)).bind fun _ s => (txDrain n s).map fun _ => none
  else .done none (txSend cmd s)

/-- A shift at work: the machine and the output vector's value so far. -/
structure Work where
  s   : State
  out : Option (List Byte)
deriving DecidableEq, Repr

/-- Run an operation of the machine inside a shift. -/
def Work.lift {α : Type} (w : Work) (x : Run State α) : Run Work α := x.mapState fun s => { s := s, out := w.out }

/-- What the response of a command does to the output vector, where one is present and a response was read. -/
def Work.capture (w : Work) (f : List Byte → List Byte → List Byte) (r : Option (List Byte)) : Work :=
  match w.out, r with
  | some v, some bs => { w with out := some (f v bs) }
  | _, _ => w

/-- The whole-byte phase (R154), for at most `fuel` chunks: `k` bytes are done, `rem` are left. -/
def bytePhase (inp : Option (List Byte)) (xfer : Nat) : Nat → Nat → Nat → Work → Run Work Unit
  | 0, _, _, w => .done () w
  | fuel + 1, k, rem, w =>
    if rem = 0 then .done () w
    else
      (w.lift (issue (byteCommand w.s.params.opc (inp.map fun v => memRead v k (min rem xfer)) w.out.isSome (min rem xfer))
          (min rem xfer) w.out.isSome w.s)).bind fun r w =>
        bytePhase inp xfer fuel (k + min rem xfer) (rem - min rem xfer) (w.capture (fun v bs => memWrite v k bs) r)

/-- The residual-bit phase (R155): the payload is the whole input byte, unmasked. -/
def residualPhase (inp : Option (List Byte)) (nb_byte nb_bit : Nat) (w : Work) : Run Work Unit :=
  if nb_bit = 0 then .done () w
  else
    (w.lift (issue (bitCommand w.s.params.opc (inp.map fun v => vecByte v nb_byte) w.out.isSome nb_bit) 1 w.out.isSome
        w.s)).bind fun r w =>
      .done () (w.capture (fun v bs => memWrite v nb_byte [realign (vecByte bs 0) nb_bit]) r)

/-- The final-bit phase (R156) with its update of `S.tap` (R157). -/
def finalPhase (inp : Option (List Byte)) (nb_byte nb_bit : Nat) (isLast : Bool) (w : Work) : Run Work Unit :=
  if isLast then
    (w.lift (issue (finalCommand w.s.params.opc w.out.isSome
        ((inp.map fun v => (vecByte v nb_byte).getLsbD nb_bit).getD false)) 1 w.out.isSome w.s)).bind fun r w =>
      let w := w.capture (fun v bs => memWrite v nb_byte [vecByte v nb_byte ||| finalCapture (vecByte bs 0) nb_bit]) r
      .done () { w with s := w.s.setTap (delta w.s.sess.tap true) }
  else .done () w

/-- The three phases after the opening flush, in the order of R160. -/
def shiftPhases (inp : Option (List Byte)) (len : Nat) (isLast : Bool) (xfer : Nat) (w : Work) : Run Work Unit :=
  (bytePhase inp xfer (nbByte len isLast) 0 (nbByte len isLast) w).bind fun _ w =>
    (residualPhase inp (nbByte len isLast) (nbBit len isLast) w).bind fun _ w =>
      finalPhase inp (nbByte len isLast) (nbBit len isLast) isLast w

/-- Checks 4 and 5 of R150. -/
def vectorCheck (inp out : Option (List Byte)) (aliased : Bool) (len : Nat) : Option Reason :=
  if tooShort inp len ∨ tooShort out len then some .shortVector
  else if aliased then some .aliasedVectors
  else none

/-- Checks 2 to 5 of R150, in order; check 1 is `live`. -/
def shiftCheck (inp out : Option (List Byte)) (aliased : Bool) (len : Nat) (isLast : Bool) (s : State) : Option Reason :=
  if len = 0 ∧ isLast then some .zeroLengthLast
  else if isShiftState s.sess.tap then vectorCheck inp out aliased len
  else some .notInShiftState

/-- The buffer sizes the core takes (R152). -/
def bufSizeOk (b : Nat) : Bool := decide (Config.bufSizeMin ≤ b ∧ b ≤ Config.bufSizeMax)

/-- `shift` on a live session with the vectors' values (R160): the checks, the query, the opening flush, the phases. -/
def shiftValues (inp out : Option (List Byte)) (aliased : Bool) (len : Nat) (isLast : Bool) (s : State) :
    Run Work Unit :=
  match shiftCheck inp out aliased len isLast s with
  | some r => .ended (.refused r) { s := s, out := out }
  | none =>
    if bufSizeOk (bufSizeNow s) then
      (Work.lift { s := s, out := out } (flushTms true (bufSizeAsked s))).bind fun _ w =>
        shiftPhases inp len isLast (bufSizeNow s - 3) w
    else .ended (.refused .bufferSizeOutOfRange) { s := bufSizeAsked s, out := out }

/-- `shift(input, output, length, isLast)` on a live session (R160). What was captured is in the caller's vector, however
the request ends (R232, R238). -/
def shiftVectors (input : Option VecArg) (output : Option Nat) (len : Nat) (isLast : Bool) (s : State) :
    Run State Unit :=
  (shiftValues (s.input input) (s.output output) (sameStorage input output) len isLast s).mapState fun w =>
    w.s.putOutput output w.out

/-- The expansion of `shiftIR` and `shiftDR` on a live session (R161, R163): `shiftState` is SHIFT_IR or SHIFT_DR. -/
def shiftRegister (shiftState : TapState) (input : Option VecArg) (output : Option Nat) (len : Nat)
    (endState : TapState) (s : State) : Run State Unit :=
  if len = 0 then refuse .zeroLengthLast s
  else match vectorCheck (s.input input) (s.output output) (sameStorage input output) len with
    | some r => refuse r s
    | none =>
      (moveTo shiftState s).bind fun _ s =>
        (shiftVectors input output len true s).bind fun _ s => moveTo endState s

/-- SHIFT (R160). -/
def execShift (input : Option VecArg) (output : Option Nat) (length : Nat) (isLast : Bool) (s : State) :
    Host.Outcome State Fault Refusal :=
  serve (live fun s => (shiftVectors input output length isLast s).map fun _ => Result.none) s

/-- SHIFT_IR (R161). -/
def execShiftIr (input : Option VecArg) (output : Option Nat) (irlen : Nat) (endState : TapState) (s : State) :
    Host.Outcome State Fault Refusal :=
  serve (live fun s => (shiftRegister .shiftIr input output irlen endState s).map fun _ => Result.none) s

/-- SHIFT_IR_BYTE (R162): more than 8 bits is an invalid argument, before any effect (R231). -/
def execShiftIrByte (tdi : Byte) (irlen : Nat) (endState : TapState) (s : State) : Host.Outcome State Fault Refusal :=
  serve (live fun s =>
    if irlen > 8 then raise (.invalidArgument irlen) s
    else (shiftRegister .shiftIr (some (.bytes [tdi])) none irlen endState s).map fun _ => Result.none) s

/-- SHIFT_DR (R163). -/
def execShiftDr (input : Option VecArg) (output : Option Nat) (drlen : Nat) (endState : TapState) (s : State) :
    Host.Outcome State Fault Refusal :=
  serve (live fun s => (shiftRegister .shiftDr input output drlen endState s).map fun _ => Result.none) s

end Sys2Proof.Machine
end

