-- ==== Sys2Proof/Machine/Enumerator.lean ====
section
/-! DEFINITION. The scan-chain enumerator and the request DETECT_CHAIN (43_chain_enumerator.md). -/

namespace Sys2Proof.Machine

open Sys2Proof

/-- The all-ones pattern of a window (R191). -/
def windowOnes : List Byte := [0xFF, 0xFF, 0xFF, 0xFF]

/-- The fresh buffer of a window (R191). -/
def windowZeros : List Byte := [0x00, 0x00, 0x00, 0x00]

/-- The words a window's buffer adds to the result (R192, R193). -/
def windowWords (out : Option (List Byte)) : List Word32 :=
  if isDevice (wordOf (out.getD [])) then [wordOf (out.getD [])] else []

/-- The windows of R194, `remaining` of them; only the last one leaves the shift state. -/
def windows : Nat → State → Run State (List Word32)
  | 0, s => .done [] s
  | remaining + 1, s =>
    match shiftValues (some windowOnes) (some windowZeros) false Config.idcodeWidth (decide (remaining = 0)) s with
    | .ended w c => .ended w c.s
    | .done _ c => (windows remaining c.s).map fun ws => windowWords c.out ++ ws

/-- `detectChain(maxDevices)` on a live session (R194). -/
def detect (maxDevices : Nat) (s : State) : Run State (List Word32) :=
  (resetTap s).bind fun _ s =>
    (moveTo .shiftDr s).bind fun _ s =>
      (windows maxDevices s).bind fun ws s => (resetTap s).map fun _ => ws

/-- DETECT_CHAIN (R194). -/
def execDetectChain (maxDevices : Nat) (s : State) : Host.Outcome State Fault Refusal :=
  serve (live fun s => (detect maxDevices s).map Result.words) s

end Sys2Proof.Machine
end

