-- ==== Sys2Proof/Machine/Lifecycle.lean ====
section
/-! DEFINITION. The session's creation and release (44_session.md), the reserved request codes (60_exceptions.md R234),
and the requests SESSION_CREATE and SESSION_RELEASE. -/

namespace Sys2Proof.Machine

open Sys2Proof

/-- `sessionCreate()` (R210): the product string is asked for and every field of `S` is written. -/
def createSession (s : State) : State := { productAsked s with sess := Session.created s.params s.tx.product }

/-- Record an IntegrityWarning; the operation goes on (R11, R233). -/
def State.warn (w : Warning) (s : State) : State := { s with warnings := s.warnings ++ [w] }

/-- `S.life <- Released` (R213). -/
def State.release (s : State) : State := { s with sess := { s.sess with life := .released } }

/-- The release's own flush: a short answer is a warning (R213, R233). -/
def releaseFlush (s : State) : Run State Unit :=
  match flushAnswer s with
  | .full _ => .done () (flushed s)
  | .short _ => .done () ((flushed s).warn .flush)
  | .stall => .ended .stuck (flushed s)

/-- The release's read-back: a count other than expected is a warning (R213, R233). -/
def releaseRead (n : Nat) (s : State) : Run State Unit :=
  if n = 0 then .done () s
  else match readAnswer n s with
    | .full _ => .done () (readDone n s)
    | .short k => .done () ((readDone n s).warn (.count k))
    | .stall => .ended .stuck (readDone n s)

/-- `sessionRelease()` on a live session (R213): pending TMS bits are not sent. -/
def releaseSession (s : State) : Run State Unit :=
  (releaseFlush (txSend s.params.teardownCmds s)).bind fun _ s =>
    (releaseRead s.params.teardownExpect s).bind fun _ s => .done () s.release

/-- A reserved request code (R62, R234). -/
def reservedRequest (s : State) : Run State Result := live (fun s => refuse .reservedRequest s) s

/-- SESSION_CREATE (R210). -/
def execSessionCreate (s : State) : Host.Outcome State Fault Refusal :=
  serve (fun s => .done Result.none (createSession s)) s

/-- SESSION_RELEASE (R213). -/
def execSessionRelease (s : State) : Host.Outcome State Fault Refusal :=
  serve (live fun s => (releaseSession s).map fun _ => Result.none) s

/-- Request code 0xB (R234). -/
def execReservedB (s : State) : Host.Outcome State Fault Refusal := serve reservedRequest s

/-- Request code 0xC (R234). -/
def execReservedC (s : State) : Host.Outcome State Fault Refusal := serve reservedRequest s

/-- Request code 0xD (R234). -/
def execReservedD (s : State) : Host.Outcome State Fault Refusal := serve reservedRequest s

/-- Request code 0xE (R234). -/
def execReservedE (s : State) : Host.Outcome State Fault Refusal := serve reservedRequest s

/-- Request code 0xF (R234). -/
def execReservedF (s : State) : Host.Outcome State Fault Refusal := serve reservedRequest s

end Sys2Proof.Machine
end

