-- ==== Sys2Proof/Machine/Commands.lean ====
section
/-! DEFINITION. The commands of the stream as single steps of the phase that issues them (30_encoding.md R63 to R70;
R134, R152, R154, R155, R156, R158; log 5). -/

namespace Sys2Proof.Machine

open Sys2Proof

/-- A command with the fields the core emits runs as the port's item; any other is refused as R11 and R27 have it: the
core gives it no meaning (R71; log 7). -/
def issueWellFormed (wf : Bool) (body : State → Run State Result) (s : State) : Host.Outcome State Fault Refusal :=
  serve (live fun s => if wf then body s else refuse .malformedCommand s) s

/-- The answer of a command: the bytes read, where it reads. -/
def commandResult : Option (List Byte) → Result
  | some bs => .bytes bs
  | none => .none

/-- A data command: only in a shift state (R150, check 3), after the packer's bits (R52, R160), through the multiplexer
(R158); `after` is the update of `S.tap` that only the final bit has (R157). -/
def dataCommand (cmd : List Byte) (n : Nat) (read : Bool) (after : State → State) (s : State) : Run State Result :=
  if isShiftState s.sess.tap then
    (flushTms true s).bind fun _ s =>
      (issue cmd n read s).bind fun r s => .done (commandResult r) (after s)
  else refuse .notInShiftState s

/-- A byte-mode command of `n` bytes: as the whole-byte phase emits it, the buffer size is asked first (R152), and no
chunk is longer than `B - 3` bytes (R65, R154); a longer one is none the core emits (log 5, log 7). -/
def byteDataCommand (payload : Option (List Byte)) (n : Nat) (read : Bool) (s : State) : Run State Result :=
  if isShiftState s.sess.tap then
    if bufSizeOk (bufSizeNow s) then
      if n ≤ bufSizeNow s - 3 then
        dataCommand (byteCommand s.params.opc payload read n) n read id (bufSizeAsked s)
      else refuse .malformedCommand (bufSizeAsked s)
    else refuse .bufferSizeOutOfRange (bufSizeAsked s)
  else refuse .notInShiftState s

/-- The final bit leaves the shift state: `S.tap <- delta(S.tap, 1)` (R157). -/
def leaveShift (s : State) : State := s.setTap (delta s.sess.tap true)

/-- TMS (R64, R134): sent as it stands, after the packer's older bits; never drained (R158); `S.tap` does not follow, as
for bits queued directly (R22). -/
def execTms (len data : Byte) (s : State) : Host.Outcome State Fault Refusal :=
  issueWellFormed (WellFormed.tmsFields len data)
    (fun s => .done Result.none (txSend [tmsOp s.params.opc, len, data] (autoFlush s))) s

/-- FINAL_BIT (R68, R156). -/
def execFinalBit (len data : Byte) (s : State) : Host.Outcome State Fault Refusal :=
  issueWellFormed (WellFormed.finalFields len data)
    (fun s => dataCommand [finalOp s.params.opc false, len, data] 1 false leaveShift s) s

/-- FINAL_BIT_READ (R68, R156): the captured bit is bit 7 of the answer. -/
def execFinalBitRead (len data : Byte) (s : State) : Host.Outcome State Fault Refusal :=
  issueWellFormed (WellFormed.finalFields len data)
    (fun s => dataCommand [finalOp s.params.opc true, len, data] 1 true leaveShift s) s

/-- BYTES (R65, R154). -/
def execBytes (len : BitVec 16) (s : State) : Host.Outcome State Fault Refusal :=
  serve (live (byteDataCommand none (len.toNat + 1) false)) s

/-- BYTES_WRITE (R65, R154). -/
def execBytesWrite (len : BitVec 16) (payload : List Byte) (s : State) : Host.Outcome State Fault Refusal :=
  issueWellFormed (WellFormed.bytePayload len payload)
    (byteDataCommand (some payload) (len.toNat + 1) false) s

/-- BYTES_READ (R65, R154): the answer is the bytes captured. -/
def execBytesRead (len : BitVec 16) (s : State) : Host.Outcome State Fault Refusal :=
  serve (live (byteDataCommand none (len.toNat + 1) true)) s

/-- BYTES_WRITE_READ (R65, R154). -/
def execBytesWriteRead (len : BitVec 16) (payload : List Byte) (s : State) : Host.Outcome State Fault Refusal :=
  issueWellFormed (WellFormed.bytePayload len payload)
    (byteDataCommand (some payload) (len.toNat + 1) true) s

/-- BITS (R67, R155). -/
def execBits (len : Byte) (s : State) : Host.Outcome State Fault Refusal :=
  issueWellFormed (WellFormed.bitLength len)
    (fun s => dataCommand (bitCommand s.params.opc none false (len.toNat + 1)) 1 false id s) s

/-- BITS_WRITE (R67, R155). -/
def execBitsWrite (len payload : Byte) (s : State) : Host.Outcome State Fault Refusal :=
  issueWellFormed (WellFormed.bitLength len)
    (fun s => dataCommand (bitCommand s.params.opc (some payload) false (len.toNat + 1)) 1 false id s) s

/-- BITS_READ (R67, R155): the answer's top bits are the bits captured. -/
def execBitsRead (len : Byte) (s : State) : Host.Outcome State Fault Refusal :=
  issueWellFormed (WellFormed.bitLength len)
    (fun s => dataCommand (bitCommand s.params.opc none true (len.toNat + 1)) 1 true id s) s

/-- BITS_WRITE_READ (R67, R155). -/
def execBitsWriteRead (len payload : Byte) (s : State) : Host.Outcome State Fault Refusal :=
  issueWellFormed (WellFormed.bitLength len)
    (fun s => dataCommand (bitCommand s.params.opc (some payload) true (len.toNat + 1)) 1 true id s) s

end Sys2Proof.Machine
end

