-- ==== Sys2Proof/Machine/Dispatch.lean ====
section
/-! DEFINITION. exec: one arm for each constructor of Instr. -/

namespace Sys2Proof.Machine

open Sys2Proof

def exec (i : Instr) (s : State) : Host.Outcome State Fault Refusal :=
  match i with
  | .sessionCreate => Sys2Proof.Machine.execSessionCreate s
  | .moveToState target => Sys2Proof.Machine.execMoveToState target s
  | .resetTlr => Sys2Proof.Machine.execResetTlr s
  | .pushTms bit => Sys2Proof.Machine.execPushTms bit s
  | .flush force => Sys2Proof.Machine.execFlush force s
  | .shift input output length isLast => Sys2Proof.Machine.execShift input output length isLast s
  | .shiftIr input output irlen endState => Sys2Proof.Machine.execShiftIr input output irlen endState s
  | .shiftIrByte tdi irlen endState => Sys2Proof.Machine.execShiftIrByte tdi irlen endState s
  | .shiftDr input output drlen endState => Sys2Proof.Machine.execShiftDr input output drlen endState s
  | .detectChain maxDevices => Sys2Proof.Machine.execDetectChain maxDevices s
  | .sessionRelease => Sys2Proof.Machine.execSessionRelease s
  | .reservedB => Sys2Proof.Machine.execReservedB s
  | .reservedC => Sys2Proof.Machine.execReservedC s
  | .reservedD => Sys2Proof.Machine.execReservedD s
  | .reservedE => Sys2Proof.Machine.execReservedE s
  | .reservedF => Sys2Proof.Machine.execReservedF s
  | .tms len data => Sys2Proof.Machine.execTms len data s
  | .finalBit len data => Sys2Proof.Machine.execFinalBit len data s
  | .finalBitRead len data => Sys2Proof.Machine.execFinalBitRead len data s
  | .bytes len => Sys2Proof.Machine.execBytes len s
  | .bytesWrite len payload => Sys2Proof.Machine.execBytesWrite len payload s
  | .bytesRead len => Sys2Proof.Machine.execBytesRead len s
  | .bytesWriteRead len payload => Sys2Proof.Machine.execBytesWriteRead len payload s
  | .bits len => Sys2Proof.Machine.execBits len s
  | .bitsWrite len payload => Sys2Proof.Machine.execBitsWrite len payload s
  | .bitsRead len => Sys2Proof.Machine.execBitsRead len s
  | .bitsWriteRead len payload => Sys2Proof.Machine.execBitsWriteRead len payload s

end Sys2Proof.Machine
end

