-- ==== Sys2Proof/Machine/Step.lean ====
section
/-! DEFINITION. One step: the next item of the port is taken, decoded and run (10_state.md R21, 30_encoding.md R61). -/

namespace Sys2Proof.Machine

open Sys2Proof

/-- One step. With nothing on the port the core is idle and holds its state (R244), unless a stalled primitive keeps it for
ever (R235). An item is taken off the port and run; one that is no instruction is refused by name. -/
def step (s : State) : Host.Outcome State Fault Refusal :=
  match s.port with
  | [] => if s.busy then .fault .stuck else .next s
  | item :: rest =>
    match decode s.params.opc item with
    | .ok i => exec i { s with port := rest }
    | .error e => .refused (.undecodable e)

/-- The state whose next step takes the table word's item (log 1, log 6). -/
def State.withFetchWord (s : State) (nbits w : Nat) : State := { s with port := tableItem nbits w :: s.port }

end Sys2Proof.Machine
end

