-- ==== Sys2Proof/Machine/Stream.lean ====
section
/-! DEFINITION. Observers over the trace: what crosses the transport (20_memory.md R45, R46, R57), the command stream read
back (30_encoding.md R63), and what it asks of a target's TAP (70_reset_and_hazards.md R264, R265, R275; log 20). No
instruction reads them. -/

namespace Sys2Proof.Machine

open Sys2Proof

/-- Adjacent `Send` events are one `Send` of their concatenation (R45). -/
def mergeSends : List Event → List Event
  | [] => []
  | .send a :: es => match mergeSends es with
    | .send b :: fs => .send (a ++ b) :: fs
    | fs => .send a :: fs
  | e :: es => e :: mergeSends es

/-- Is the event one of the two queries (R57)? -/
def Event.isQuery : Event → Bool
  | .bufSize _ => true
  | .product _ => true
  | .send _ => false
  | .flush _ => false
  | .read _ _ => false
  | .drain _ _ => false

/-- The trace as the spec's examples write it: queries left out, adjacent `Send` events merged (R57). -/
def shownTrace (trace : List Event) : List Event := mergeSends (trace.filter fun e => !e.isQuery)

/-- The bytes one event puts on the stream. -/
def Event.sentBytes : Event → List Byte
  | .send bs => bs
  | .flush _ => []
  | .read _ _ => []
  | .drain _ _ => []
  | .bufSize _ => []
  | .product _ => []

/-- The command stream: the bytes of all `Send` events, in order (R46, R63). -/
def streamOf (trace : List Event) : List Byte := trace.flatMap Event.sentBytes

/-- A command of the stream: its kind and the bytes after its opcode. -/
structure StreamCommand where
  kind : CommandKind
  rest : List Byte
deriving DecidableEq, Repr

/-- The commands of a stream, read from their opcode bytes alone (R63), for at most `fuel` commands; the reading ends at a
byte that is no opcode of R70. -/
def readStream (o : Opc) : Nat → List Byte → List StreamCommand
  | 0, _ => []
  | _ + 1, [] => []
  | fuel + 1, op :: rest => match CommandKind.ofOpcode o op with
    | none => []
    | some k => { kind := k, rest := rest.take (k.length rest - 1) } :: readStream o fuel (rest.drop (k.length rest - 1))

/-- The commands of a byte stream. -/
def commandsOf (o : Opc) (bytes : List Byte) : List StreamCommand := readStream o bytes.length bytes

/-- The TCK pulses of a command (R275). -/
def StreamCommand.pulses (c : StreamCommand) : Nat :=
  match c.kind with
  | .tmsLine _ => (vecByte c.rest 0).toNat + 1
  | .byteMode _ _ => 8 * ((lenField c.rest).toNat + 1)
  | .bitMode _ _ => (vecByte c.rest 0).toNat + 1

/-- The TMS levels a command clocks, first pulse first. The bits of a TMS or final-bit command are in its data byte, first
bit in bit 0 (R64, R68); a data command holds the level it finds (R265). -/
def StreamCommand.tmsLevels (c : StreamCommand) (level : Bool) : List Bool :=
  match c.kind with
  | .tmsLine _ => (List.range c.pulses).map fun i => (vecByte c.rest 1).getLsbD i
  | .byteMode _ _ => List.replicate c.pulses level
  | .bitMode _ _ => List.replicate c.pulses level

/-- What is told of a target here: its TAP's state and the level of its TMS line. -/
structure Target where
  tap   : TapState
  level : Bool
deriving DecidableEq, Repr

/-- The target after one command. -/
def Target.clock (t : Target) (c : StreamCommand) : Target :=
  { tap := walk t.tap (c.tmsLevels t.level), level := (c.tmsLevels t.level).getLastD t.level }

/-- The target after the commands of a stream. -/
def Target.run (o : Opc) (bytes : List Byte) (t : Target) : Target := (commandsOf o bytes).foldl Target.clock t

/-- The TCK pulses of a stream (R275). -/
def streamPulses (o : Opc) (bytes : List Byte) : Nat := ((commandsOf o bytes).map StreamCommand.pulses).sum

/-- The events a state's trace has beyond another's. -/
def eventsSince (before after : State) : List Event := after.trace.drop before.trace.length

end Sys2Proof.Machine
end

