-- ==== Sys2Proof/Safety.lean ====
section
/-! DEFINITION. The invariant of the machine and what counts as a clean run, in the terms the statements use. -/

namespace Sys2Proof.Machine

open Sys2Proof

/-- The parameters are legal: a capacity of at least 1 and flags that are distinct single bits (R6, R66). -/
def paramsOk (p : Params) : Bool := decide (1 ≤ p.tmsCapacity) && p.opc.wf

/-- The TMS buffer as R20 and R23 have it: an array of `TMS_CAPACITY` bits, at most that many of them valid, and every
bit from the count on 0, because a flush clears the buffer (R133). -/
def bufferOk (s : State) : Bool :=
  decide (s.sess.tmsBuf.length = s.params.tmsCapacity) && decide (s.sess.tmsCount ≤ s.params.tmsCapacity)
    && (s.sess.tmsBuf.drop s.sess.tmsCount).all (fun b => !b)

/-- The invariant: legal parameters, a legal buffer, and the caller's memory in its canonical form. -/
def StateInv (s : State) : Bool := paramsOk s.params && bufferOk s && Memory.wf s.mem

/-- The port can take a request: none is in progress and the session is Live. -/
def Ready (s : State) : Bool := decide (s.busy = false) && decide (s.sess.life = .live)

/-- Nothing wrong is recorded: the premise R25 gives a claim. -/
def Clean (s : State) : Bool :=
  decide (s.sess.fault = false) && decide (s.sess.refused = false) && decide (s.warnings = [])

/-- Every answer the transport has to give is full: it never answers short and never stalls (R47, R232, R235). -/
def Cooperative (t : Transport) : Bool :=
  t.script.all (fun a => match a with
    | .full _ => true
    | .short _ => false
    | .stall => false)
  && (match t.steady with
    | .full _ => true
    | .short _ => false
    | .stall => false)

/-- Every buffer size the transport has to give is one the core takes (R152). -/
def SizesOk (t : Transport) : Bool := t.bufSizes.all bufSizeOk && bufSizeOk t.bufSize

/-- Does every `Read` and `Drain` come right after a `Flush` (R48)? `last` says whether the event before was a `Flush`. -/
def readsFollow : Bool → List Event → Bool
  | _, [] => true
  | _, .send _ :: es => readsFollow false es
  | _, .flush _ :: es => readsFollow true es
  | last, .read _ _ :: es => last && readsFollow false es
  | last, .drain _ _ :: es => last && readsFollow false es
  | _, .bufSize _ :: es => readsFollow false es
  | _, .product _ :: es => readsFollow false es

/-- Is the transport free of stalls (R235)? -/
def NeverStalls (t : Transport) : Bool :=
  t.script.all (fun a => decide (a ≠ .stall)) && decide (t.steady ≠ .stall)

/-- The TMS levels a trace's commands clock, the line being low before (R264). -/
def streamTms (o : Opc) (es : List Event) : List Bool :=
  (commandsOf o (streamOf es)).flatMap fun c => c.tmsLevels false

/-- Is this event a primitive that never answered (R235)? -/
def Event.stalled : Event → Bool
  | .flush .stall => true
  | .read _ .stall => true
  | .drain _ .stall => true
  | _ => false

/-- Is this event a primitive that answered short (R232)? -/
def Event.cutShort : Event → Bool
  | .flush (.short _) => true
  | .read _ (.short _) => true
  | .drain _ (.short _) => true
  | _ => false

/-- From `s` to `t`, TMS commands of the TMS bits `bits` went out and the closing `Flush` was answered `short n`: where fewer
bytes were written than are queued it is a TransportError with its record and `S.fault`, else the request completed (R232;
what counts as asked is log 13). -/
def ClosesOnShort (bits : List Bool) (n : Nat) (s t : State) : Prop :=
  ∃ cmds : List (List Byte), streamTms s.params.opc (cmds.map Event.send) = bits ∧
    (n < (queued s.trace ++ cmds.flatten).length →
      t.response = some (.error (.transport .flush (queued s.trace ++ cmds.flatten).length n)) ∧ t.sess.fault = true ∧
        t.trace = s.trace ++ cmds.map Event.send ++ [.flush (.short n)]) ∧
    ((queued s.trace ++ cmds.flatten).length ≤ n →
      t.response = some (.result .none) ∧ t.sess.fault = s.sess.fault ∧
        t.trace = s.trace ++ cmds.map Event.send ++ [.flush (.full [])])

/-! ### What a shift is made of, in closed form -/

/-- The conditions of checks 2 to 5 of R150 on a live session. -/
def ShiftChecked (s : State) (input : Option VecArg) (output : Option Nat) (len : Nat) (isLast : Bool) : Prop :=
  (len ≠ 0 ∨ isLast = false) ∧ (s.sess.tap = .shiftDr ∨ s.sess.tap = .shiftIr) ∧
    (∀ v, s.input input = some v → (len + 7) / 8 ≤ v.length) ∧
    (∀ v, s.output output = some v → (len + 7) / 8 ≤ v.length) ∧
    (∀ n, input = some (.buffer n) → output ≠ some n)

/-- The conditions under which R150 and R152 admit a shift on a live session. -/
def ShiftAdmitted (s : State) (input : Option VecArg) (output : Option Nat) (len : Nat) (isLast : Bool) : Prop :=
  ShiftChecked s input output len isLast ∧ 4 ≤ bufSizeNow s ∧ bufSizeNow s ≤ 65539

/-- The size of the `j`-th chunk of `total` bytes in chunks of at most `xfer` (R154). -/
def chunkSize (total xfer j : Nat) : Nat := min xfer (total - j * xfer)

/-- How many chunks there are: `ceil(total / xfer)` (R154). -/
def chunkCount (total xfer : Nat) : Nat := (total + xfer - 1) / xfer

/-- The data commands of a shift in order, each with the number of bytes it returns (R154 to R156, R158). -/
def shiftPlan (o : Opc) (inp : Option (List Byte)) (read : Bool) (len : Nat) (isLast : Bool) (xfer : Nat) :
    List (List Byte × Nat) :=
  let nb := nbByte len isLast
  let nr := nbBit len isLast
  ((List.range (chunkCount nb xfer)).map fun j =>
      (byteCommand o (inp.map fun v => memRead v (j * xfer) (chunkSize nb xfer j)) read (chunkSize nb xfer j),
        chunkSize nb xfer j))
    ++ (if nr = 0 then [] else [(bitCommand o (inp.map fun v => vecByte v nb) read nr, 1)])
    ++ (if isLast then [(finalCommand o read ((inp.map fun v => vecBit v (effLength len isLast)).getD false), 1)] else [])

/-- The events of a data command with no output: a drain follows where the quirk flag is set (R158). -/
def writeEvents (quirk : Bool) (c : List Byte × Nat) : List Event :=
  .send c.1 :: if quirk then [.flush (.full []), .drain c.2 (.full [])] else []

/-- The events that open a data phase: the packer's pending bits, then the forced flush (R52, R133, R160). -/
def openingEvents (s : State) : List Event :=
  if s.sess.tmsCount = 0 then []
  else (tmsCommands s.params.opc s.pending).map Event.send ++ [.flush (flushAnswer (sendPending s))]

/-- The transport's answers to one `Flush` and `Read` for each list of bytes. -/
def readScript (answers : List (List Byte)) : List Answer := answers.flatMap fun bs => [.full [], .full bs]

/-- The answers of one 32-bit window that captures the word `w`, with chunks of at most `xfer` bytes: four whole bytes, or
three, seven bits and the final bit when it is the last (R154 to R156, R191). -/
def windowAnswers (xfer : Nat) (w : Word32) (isLast : Bool) : List (List Byte) :=
  let v : List Byte := [w.extractLsb' 0 8, w.extractLsb' 8 8, w.extractLsb' 16 8, w.extractLsb' 24 8]
  let nb := nbByte Config.idcodeWidth isLast
  ((List.range (chunkCount nb xfer)).map fun j => memRead v (j * xfer) (chunkSize nb xfer j))
    ++ (if isLast then [[vecByte v 3 <<< 1], [vecByte v 3 &&& 0x80]] else [])

/-- The answers of the windows that capture these words, each with the buffer size it is given; the last one leaves the
shift state (R191). -/
def windowsAnswers : List (Word32 × Nat) → List (List Byte)
  | [] => []
  | [(w, b)] => windowAnswers (b - 3) w true
  | (w, b) :: p :: ps => windowAnswers (b - 3) w false ++ windowsAnswers (p :: ps)

/-! ### Kinds of instruction -/

/-- The bytes of a command on the stream. -/
def commandBytes (o : Opc) (i : Instr) : List Byte :=
  match encode o i with
  | .command _ bs => bs
  | .request _ _ => []

/-- How many bytes a command returns (R158): none for a TMS command and for a request. -/
def responseBytes : Instr → Nat
  | .bytes len => len.toNat + 1
  | .bytesWrite len _ => len.toNat + 1
  | .bytesRead len => len.toNat + 1
  | .bytesWriteRead len _ => len.toNat + 1
  | .bits _ => 1
  | .bitsWrite _ _ => 1
  | .bitsRead _ => 1
  | .bitsWriteRead _ _ => 1
  | .finalBit _ _ => 1
  | .finalBitRead _ _ => 1
  | _ => 0

/-- The data commands that do not read. -/
def isWriteCommand : Instr → Bool
  | .bytes _ => true
  | .bytesWrite _ _ => true
  | .bits _ => true
  | .bitsWrite _ _ => true
  | .finalBit _ _ => true
  | _ => false

/-- The data commands that read. -/
def isReadCommand : Instr → Bool
  | .bytesRead _ => true
  | .bytesWriteRead _ _ => true
  | .bitsRead _ => true
  | .bitsWriteRead _ _ => true
  | .finalBitRead _ _ => true
  | _ => false

/-- The byte-mode commands, whose size the transport's buffer bounds (R65). -/
def isByteCommand : Instr → Bool
  | .bytes _ => true
  | .bytesWrite _ _ => true
  | .bytesRead _ => true
  | .bytesWriteRead _ _ => true
  | _ => false

/-- A byte-mode command is one the core emits under the buffer size it is given: `1 ≤ n ≤ min(B - 3, 65536)` (R65, R152). -/
def FitsBuffer (i : Instr) (s : State) : Prop :=
  isByteCommand i = true → 4 ≤ bufSizeNow s ∧ bufSizeNow s ≤ 65539 ∧ responseBytes i ≤ bufSizeNow s - 3

/-- The query a byte-mode command makes first (R152; log 5). -/
def sizeQuery (i : Instr) (s : State) : List Event := if isByteCommand i then [.bufSize (bufSizeNow s)] else []

/-- The two final-bit commands, which leave the shift state (R157). -/
def isFinalCommand : Instr → Bool
  | .finalBit _ _ => true
  | .finalBitRead _ _ => true
  | _ => false

/-- The named vector a request may write, and the length in bits it shifts. -/
def outputOf : Instr → Option (Nat × Nat)
  | .shift _ output len _ => output.map fun n => (n, len)
  | .shiftIr _ output len _ => output.map fun n => (n, len)
  | .shiftDr _ output len _ => output.map fun n => (n, len)
  | _ => none

end Sys2Proof.Machine
end

