-- ==== Sys2Proof/Certificates/Slice0/Obligations.lean ====
section
/-! DEFINITION. The statements for the provers; OBLIGATIONS.json says which rules of the spec each rests on. -/

open Sys2Proof Sys2Proof.Machine

/-! ### Encodings -/

/-- Decoding gives back every well-formed instruction, every operand at every value its encoding admits (R62 to R69). -/
def Obligations.DecodeEncodeRoundTrip : Prop :=
  ∀ (o : Opc) (i : Instr), o.wf = true → i.wf = true → decode o (encode o i) = .ok i

/-- Encoding gives back the bytes and the issuer of every command the decoder takes: no bit of a command is dropped (R63). -/
def Obligations.EncodeGivesBackDecodedCommand : Prop :=
  ∀ (o : Opc) (iss : Issuer) (bs : List Byte) (i : Instr),
    decode o (.command iss bs) = .ok i → encode o i = .command iss bs

/-- Items written out from R62, R64, R65, R67 and R68 decode to what they stand for. -/
def Obligations.WrittenOutItemsDecode : Prop :=
  decode Opc.default (.request 0x1 [.state 4]) = .ok (.moveToState .shiftDr) ∧
  decode Opc.default (.request 0x5 [.bytes [0x05], .buffer 3, .nat 3, .bit false])
    = .ok (.shift (some (.bytes [0x05])) (some 3) 3 false) ∧
  decode Opc.default (.request 0x6 [.bytes [0x01], .absent, .nat 1])
    = .ok (.shiftIr (some (.bytes [0x01])) none 1 .runTestIdle) ∧
  decode Opc.default (.command .packer [0x4B, 0x05, 0xBF]) = .ok (.tms 0x05 0xBF) ∧
  decode Opc.default (.command .shifter [0x4B, 0x00, 0x81]) = .ok (.finalBit 0x00 0x81) ∧
  decode Opc.default (.command .shifter [0x39, 0x01, 0x00, 0xA5, 0xE1]) = .ok (.bytesWriteRead 1 [0xA5, 0xE1]) ∧
  decode Opc.default (.command .shifter [0x3B, 0x06, 0x12]) = .ok (.bitsWriteRead 0x06 0x12)

/-- Whatever request or command runs, each `Send` it makes carries one whole command with the fields R64 to R71 give it;
the release's self-test bytes are the one exception (R63, R214). -/
def Obligations.EverySendIsOneWellFormedCommand : Prop :=
  ∀ (i : Instr) (s t : State) (bs : List Byte), i ≠ .sessionRelease → exec i s = .next t →
    .send bs ∈ eventsSince s t →
    ∃ (iss : Issuer) (c : Instr), c.wf = true ∧ encode s.params.opc c = .command iss bs

/-! ### The TAP graph and its walker -/

/-- The path of R103 and R107 reaches its target, no bit sequence that reaches it is shorter, and none of the same length
is another: the first edge of the shortest path is unique, and `nextTms` is its bit. -/
def Obligations.NextHopIsTheUniqueShortestPath : Prop :=
  ∀ (c t : TapState), c ≠ t →
    walk c (path c t) = t ∧ (path c t).head? = some (nextTms c t) ∧
      ∀ bits : List Bool, walk c bits = t →
        (path c t).length ≤ bits.length ∧ (bits.length = (path c t).length → bits = path c t)

/-- R102: an edge is a self-loop exactly where `selfTms` names its bit, and six states have one. -/
def Obligations.SelfLoopsAreThoseOfSelfTms : Prop :=
  (∀ (t : TapState) (b : Bool), delta t b = t ↔ selfTms t = some b) ∧
  (∀ t : TapState, (selfTms t).isSome = true ↔
    t ∈ ([.testLogicReset, .runTestIdle, .shiftDr, .pauseDr, .shiftIr, .pauseIr] : List TapState)) ∧
  selfTms .testLogicReset = some true ∧ selfTms .runTestIdle = some false ∧ selfTms .shiftDr = some false ∧
  selfTms .pauseDr = some false ∧ selfTms .shiftIr = some false ∧ selfTms .pauseIr = some false

/-- R105: MOVE_TO_STATE completes when the transport's next answer is full. `S.tap` is then the target, the buffer is empty,
and the TMS bits on the stream are the pending ones and then the path; a `Flush` ends what was sent. -/
def Obligations.MoveToStateReachesTarget : Prop :=
  ∀ (s : State) (target : TapState) (d : List Byte), StateInv s = true → Ready s = true → s.tx.answer = .full d →
    ∃ (t : State) (es : List Event), exec (.moveToState target) s = .next t ∧
      t.sess.tap = target ∧ t.sess.tmsCount = 0 ∧ t.sess.fault = s.sess.fault ∧ t.sess.refused = s.sess.refused ∧
      t.response = some (.result .none) ∧ t.trace = s.trace ++ es ∧
      streamTms s.params.opc es = s.pending ++ path s.sess.tap target ∧
      (es = [] ∨ es.getLast? = some (.flush (.full [])))

/-- R105, R133, R134: with room in the buffer, MOVE_TO_STATE's events are the commands of the pending bits and the path,
six bits at most in each, and one `Flush`; no event at all where there is no bit. -/
def Obligations.MoveToStateEvents : Prop :=
  ∀ (s : State) (target : TapState) (d : List Byte), StateInv s = true → Ready s = true → s.tx.answer = .full d →
    s.sess.tmsCount + (path s.sess.tap target).length ≤ s.params.tmsCapacity →
    ∃ t : State, exec (.moveToState target) s = .next t ∧
      t.trace = s.trace ++
        (if s.pending ++ path s.sess.tap target = [] then []
         else (tmsCommands s.params.opc (s.pending ++ path s.sess.tap target)).map Event.send ++ [.flush (.full [])])

/-- R105, R232: when MOVE_TO_STATE's closing `Flush` writes `n` bytes, fewer than are queued, it ends with TransportError, which
records the two counts, and `S.fault`; the pending bits and the path went out before, `S.tap` is already the target and the
buffer is empty. Where `n` is no fewer, it completes (what counts as asked is log 13). -/
def Obligations.MoveToStateShortFlush : Prop :=
  ∀ (s : State) (target : TapState) (n : Nat), StateInv s = true → Ready s = true → s.tx.answer = .short n →
    s.pending ++ path s.sess.tap target ≠ [] →
    ∃ t : State, exec (.moveToState target) s = .next t ∧ ClosesOnShort (s.pending ++ path s.sess.tap target) n s t ∧
      t.sess.tap = target ∧ t.sess.tmsCount = 0 ∧ t.sess.refused = s.sess.refused

/-- R106: RESET_TLR completes when the transport's next answer is full. The stream's TMS bits are the pending ones and then
six ones; `S.tap` is TEST_LOGIC_RESET whatever it was, and the buffer is empty. When its closing `Flush` writes `n` bytes,
fewer than are queued, it ends with TransportError and `S.fault` after the same bits, `S.tap` and the buffer as before (R232;
what counts as asked is log 13). -/
def Obligations.ResetTlrReachesTestLogicReset : Prop :=
  (∀ (s : State) (d : List Byte), StateInv s = true → Ready s = true → s.tx.answer = .full d →
    ∃ (t : State) (es : List Event), exec .resetTlr s = .next t ∧
      t.sess.tap = .testLogicReset ∧ t.sess.tmsCount = 0 ∧ t.sess.fault = s.sess.fault ∧
      t.sess.refused = s.sess.refused ∧ t.response = some (.result .none) ∧ t.trace = s.trace ++ es ∧
      streamTms s.params.opc es = s.pending ++ [true, true, true, true, true, true] ∧
      es.getLast? = some (.flush (.full []))) ∧
  ∀ (s : State) (n : Nat), StateInv s = true → Ready s = true → s.tx.answer = .short n →
    ∃ t : State, exec .resetTlr s = .next t ∧
      ClosesOnShort (s.pending ++ [true, true, true, true, true, true]) n s t ∧
      t.sess.tap = .testLogicReset ∧ t.sess.tmsCount = 0 ∧ t.sess.refused = s.sess.refused

/-- R261, R264: whatever state a target's TAP is in and whatever bits were pending, the commands RESET_TLR sends take it to
TEST_LOGIC_RESET, which is what the core then tracks (how a target clocks the stream is the observers', log 20). -/
def Obligations.ResetTlrResynchronisesEveryTarget : Prop :=
  ∀ (s : State) (d : List Byte) (target : Target), StateInv s = true → Ready s = true → s.tx.answer = .full d →
    ∃ t : State, exec .resetTlr s = .next t ∧
      (target.run s.params.opc (streamOf (eventsSince s t))).tap = t.sess.tap

/-- R22, R264, R265: with no pending bits, MOVE_TO_STATE takes a target that is in the tracked state to the state the core
then tracks; after a move to a shift state the TMS line is low (how a target clocks the stream is the observers', log 20). -/
def Obligations.MoveToStateKeepsTargetInStep : Prop :=
  ∀ (s : State) (d : List Byte) (dest : TapState) (target : Target), StateInv s = true → Ready s = true →
    s.tx.answer = .full d → s.sess.tmsCount = 0 → target.tap = s.sess.tap →
    ∃ t : State, exec (.moveToState dest) s = .next t ∧
      (target.run s.params.opc (streamOf (eventsSince s t))).tap = t.sess.tap ∧
      (dest = .shiftDr ∨ dest = .shiftIr →
        (target.run s.params.opc (streamOf (eventsSince s t))).level = false)

/-! ### The packer -/

/-- R131: with room in the buffer PUSH_TMS writes the bit at the count and adds one to it; no event, and `S.tap` stays. -/
def Obligations.PushTmsAppendsOneBit : Prop :=
  ∀ (s : State) (b : Bool), StateInv s = true → Ready s = true → s.sess.tmsCount < s.params.tmsCapacity →
    ∃ t : State, exec (.pushTms b) s = .next t ∧
      t = { s with sess := { s.sess with tmsBuf := s.sess.tmsBuf.set s.sess.tmsCount b, tmsCount := s.sess.tmsCount + 1 },
                   response := some (.result .none) } ∧
      t.pending = s.pending ++ [b]

/-- R132: when the buffer is full PUSH_TMS first sends all of it, with no `Flush`, and then holds the one new bit. -/
def Obligations.PushTmsAutoFlushesAFullBuffer : Prop :=
  ∀ (s : State) (b : Bool), StateInv s = true → Ready s = true → s.sess.tmsCount = s.params.tmsCapacity →
    ∃ t : State, exec (.pushTms b) s = .next t ∧ t.pending = [b] ∧ t.sess.tmsCount = 1 ∧ t.sess.tap = s.sess.tap ∧
      t.trace = s.trace ++ (tmsCommands s.params.opc s.pending).map Event.send ∧
      t.response = some (.result .none)

/-- R133, D6: FLUSH of an empty buffer answers 0 and does nothing else, forced or not. -/
def Obligations.FlushOfEmptyBufferAnswersZero : Prop :=
  ∀ (s : State) (force : Bool), Ready s = true → s.sess.tmsCount = 0 →
    exec (.flush force) s = .next { s with response := some (.result (.nat 0)) }

/-- R133: FLUSH of pending bits sends them, forces the transport only when asked, empties the buffer and answers their
number. Unforced it asks the transport nothing, so it completes whatever the next answer is; forced, when that is full. -/
def Obligations.FlushSendsEveryPendingBit : Prop :=
  ∀ (s : State) (force : Bool), StateInv s = true → Ready s = true → s.sess.tmsCount ≠ 0 →
    (force = true → ∃ d, s.tx.answer = .full d) →
    ∃ t : State, exec (.flush force) s = .next t ∧
      t.trace = s.trace ++ (tmsCommands s.params.opc s.pending).map Event.send
        ++ (if force then [.flush (.full [])] else []) ∧
      streamTms s.params.opc (eventsSince s t) = s.pending ∧
      t.sess.tmsCount = 0 ∧ t.sess.tmsBuf = List.replicate s.params.tmsCapacity false ∧ t.sess.tap = s.sess.tap ∧
      t.sess.fault = s.sess.fault ∧ t.response = some (.result (.nat s.sess.tmsCount))

/-- R133, R232: a forced FLUSH whose `Flush` writes fewer bytes than are queued ends with TransportError, which records the
two counts, and sets `S.fault`; the buffer is empty by then (what counts as asked is log 13). -/
def Obligations.FlushShortRaisesTransportError : Prop :=
  ∀ (s : State) (n : Nat), StateInv s = true → Ready s = true → s.sess.tmsCount ≠ 0 → s.tx.answer = .short n →
    n < (queued s.trace ++ (tmsCommands s.params.opc s.pending).flatten).length →
    ∃ t : State, exec (.flush true) s = .next t ∧
      t.response = some (.error (.transport .flush
        (queued s.trace ++ (tmsCommands s.params.opc s.pending).flatten).length n)) ∧
      t.sess.fault = true ∧ t.sess.tmsCount = 0 ∧ t.sess.tap = s.sess.tap ∧ t.sess.refused = s.sess.refused ∧
      t.trace = s.trace ++ (tmsCommands s.params.opc s.pending).map Event.send ++ [.flush (.short n)]

/-- R133, R134: the chunks of a flush are the pending bits in order, none empty, every one but the last of six bits and the
last of at most six. -/
def Obligations.FlushChunksAreSixBitsButTheLast : Prop :=
  ∀ bits : List Bool,
    (chunks bits.length bits).flatten = bits ∧
    (∀ c ∈ chunks bits.length bits, 1 ≤ c.length ∧ c.length ≤ 6) ∧
    (∀ c ∈ (chunks bits.length bits).dropLast, c.length = 6) ∧
    (chunks bits.length bits).length = (bits.length + 5) / 6

/-- R64, R71, R134: the TMS command of 1 to 6 bits: the opcode, the number of bits less one, and a data byte with the first
bit in bit 0, zeros above the bits up to bit 6, and bit 7 one. -/
def Obligations.TmsCommandLayout : Prop :=
  ∀ (o : Opc) (bits : List Bool), 1 ≤ bits.length → bits.length ≤ 6 →
    ∃ d : Byte, tmsCommand o bits =
        [o.writeTms ||| o.lsb ||| o.bitmode ||| o.writeNeg, BitVec.ofNat 8 (bits.length - 1), d] ∧
      (∀ i : Nat, i < bits.length → bits[i]? = some (d.getLsbD i)) ∧
      (∀ i : Nat, bits.length ≤ i → i ≤ 6 → d.getLsbD i = false) ∧ d.getLsbD 7 = true

/-- The frame of MOVE_TO_STATE, RESET_TLR, PUSH_TMS and FLUSH on a live session, however they end: the caller's vectors, the
parameters, the port, the warnings, `S.life`, `S.quirk` and `S.refused` stay; PUSH_TMS and FLUSH leave `S.tap`. -/
def Obligations.PackerRequestsFrame : Prop :=
  ∀ (i : Instr) (s t : State), Ready s = true →
    (∃ target, i = .moveToState target) ∨ i = .resetTlr ∨ (∃ b, i = .pushTms b) ∨ (∃ f, i = .flush f) →
    exec i s = .next t →
      (∀ name k, t.readByte name k = s.readByte name k) ∧ t.mem = s.mem ∧ t.params = s.params ∧ t.port = s.port ∧
      t.warnings = s.warnings ∧ t.sess.life = s.sess.life ∧ t.sess.quirk = s.sess.quirk ∧
      t.sess.refused = s.sess.refused ∧
      ((∃ b, i = .pushTms b) ∨ (∃ f, i = .flush f) → t.sess.tap = s.sess.tap)

/-! ### The shifter -/

/-- R150 (checks 2 to 5, in their order) and R27: what a shift is refused for on a live session; a refusal sets `S.refused`
and changes nothing else but the answer. -/
def Obligations.ShiftRefusalsInOrder : Prop :=
  ∀ (s : State) (input : Option VecArg) (output : Option Nat) (len : Nat) (isLast : Bool), Ready s = true →
    let refusedWith (r : Reason) : Prop := exec (.shift input output len isLast) s =
      .next { s with sess := { s.sess with refused := true }, response := some (.refused r) }
    let short (v : Option (List Byte)) : Prop := ∃ bs, v = some bs ∧ bs.length < (len + 7) / 8
    let inShift : Prop := s.sess.tap = .shiftDr ∨ s.sess.tap = .shiftIr
    (len = 0 ∧ isLast = true → refusedWith .zeroLengthLast) ∧
    (¬(len = 0 ∧ isLast = true) → ¬inShift → refusedWith .notInShiftState) ∧
    (¬(len = 0 ∧ isLast = true) → inShift → (short (s.input input) ∨ short (s.output output)) →
      refusedWith .shortVector) ∧
    (¬(len = 0 ∧ isLast = true) → inShift → ¬(short (s.input input) ∨ short (s.output output)) →
      (∃ n, input = some (.buffer n) ∧ output = some n) → refusedWith .aliasedVectors)

/-- R150 (check 6), R152, R27: a buffer size outside 4 to 65539 is refused; the `BufSize` query stays in the trace, the
pending bits stay pending and nothing else changes. -/
def Obligations.ShiftBufferSizeRefusal : Prop :=
  ∀ (s : State) (input : Option VecArg) (output : Option Nat) (len : Nat) (isLast : Bool),
    Ready s = true → ShiftChecked s input output len isLast → (bufSizeNow s < 4 ∨ 65539 < bufSizeNow s) →
    exec (.shift input output len isLast) s =
      .next { s with sess := { s.sess with refused := true }, trace := s.trace ++ [.bufSize (bufSizeNow s)],
                     tx := { s.tx with bufSizes := s.tx.bufSizes.tail },
                     response := some (.refused .bufferSizeOutOfRange) }

/-- R157, R160: an admitted SHIFT completes when every answer of the transport is full, for every form of its operands and
either value of the quirk flag. A last shift leaves to EXIT1, any other stays. -/
def Obligations.ShiftCompletes : Prop :=
  ∀ (s : State) (input : Option VecArg) (output : Option Nat) (len : Nat) (isLast : Bool),
    Ready s = true → Cooperative s.tx = true → ShiftAdmitted s input output len isLast →
    ∃ t : State, exec (.shift input output len isLast) s = .next t ∧ t.response = some (.result .none) ∧
      t.sess.tap = (if isLast then (if s.sess.tap = .shiftDr then .exit1Dr else .exit1Ir) else s.sess.tap) ∧
      t.sess.tmsCount = 0 ∧ t.sess.fault = s.sess.fault ∧ t.sess.refused = s.sess.refused

/-- R52, R263: however a SHIFT ends, the query, the packer's pending bits and the forced flush come before every data
command; where that flush is not full, nothing comes after it. -/
def Obligations.ShiftFlushesPackerFirst : Prop :=
  ∀ (s t : State) (input : Option VecArg) (output : Option Nat) (len : Nat) (isLast : Bool),
    Ready s = true → ShiftAdmitted s input output len isLast → exec (.shift input output len isLast) s = .next t →
    ∃ es : List Event, t.trace = s.trace ++ [.bufSize (bufSizeNow s)] ++ openingEvents (bufSizeAsked s) ++ es ∧
      (∀ bs, .send bs ∈ es → ∃ c : Instr, c.wf = true ∧ encode s.params.opc c = .command .shifter bs) ∧
      (s.sess.tmsCount ≠ 0 → flushAnswer (sendPending (bufSizeAsked s)) ≠ .full [] → es = [])

/-- R151 to R158, R160: the whole trace of a SHIFT with no output. The commands are those of the plan: chunks of at most
`B - 3` bytes, then the residual bits, then the final bit; with the quirk flag each is followed by a flush and a drain of
the bytes it returns. -/
def Obligations.ShiftWithoutOutputTrace : Prop :=
  ∀ (s : State) (input : Option VecArg) (len : Nat) (isLast : Bool),
    Ready s = true → Cooperative s.tx = true → ShiftAdmitted s input none len isLast →
    ∃ t : State, exec (.shift input none len isLast) s = .next t ∧
      t.trace = s.trace ++ [.bufSize (bufSizeNow s)] ++ openingEvents (bufSizeAsked s)
        ++ (shiftPlan s.params.opc (s.input input) false len isLast (bufSizeNow s - 3)).flatMap
            (writeEvents s.sess.quirk) ∧
      t.mem = s.mem

/-- R154 to R156, R158: the trace of a SHIFT with an output. The commands are those of the plan with the read flag, and each
is followed by a flush and a read of the bytes it returns, before the next is sent. -/
def Obligations.ShiftWithOutputTrace : Prop :=
  ∀ (s : State) (input : Option VecArg) (name : Nat) (len : Nat) (isLast : Bool),
    Ready s = true → Cooperative s.tx = true → ShiftAdmitted s input (some name) len isLast →
    ∃ (t : State) (answers : List (List Byte)), exec (.shift input (some name) len isLast) s = .next t ∧
      answers.map List.length
        = (shiftPlan s.params.opc (s.input input) true len isLast (bufSizeNow s - 3)).map Prod.snd ∧
      t.trace = s.trace ++ [.bufSize (bufSizeNow s)] ++ openingEvents (bufSizeAsked s)
        ++ ((shiftPlan s.params.opc (s.input input) true len isLast (bufSizeNow s - 3)).zip answers).flatMap
            fun c => [.send c.1.1, .flush (.full []), .read c.1.2 (.full c.2)]

/-- R159: what a SHIFT leaves in its output vector, bit by bit, for any bytes the target answers: the chunks' bytes `cap`, the
residual byte `r` and the final byte `f`. The final bit is OR'd in; where no residual byte was written under it, the
caller's bits of that byte stay. Every other byte stays. -/
def Obligations.ShiftCapturesIntoOutput : Prop :=
  ∀ (s : State) (input : Option VecArg) (name len : Nat) (isLast : Bool) (cap : List (List Byte)) (r f : Byte)
    (more : List Answer),
    StateInv s = true → Ready s = true → ShiftAdmitted s input (some name) len isLast →
    cap.map List.length = (List.range (chunkCount (nbByte len isLast) (bufSizeNow s - 3))).map
      (chunkSize (nbByte len isLast) (bufSizeNow s - 3)) →
    s.tx.script = (if s.sess.tmsCount = 0 then [] else [.full []])
      ++ readScript (cap ++ (if nbBit len isLast = 0 then [] else [[r]]) ++ (if isLast then [[f]] else [])) ++ more →
    ∃ t : State, exec (.shift input (some name) len isLast) s = .next t ∧
      (t.mem.get name).length = (s.mem.get name).length ∧
      ∀ i : Nat, vecBit (t.mem.get name) i =
        if i < 8 * nbByte len isLast then vecBit cap.flatten i
        else if i < effLength len isLast then r.getLsbD (8 - nbBit len isLast + (i - 8 * nbByte len isLast))
        else if i = effLength len isLast ∧ isLast = true then
          (f.getLsbD 7 || (decide (nbBit len isLast = 0) && vecBit (s.mem.get name) i))
        else if nbBit len isLast ≠ 0 ∧ i < 8 * nbByte len isLast + 8 then false
        else vecBit (s.mem.get name) i

/-- The source's round trip for every length (95_test_vectors.md E2; R155, R156, R159): when the target echoes every bit and the
output vector was zero in the bits shifted, SHIFT leaves in it exactly the input's bits. -/
def Obligations.ShiftLoopbackReturnsTheInput : Prop :=
  ∀ (s : State) (inp : List Byte) (name len : Nat) (isLast : Bool) (more : List Answer),
    StateInv s = true → Ready s = true → ShiftAdmitted s (some (.bytes inp)) (some name) len isLast →
    (∀ i : Nat, i < len → vecBit (s.mem.get name) i = false) →
    s.tx.script = (if s.sess.tmsCount = 0 then [] else [.full []])
      ++ readScript
        (((List.range (chunkCount (nbByte len isLast) (bufSizeNow s - 3))).map fun j =>
            memRead inp (j * (bufSizeNow s - 3)) (chunkSize (nbByte len isLast) (bufSizeNow s - 3) j))
          ++ (if nbBit len isLast = 0 then []
              else [[vecByte inp (nbByte len isLast) <<< (8 - nbBit len isLast)]])
          ++ (if isLast then [[if vecBit inp (len - 1) then 0x80 else 0x00]] else [])) ++ more →
    ∃ t : State, exec (.shift (some (.bytes inp)) (some name) len isLast) s = .next t ∧
      ∀ i : Nat, i < len → vecBit (t.mem.get name) i = vecBit inp i

/-- R160, R232: a SHIFT that ends with an error has set `S.fault` and has not moved `S.tap`, because the final-bit phase had not
completed; its last event is the short answer. -/
def Obligations.ShiftErrorLeavesTap : Prop :=
  ∀ (s t : State) (input : Option VecArg) (output : Option Nat) (len : Nat) (isLast : Bool) (e : Error),
    Ready s = true → exec (.shift input output len isLast) s = .next t → t.response = some (.error e) →
    t.sess.tap = s.sess.tap ∧ t.sess.fault = true ∧
      ∃ (p : Primitive) (asked n : Nat), e = .transport p asked n ∧ n < asked ∧
        (t.trace.getLast? = some (.flush (.short n)) ∨ t.trace.getLast? = some (.read asked (.short n)) ∨
          t.trace.getLast? = some (.drain asked (.short n)))

/-- R160, R232: when the read of a data command of a SHIFT answers short, the first or a later one, the bytes `answers` that the
earlier reads `before` it gave stay in the output as R154 and R155 write them, the short read writes nothing, no later event
is issued, `S.fault` is set and `S.tap` stays. -/
def Obligations.ShiftShortReadIsDiscarded : Prop :=
  ∀ (s : State) (input : Option VecArg) (name len : Nat) (isLast : Bool) (before : List (List Byte × Nat))
    (cmd : List Byte) (n k : Nat) (d : List Byte) (rest : List (List Byte × Nat)) (answers : List (List Byte))
    (more : List Answer),
    StateInv s = true → Ready s = true → ShiftAdmitted s input (some name) len isLast →
    shiftPlan s.params.opc (s.input input) true len isLast (bufSizeNow s - 3) = before ++ (cmd, n) :: rest →
    answers.map List.length = before.map Prod.snd → k < n →
    s.tx.script = (if s.sess.tmsCount = 0 then [] else [.full []]) ++ readScript answers ++ [.full d, .short k] ++ more →
    ∃ t : State, exec (.shift input (some name) len isLast) s = .next t ∧
      t.trace = s.trace ++ [.bufSize (bufSizeNow s)] ++ openingEvents (bufSizeAsked s)
        ++ (before.zip answers).flatMap (fun c => [.send c.1.1, .flush (.full []), .read c.1.2 (.full c.2)])
        ++ [.send cmd, .flush (.full []), .read n (.short k)] ∧
      t.sess = { s.sess with tmsBuf := List.replicate s.params.tmsCapacity false, tmsCount := 0, fault := true } ∧
      t.response = some (.error (.transport .read n k)) ∧ (answers = [] → t.mem = s.mem) ∧
      (∀ other, other ≠ name → t.mem.get other = s.mem.get other) ∧
      (t.mem.get name).length = (s.mem.get name).length ∧
      ∀ j : Nat, vecByte (t.mem.get name) j =
        if answers.flatten.length ≤ j then vecByte (s.mem.get name) j
        else if j < nbByte len isLast then vecByte answers.flatten j
        else realign (vecByte answers.flatten j) (nbBit len isLast)

/-- The frame of SHIFT, SHIFT_IR, SHIFT_IR_BYTE, SHIFT_DR and DETECT_CHAIN on a live session, however they end: of the caller's
vectors only the bytes of the output that the length covers may differ, none for the two requests with no output; the
parameters, the port, the warnings, `S.life` and `S.quirk` stay. -/
def Obligations.ShiftRequestsFrame : Prop :=
  ∀ (i : Instr) (s t : State), StateInv s = true → Ready s = true →
    (∃ a b n l, i = .shift a b n l) ∨ (∃ a b n e, i = .shiftIr a b n e) ∨ (∃ a n e, i = .shiftIrByte a n e) ∨
      (∃ a b n e, i = .shiftDr a b n e) ∨ (∃ m, i = .detectChain m) →
    exec i s = .next t →
      t.params = s.params ∧ t.port = s.port ∧ t.warnings = s.warnings ∧ t.sess.life = s.sess.life ∧
      t.sess.quirk = s.sess.quirk ∧
      ∀ name k : Nat, (∀ len, outputOf i = some (name, len) → (len + 7) / 8 ≤ k) →
        t.readByte name k = s.readByte name k

/-! ### The IR and DR entry points -/

/-- R161, R163: SHIFT_IR and SHIFT_DR complete from every tracked state when the vectors are long enough and apart, the buffer
size is one the core takes and every answer is full; `S.tap` ends as the end state and the buffer is empty. -/
def Obligations.ShiftIrAndShiftDrComplete : Prop :=
  ∀ (i : Instr) (s : State) (input : Option VecArg) (output : Option Nat) (len : Nat) (endState : TapState),
    i = .shiftIr input output len endState ∨ i = .shiftDr input output len endState →
    StateInv s = true → Ready s = true → Cooperative s.tx = true →
    ShiftAdmitted (s.setTap .shiftDr) input output len true →
    ∃ t : State, exec i s = .next t ∧ t.response = some (.result .none) ∧ t.sess.tap = endState ∧
      t.sess.tmsCount = 0 ∧ t.sess.fault = s.sess.fault ∧ t.sess.refused = s.sess.refused

/-- R74, R161, R163: on a live session that passes its checks, SHIFT_IR is MOVE_TO_STATE SHIFT_IR, then SHIFT with isLast, then
MOVE_TO_STATE endState, and SHIFT_DR the same with SHIFT_DR: the first of the three that does not complete ends it, with what
was written so far, and where all complete it ends as the last. -/
def Obligations.ShiftRegisterIsTheThreeRequests : Prop :=
  ∀ (i : Instr) (shiftState : TapState) (s a b c : State) (input : Option VecArg) (output : Option Nat) (len : Nat)
    (endState : TapState),
    (i = .shiftIr input output len endState ∧ shiftState = .shiftIr) ∨
      (i = .shiftDr input output len endState ∧ shiftState = .shiftDr) →
    Ready s = true → ShiftChecked (s.setTap .shiftDr) input output len true →
    exec (.moveToState shiftState) s = .next a → exec (.shift input output len true) a = .next b →
    exec (.moveToState endState) b = .next c →
    (a.response ≠ some (.result .none) → exec i s = .next a) ∧
    (a.response = some (.result .none) → b.response ≠ some (.result .none) → exec i s = .next b) ∧
    (a.response = some (.result .none) → b.response = some (.result .none) → exec i s = .next c)

/-- R161, R163 (checks 4 and 5 before any effect), R27: what the two are refused for on a live session. -/
def Obligations.ShiftRegisterRefusals : Prop :=
  ∀ (i : Instr) (s : State) (input : Option VecArg) (output : Option Nat) (len : Nat) (endState : TapState),
    i = .shiftIr input output len endState ∨ i = .shiftDr input output len endState → Ready s = true →
    let refusedWith (r : Reason) : Prop := exec i s =
      .next { s with sess := { s.sess with refused := true }, response := some (.refused r) }
    let short (v : Option (List Byte)) : Prop := ∃ bs, v = some bs ∧ bs.length < (len + 7) / 8
    (len = 0 → refusedWith .zeroLengthLast) ∧
    (len ≠ 0 → (short (s.input input) ∨ short (s.output output)) → refusedWith .shortVector) ∧
    (len ≠ 0 → ¬(short (s.input input) ∨ short (s.output output)) →
      (∃ n, input = some (.buffer n) ∧ output = some n) → refusedWith .aliasedVectors)

/-- R231: InvalidArgument is raised by SHIFT_IR_BYTE with more than 8 bits, before any event and any state change, and by no
other request; it does not set `S.fault`. -/
def Obligations.InvalidArgumentIsShiftIrByteAlone : Prop :=
  (∀ (s : State) (tdi : Byte) (irlen : Nat) (endState : TapState), Ready s = true → 8 < irlen →
    exec (.shiftIrByte tdi irlen endState) s =
      .next { s with response := some (.error (.invalidArgument irlen)) }) ∧
  ∀ (i : Instr) (s t : State) (n : Nat), exec i s = .next t → t.response = some (.error (.invalidArgument n)) →
    ∃ (tdi : Byte) (endState : TapState), i = .shiftIrByte tdi n endState ∧ 8 < n

/-- R162: SHIFT_IR_BYTE with at most 8 bits is SHIFT_IR of the one byte with no output; it completes as that does. -/
def Obligations.ShiftIrByteIsShiftIrOfOneByte : Prop :=
  (∀ (s : State) (tdi : Byte) (irlen : Nat) (endState : TapState), irlen ≤ 8 →
    exec (.shiftIrByte tdi irlen endState) s = exec (.shiftIr (some (.bytes [tdi])) none irlen endState) s) ∧
  ∀ (s : State) (tdi : Byte) (irlen : Nat) (endState : TapState), 1 ≤ irlen → irlen ≤ 8 → StateInv s = true →
    Ready s = true → Cooperative s.tx = true → 4 ≤ bufSizeNow s → bufSizeNow s ≤ 65539 →
    ∃ t : State, exec (.shiftIrByte tdi irlen endState) s = .next t ∧ t.response = some (.result .none) ∧
      t.sess.tap = endState ∧ t.sess.tmsCount = 0

/-- R267: a write-only SHIFT_IR that ends in EXIT1_IR, and a write-only SHIFT_DR that ends in EXIT1_DR, with the quirk flag clear
leave their data commands queued in the transport when they return. -/
def Obligations.ShiftIrToExit1LeavesCommandsQueued : Prop :=
  ∀ (i : Instr) (s : State) (input : Option VecArg) (len : Nat),
    i = .shiftIr input none len .exit1Ir ∨ i = .shiftDr input none len .exit1Dr →
    StateInv s = true → Ready s = true → Cooperative s.tx = true →
    s.sess.quirk = false → ShiftAdmitted (s.setTap .shiftDr) input none len true →
    ∃ t : State, exec i s = .next t ∧ t.response = some (.result .none) ∧
      queued t.trace = ((shiftPlan s.params.opc (s.input input) false len true (bufSizeNow s - 3)).map Prod.fst).flatten ∧
      queued t.trace ≠ []

/-! ### The enumerator -/

/-- R194: DETECT_CHAIN completes when every answer is full and every buffer size is one the core takes, with at most one word
for each position; `S.tap` is TEST_LOGIC_RESET at the end and the buffer is empty. At a short answer, or at a window whose
buffer size is refused, it stops there: that event is the last, there is no result, and what was written stays, `S.tap` in
TEST_LOGIC_RESET or SHIFT_DR after an error and in SHIFT_DR after a refusal. -/
def Obligations.DetectChainCompletes : Prop :=
  (∀ (s : State) (m : Nat), StateInv s = true → Ready s = true → Cooperative s.tx = true → SizesOk s.tx = true →
    ∃ (t : State) (ws : List Word32), exec (.detectChain m) s = .next t ∧ t.response = some (.result (.words ws)) ∧
      ws.length ≤ m ∧ (∀ w ∈ ws, w ≠ 0x00000000 ∧ w ≠ 0xFFFFFFFF) ∧
      t.sess.tap = .testLogicReset ∧ t.sess.tmsCount = 0 ∧ t.sess.fault = s.sess.fault ∧
      t.sess.refused = s.sess.refused ∧ t.mem = s.mem) ∧
  ∀ (s t : State) (m : Nat), Ready s = true → exec (.detectChain m) s = .next t →
    t.mem = s.mem ∧ t.trace = s.trace ++ eventsSince s t ∧
    (∀ e ∈ eventsSince s t, e.cutShort = true →
      (eventsSince s t).getLast? = some e ∧ t.sess.fault = true ∧ t.sess.refused = s.sess.refused ∧
        (t.sess.tap = .testLogicReset ∨ t.sess.tap = .shiftDr) ∧
        ∃ (p : Primitive) (asked n : Nat), t.response = some (.error (.transport p asked n)) ∧ n < asked ∧
          (p = .flush ∧ e = .flush (.short n) ∨ p = .read ∧ e = .read asked (.short n))) ∧
    ∀ b : Nat, .bufSize b ∈ eventsSince s t → (b < 4 ∨ 65539 < b) →
      (eventsSince s t).getLast? = some (.bufSize b) ∧ t.response = some (.refused .bufferSizeOutOfRange) ∧
        t.sess.refused = true ∧ t.sess.fault = s.sess.fault ∧ t.sess.tap = .shiftDr ∧ t.sess.tmsCount = 0

/-- R42, R191 to R194: when the windows capture the words of `ws`, each under the buffer size the transport then gives,
DETECT_CHAIN of their number returns exactly those that are neither all-zero nor all-ones, in position order. -/
def Obligations.DetectChainReturnsTheRecordedWords : Prop :=
  ∀ (s : State) (ws : List (Word32 × Nat)) (more : List Answer), StateInv s = true → Ready s = true →
    ws.map Prod.snd = (List.range ws.length).map (fun k => s.tx.bufSizes.getD k s.tx.bufSize) →
    (∀ p ∈ ws, 4 ≤ p.2 ∧ p.2 ≤ 65539) →
    s.tx.script = [.full [], .full []] ++ readScript (windowsAnswers ws) ++ [.full []] ++ more →
    ∃ t : State, exec (.detectChain ws.length) s = .next t ∧
      t.response = some (.result (.words
        ((ws.map Prod.fst).filter fun w => decide (w ≠ 0x00000000 ∧ w ≠ 0xFFFFFFFF)))) ∧
      t.sess.tap = .testLogicReset

/-- R194 (m = 0) and D28: an enumeration of no windows is the reset, the move to SHIFT_DR and the reset again, and returns
the empty list. -/
def Obligations.DetectChainOfNoWindows : Prop :=
  ∀ (s : State), StateInv s = true → Ready s = true → Cooperative s.tx = true → s.sess.tmsCount = 0 →
    6 ≤ s.params.tmsCapacity →
    ∃ t : State, exec (.detectChain 0) s = .next t ∧ t.response = some (.result (.words [])) ∧
      t.trace = s.trace ++
        [.send (tmsCommand s.params.opc [true, true, true, true, true, true]), .flush (.full []),
         .send (tmsCommand s.params.opc [false, true, false, false]), .flush (.full []),
         .send (tmsCommand s.params.opc [true, true, true, true, true, true]), .flush (.full [])]

/-! ### The session -/

/-- R210, R211: SESSION_CREATE asks for the product string and writes every field of `S`; the quirk flag is the exact match of
that string with `QUIRK_ID`. That it runs on a session that is already live or released, which is every state there is, is
the model's reading of R234 (log 10). -/
def Obligations.SessionCreateWritesEveryField : Prop :=
  ∀ s : State, s.busy = false →
    exec .sessionCreate s = .next { s with
      sess := { life := .live, tap := s.params.initTap, tmsBuf := List.replicate s.params.tmsCapacity false,
                tmsCount := 0, quirk := decide (s.tx.product = s.params.quirkId), fault := false, refused := false },
      trace := s.trace ++ [.product s.tx.product], response := some (.result .none) }

/-- R213, R233: SESSION_RELEASE sends the self-test, flushes and reads back; it completes whatever the marks hold and whatever
is short, each shortfall being one warning; only `S.life` changes, and pending bits are not sent. -/
def Obligations.SessionReleaseCompletesRegardless : Prop :=
  ∀ s : State, Ready s = true → NeverStalls s.tx = true →
    ∃ (t : State) (a b : Answer), exec .sessionRelease s = .next t ∧ t.response = some (.result .none) ∧
      t.sess = { s.sess with life := .released } ∧ t.mem = s.mem ∧ t.params = s.params ∧ t.port = s.port ∧
      t.trace = s.trace ++ [.send s.params.teardownCmds, .flush a]
        ++ (if s.params.teardownExpect = 0 then [] else [.read s.params.teardownExpect b]) ∧
      t.warnings = s.warnings
        ++ (match a with
            | .short _ => [Warning.flush]
            | _ => [])
        ++ (if s.params.teardownExpect = 0 then []
            else match b with
              | .short k => [Warning.count k]
              | _ => [])

/-- R24, R211: no request but SESSION_CREATE changes `S.quirk`, and nothing changes the parameters. -/
def Obligations.QuirkAndParametersNeverChange : Prop :=
  ∀ (i : Instr) (s t : State), exec i s = .next t →
    t.params = s.params ∧ (i ≠ .sessionCreate → t.sess.quirk = s.sess.quirk)

/-- R25: a TransportError sets `S.fault` and a refusal sets `S.refused`, and both are sticky through every request but
SESSION_CREATE, session release among them. That SESSION_CREATE begins anew on a state with marks is the model's reading
(log 10). -/
def Obligations.FaultAndRefusedAreSticky : Prop :=
  ∀ (i : Instr) (s t : State), exec i s = .next t →
    (i ≠ .sessionCreate → (s.sess.fault = true → t.sess.fault = true) ∧
      (s.sess.refused = true → t.sess.refused = true)) ∧
    (∀ p asked n, t.response = some (.error (.transport p asked n)) → t.sess.fault = true) ∧
    (∀ r, t.response = some (.refused r) → t.sess.refused = true)

/-- R215, R234: after release every request is refused with NotLive, with no event. That SESSION_CREATE alone is not is
the model's reading of R234 (log 10). -/
def Obligations.ReleasedSessionRefusesEveryRequest : Prop :=
  ∀ (i : Instr) (s : State), i ≠ .sessionCreate → s.busy = false → s.sess.life = .released →
    exec i s = .next { s with sess := { s.sess with refused := true }, response := some (.refused .notLive) }

/-- R234, R266: a request that arrives while another is in progress is refused with ConcurrentRequest, with no event. That
SESSION_CREATE is refused too is the model's reading (log 10). -/
def Obligations.BusyPortRefusesEveryRequest : Prop :=
  ∀ (i : Instr) (s : State), s.busy = true →
    exec i s = .next { s with sess := { s.sess with refused := true }, response := some (.refused .concurrentRequest) }

/-- R62, R234: the codes 0xB to 0xF are refused with ReservedRequest on a live session, with no event. -/
def Obligations.ReservedCodesAreRefused : Prop :=
  ∀ (i : Instr) (s : State), i ∈ ([.reservedB, .reservedC, .reservedD, .reservedE, .reservedF] : List Instr) →
    Ready s = true →
    exec i s = .next { s with sess := { s.sess with refused := true }, response := some (.refused .reservedRequest) }

/-- R235: where a primitive of a request stalls, and only there, the request stays in progress: it has no answer, the stall is
its last event, and with nothing on the port the machine takes no further step (the `busy` mark and the fault are the
model's, log 9). -/
def Obligations.StalledRequestNeverCompletes : Prop :=
  ∀ (i : Instr) (s t : State), s.busy = false → exec i s = .next t →
    (∀ e ∈ eventsSince s t, e.stalled = true →
      t.busy = true ∧ t.response = none ∧ (eventsSince s t).getLast? = some e) ∧
    (t.busy = true →
      t.response = none ∧ (∃ e ∈ eventsSince s t, e.stalled = true) ∧
        (t.trace.getLast? = some (.flush .stall) ∨ (∃ n, t.trace.getLast? = some (.read n .stall)) ∨
          ∃ n, t.trace.getLast? = some (.drain n .stall)) ∧
        (t.port = [] → step t = .fault .stuck))

/-! ### Commands -/

/-- R64, R134: a TMS command goes out as its three bytes, after the packer's older bits, with no flush and no drain; `S.tap`
stays. That a single command can stand on the port is the model's choice (log 5). -/
def Obligations.TmsCommandIsSent : Prop :=
  ∀ (s : State) (len data : Byte), StateInv s = true → Ready s = true → (Instr.tms len data).wf = true →
    ∃ t : State, exec (.tms len data) s = .next t ∧ t.response = some (.result .none) ∧
      t.trace = s.trace ++ (tmsCommands s.params.opc s.pending).map Event.send
        ++ [.send (commandBytes s.params.opc (.tms len data))] ∧
      t.sess.tap = s.sess.tap ∧ t.sess.tmsCount = 0 ∧ t.mem = s.mem ∧ t.sess.fault = s.sess.fault

/-- R49, R65, R153 to R158: BYTES, BYTES_WRITE, BITS, BITS_WRITE and FINAL_BIT in a shift state: the packer's bits, then the
command's bytes; with the quirk flag a flush and a drain that takes the bytes it returns from the receive stream; the final
bit leaves the shift state. A byte-mode command asks the buffer size first and fits it. A single command on the port is the
model's choice (log 5); `tx.drawn` is the model's count of bytes consumed (log 4). -/
def Obligations.WritingCommandsComplete : Prop :=
  ∀ (i : Instr) (s : State), isWriteCommand i = true → i.wf = true → Ready s = true → Cooperative s.tx = true →
    s.sess.tap = .shiftDr ∨ s.sess.tap = .shiftIr → FitsBuffer i s →
    ∃ t : State, exec i s = .next t ∧ t.response = some (.result .none) ∧
      t.tx.drawn = s.tx.drawn + (if s.sess.quirk then responseBytes i else 0) ∧
      t.trace = s.trace ++ sizeQuery i s ++ openingEvents s
        ++ writeEvents s.sess.quirk (commandBytes s.params.opc i, responseBytes i) ∧
      t.sess.tap = (if isFinalCommand i then (if s.sess.tap = .shiftDr then .exit1Dr else .exit1Ir) else s.sess.tap) ∧
      t.sess.tmsCount = 0 ∧ t.sess.fault = s.sess.fault

/-- R49, R65, R153 to R158: BYTES_READ, BYTES_WRITE_READ, BITS_READ, BITS_WRITE_READ and FINAL_BIT_READ in a shift state: the
packer's bits, then the command's bytes, a flush and a read that takes the bytes it returns from the receive stream. A
byte-mode command asks the buffer size first and fits it. A single command on the port is the model's choice (log 5), and so
is that the bytes read, unaligned, are its answer (log 17); `tx.drawn` is the model's count of bytes consumed (log 4). -/
def Obligations.ReadingCommandsComplete : Prop :=
  ∀ (i : Instr) (s : State), isReadCommand i = true → i.wf = true → Ready s = true → Cooperative s.tx = true →
    s.sess.tap = .shiftDr ∨ s.sess.tap = .shiftIr → FitsBuffer i s →
    ∃ (t : State) (bs : List Byte), exec i s = .next t ∧ t.response = some (.result (.bytes bs)) ∧
      bs.length = responseBytes i ∧ t.tx.drawn = s.tx.drawn + responseBytes i ∧
      t.trace = s.trace ++ sizeQuery i s ++ openingEvents s
        ++ [.send (commandBytes s.params.opc i), .flush (.full []), .read (responseBytes i) (.full bs)] ∧
      t.sess.tap = (if isFinalCommand i then (if s.sess.tap = .shiftDr then .exit1Dr else .exit1Ir) else s.sess.tap) ∧
      t.sess.tmsCount = 0 ∧ t.sess.fault = s.sess.fault

/-- R65, R71, R150, R152: a command whose fields are none the core emits is refused with no event, and a data command outside a
shift state too. A byte-mode command is refused, its query staying, under a buffer size the core does not take, and where
it has more than `B - 3` bytes. A single command on the port is the model's choice (log 5), the reason for one the core
never emits the model's own (log 7). -/
def Obligations.MalformedCommandsAreRefused : Prop :=
  (∀ (i : Instr) (s : State), i.wf = false → Ready s = true →
    exec i s = .next { s with sess := { s.sess with refused := true }, response := some (.refused .malformedCommand) }) ∧
  (∀ (i : Instr) (s : State), isWriteCommand i = true ∨ isReadCommand i = true → i.wf = true → Ready s = true →
    ¬(s.sess.tap = .shiftDr ∨ s.sess.tap = .shiftIr) →
    exec i s = .next { s with sess := { s.sess with refused := true }, response := some (.refused .notInShiftState) }) ∧
  ∀ (i : Instr) (s : State), isByteCommand i = true → i.wf = true → Ready s = true →
    s.sess.tap = .shiftDr ∨ s.sess.tap = .shiftIr →
    let refusedWith (r : Reason) : Prop := exec i s =
      .next { s with sess := { s.sess with refused := true }, trace := s.trace ++ [.bufSize (bufSizeNow s)],
                     tx := { s.tx with bufSizes := s.tx.bufSizes.tail }, response := some (.refused r) }
    ((bufSizeNow s < 4 ∨ 65539 < bufSizeNow s) → refusedWith .bufferSizeOutOfRange) ∧
    (4 ≤ bufSizeNow s → bufSizeNow s ≤ 65539 → bufSizeNow s - 3 < responseBytes i → refusedWith .malformedCommand)

/-- The frame of the eleven commands on a live session, however they end: the caller's vectors, the parameters, the port, the
warnings, `S.life` and `S.quirk` stay, and only a final bit moves `S.tap`. That a single command stands on the port, and that
a TMS command leaves `S.tap`, is the model's choice (log 5). -/
def Obligations.CommandsFrame : Prop :=
  ∀ (i : Instr) (s t : State), (∃ iss bs, encode s.params.opc i = .command iss bs) → exec i s = .next t →
    (∀ name k, t.readByte name k = s.readByte name k) ∧ t.mem = s.mem ∧ t.params = s.params ∧ t.port = s.port ∧
    t.warnings = s.warnings ∧ t.sess.life = s.sess.life ∧ t.sess.quirk = s.sess.quirk ∧
    (isFinalCommand i = false → t.sess.tap = s.sess.tap)

/-! ### The machine -/

/-- A step takes the first item of the port, a queue being the model's choice for R61 (log 1): one that decodes runs as `exec`
of its instruction with the item taken off; one that does not is refused by name (log 7). With nothing on the port the
machine is idle, the model's reading of R244 (log 16), or stuck for ever, its reading of R235 (log 9). -/
def Obligations.StepRunsTheDecodedInstruction : Prop :=
  (∀ (s : State) (item : PortItem) (rest : List PortItem) (i : Instr), s.port = item :: rest →
    decode s.params.opc item = .ok i → step s = exec i { s with port := rest }) ∧
  (∀ (s : State) (item : PortItem) (rest : List PortItem) (e : DecodeError), s.port = item :: rest →
    decode s.params.opc item = .error e → step s = .refused (.undecodable e)) ∧
  (∀ s : State, s.port = [] → s.busy = false → step s = .next s) ∧
  ∀ s : State, s.port = [] → s.busy = true → step s = .fault .stuck

/-- R20, R260: reset is session creation, for every value of the parameters and every transport; `State.reset` is one of them
(log 2, log 3). That reset is creation is log 15, and that creation runs on any session log 10. -/
def Obligations.ResetIsSessionCreation : Prop :=
  (∀ (p : Params) (tx : Transport), (State.created p tx).sess =
    { life := .live, tap := p.initTap, tmsBuf := List.replicate p.tmsCapacity false, tmsCount := 0,
      quirk := decide (tx.product = p.quirkId), fault := false, refused := false }) ∧
  (∃ (p : Params) (tx : Transport), State.reset = State.created p tx ∧ p.tmsCapacity = 1024 ∧ p.opc = Opc.default) ∧
  ∀ s t : State, s.busy = false → exec .sessionCreate s = .next t → t.sess = (State.created s.params s.tx).sess

/-- The invariant holds at reset, with the parameters the model names (log 2). -/
def Obligations.InvariantAtReset : Prop := StateInv State.reset = true

/-- R20, R23: every step keeps the invariant, from every state: the parameters legal, the TMS buffer an array of `TMS_CAPACITY`
bits of which at most that many are valid and the others 0, and the caller's memory canonical. -/
def Obligations.StepKeepsTheInvariant : Prop :=
  ∀ s t : State, StateInv s = true → step s = .next t → StateInv t = true

/-- R44, R48, R51: whatever runs, the trace only grows, and every `Read` and `Drain` it adds comes right after a `Flush` it adds. -/
def Obligations.EveryReadAndDrainFollowsAFlush : Prop :=
  ∀ (i : Instr) (s t : State), exec i s = .next t →
    ∃ es : List Event, t.trace = s.trace ++ es ∧ readsFollow false es = true

/-- R135: MOVE_TO_STATE, RESET_TLR, SHIFT, SHIFT_IR, SHIFT_IR_BYTE, SHIFT_DR and DETECT_CHAIN all end with the buffer empty when
they complete. -/
def Obligations.CompositeRequestsEndWithAnEmptyBuffer : Prop :=
  ∀ (i : Instr) (s t : State) (r : Result),
    (∃ x, i = .moveToState x) ∨ i = .resetTlr ∨ (∃ a b n l, i = .shift a b n l) ∨ (∃ a b n e, i = .shiftIr a b n e) ∨
      (∃ a n e, i = .shiftIrByte a n e) ∨ (∃ a b n e, i = .shiftDr a b n e) ∨ (∃ m, i = .detectChain m) →
    exec i s = .next t → t.response = some (.result r) → t.sess.tmsCount = 0

/-- R40, R42: the word of a window is its four bytes, the first the lowest, and its bit `j` is the `j`-th bit captured. -/
def Obligations.WindowWordIsLittleEndian : Prop :=
  (∀ v : List Byte, wordOf v = (vecByte v 0).setWidth 32 ||| ((vecByte v 1).setWidth 32 <<< 8)
    ||| ((vecByte v 2).setWidth 32 <<< 16) ||| ((vecByte v 3).setWidth 32 <<< 24)) ∧
  ∀ (v : List Byte) (j : Nat), j < 32 → (wordOf v).getLsbD j = vecBit v j
end

