-- ==== Sys2Proof/Laws/State.lean ====
section
/-! SUPPORT. What each named update of the state leaves and writes: one lemma per field, true by unfolding. -/

namespace Sys2Proof.Machine

open Sys2Proof

@[simp] theorem State.setFault_life (s : State) : s.setFault.sess.life = s.sess.life := rfl
@[simp] theorem State.setFault_tap (s : State) : s.setFault.sess.tap = s.sess.tap := rfl
@[simp] theorem State.setFault_tmsBuf (s : State) : s.setFault.sess.tmsBuf = s.sess.tmsBuf := rfl
@[simp] theorem State.setFault_tmsCount (s : State) : s.setFault.sess.tmsCount = s.sess.tmsCount := rfl
@[simp] theorem State.setFault_quirk (s : State) : s.setFault.sess.quirk = s.sess.quirk := rfl
@[simp] theorem State.setFault_fault (s : State) : s.setFault.sess.fault = true := rfl
@[simp] theorem State.setFault_refused (s : State) : s.setFault.sess.refused = s.sess.refused := rfl
@[simp] theorem State.setFault_params (s : State) : s.setFault.params = s.params := rfl
@[simp] theorem State.setFault_trace (s : State) : s.setFault.trace = s.trace := rfl
@[simp] theorem State.setFault_tx (s : State) : s.setFault.tx = s.tx := rfl
@[simp] theorem State.setFault_port (s : State) : s.setFault.port = s.port := rfl
@[simp] theorem State.setFault_busy (s : State) : s.setFault.busy = s.busy := rfl
@[simp] theorem State.setFault_response (s : State) : s.setFault.response = s.response := rfl
@[simp] theorem State.setFault_warnings (s : State) : s.setFault.warnings = s.warnings := rfl
@[simp] theorem State.setFault_mem (s : State) : s.setFault.mem = s.mem := rfl

@[simp] theorem State.setRefused_life (s : State) : s.setRefused.sess.life = s.sess.life := rfl
@[simp] theorem State.setRefused_tap (s : State) : s.setRefused.sess.tap = s.sess.tap := rfl
@[simp] theorem State.setRefused_tmsBuf (s : State) : s.setRefused.sess.tmsBuf = s.sess.tmsBuf := rfl
@[simp] theorem State.setRefused_tmsCount (s : State) : s.setRefused.sess.tmsCount = s.sess.tmsCount := rfl
@[simp] theorem State.setRefused_quirk (s : State) : s.setRefused.sess.quirk = s.sess.quirk := rfl
@[simp] theorem State.setRefused_fault (s : State) : s.setRefused.sess.fault = s.sess.fault := rfl
@[simp] theorem State.setRefused_refused (s : State) : s.setRefused.sess.refused = true := rfl
@[simp] theorem State.setRefused_params (s : State) : s.setRefused.params = s.params := rfl
@[simp] theorem State.setRefused_trace (s : State) : s.setRefused.trace = s.trace := rfl
@[simp] theorem State.setRefused_tx (s : State) : s.setRefused.tx = s.tx := rfl
@[simp] theorem State.setRefused_port (s : State) : s.setRefused.port = s.port := rfl
@[simp] theorem State.setRefused_busy (s : State) : s.setRefused.busy = s.busy := rfl
@[simp] theorem State.setRefused_response (s : State) : s.setRefused.response = s.response := rfl
@[simp] theorem State.setRefused_warnings (s : State) : s.setRefused.warnings = s.warnings := rfl
@[simp] theorem State.setRefused_mem (s : State) : s.setRefused.mem = s.mem := rfl

@[simp] theorem State.setTap_life (t : TapState) (s : State) : (s.setTap t).sess.life = s.sess.life := rfl
@[simp] theorem State.setTap_tap (t : TapState) (s : State) : (s.setTap t).sess.tap = t := rfl
@[simp] theorem State.setTap_tmsBuf (t : TapState) (s : State) : (s.setTap t).sess.tmsBuf = s.sess.tmsBuf := rfl
@[simp] theorem State.setTap_tmsCount (t : TapState) (s : State) : (s.setTap t).sess.tmsCount = s.sess.tmsCount := rfl
@[simp] theorem State.setTap_quirk (t : TapState) (s : State) : (s.setTap t).sess.quirk = s.sess.quirk := rfl
@[simp] theorem State.setTap_fault (t : TapState) (s : State) : (s.setTap t).sess.fault = s.sess.fault := rfl
@[simp] theorem State.setTap_refused (t : TapState) (s : State) : (s.setTap t).sess.refused = s.sess.refused := rfl
@[simp] theorem State.setTap_params (t : TapState) (s : State) : (s.setTap t).params = s.params := rfl
@[simp] theorem State.setTap_trace (t : TapState) (s : State) : (s.setTap t).trace = s.trace := rfl
@[simp] theorem State.setTap_tx (t : TapState) (s : State) : (s.setTap t).tx = s.tx := rfl
@[simp] theorem State.setTap_port (t : TapState) (s : State) : (s.setTap t).port = s.port := rfl
@[simp] theorem State.setTap_busy (t : TapState) (s : State) : (s.setTap t).busy = s.busy := rfl
@[simp] theorem State.setTap_response (t : TapState) (s : State) : (s.setTap t).response = s.response := rfl
@[simp] theorem State.setTap_warnings (t : TapState) (s : State) : (s.setTap t).warnings = s.warnings := rfl
@[simp] theorem State.setTap_mem (t : TapState) (s : State) : (s.setTap t).mem = s.mem := rfl

@[simp] theorem State.clearTms_life (s : State) : s.clearTms.sess.life = s.sess.life := rfl
@[simp] theorem State.clearTms_tap (s : State) : s.clearTms.sess.tap = s.sess.tap := rfl
@[simp] theorem State.clearTms_tmsBuf (s : State) : s.clearTms.sess.tmsBuf = List.replicate s.params.tmsCapacity false := rfl
@[simp] theorem State.clearTms_tmsCount (s : State) : s.clearTms.sess.tmsCount = 0 := rfl
@[simp] theorem State.clearTms_quirk (s : State) : s.clearTms.sess.quirk = s.sess.quirk := rfl
@[simp] theorem State.clearTms_fault (s : State) : s.clearTms.sess.fault = s.sess.fault := rfl
@[simp] theorem State.clearTms_refused (s : State) : s.clearTms.sess.refused = s.sess.refused := rfl
@[simp] theorem State.clearTms_params (s : State) : s.clearTms.params = s.params := rfl
@[simp] theorem State.clearTms_trace (s : State) : s.clearTms.trace = s.trace := rfl
@[simp] theorem State.clearTms_tx (s : State) : s.clearTms.tx = s.tx := rfl
@[simp] theorem State.clearTms_port (s : State) : s.clearTms.port = s.port := rfl
@[simp] theorem State.clearTms_busy (s : State) : s.clearTms.busy = s.busy := rfl
@[simp] theorem State.clearTms_response (s : State) : s.clearTms.response = s.response := rfl
@[simp] theorem State.clearTms_warnings (s : State) : s.clearTms.warnings = s.warnings := rfl
@[simp] theorem State.clearTms_mem (s : State) : s.clearTms.mem = s.mem := rfl

@[simp] theorem appendTms_life (b : Bool) (s : State) : (appendTms b s).sess.life = s.sess.life := rfl
@[simp] theorem appendTms_tap (b : Bool) (s : State) : (appendTms b s).sess.tap = s.sess.tap := rfl
@[simp] theorem appendTms_tmsBuf (b : Bool) (s : State) : (appendTms b s).sess.tmsBuf = s.sess.tmsBuf.set s.sess.tmsCount b := rfl
@[simp] theorem appendTms_tmsCount (b : Bool) (s : State) : (appendTms b s).sess.tmsCount = s.sess.tmsCount + 1 := rfl
@[simp] theorem appendTms_quirk (b : Bool) (s : State) : (appendTms b s).sess.quirk = s.sess.quirk := rfl
@[simp] theorem appendTms_fault (b : Bool) (s : State) : (appendTms b s).sess.fault = s.sess.fault := rfl
@[simp] theorem appendTms_refused (b : Bool) (s : State) : (appendTms b s).sess.refused = s.sess.refused := rfl
@[simp] theorem appendTms_params (b : Bool) (s : State) : (appendTms b s).params = s.params := rfl
@[simp] theorem appendTms_trace (b : Bool) (s : State) : (appendTms b s).trace = s.trace := rfl
@[simp] theorem appendTms_tx (b : Bool) (s : State) : (appendTms b s).tx = s.tx := rfl
@[simp] theorem appendTms_port (b : Bool) (s : State) : (appendTms b s).port = s.port := rfl
@[simp] theorem appendTms_busy (b : Bool) (s : State) : (appendTms b s).busy = s.busy := rfl
@[simp] theorem appendTms_response (b : Bool) (s : State) : (appendTms b s).response = s.response := rfl
@[simp] theorem appendTms_warnings (b : Bool) (s : State) : (appendTms b s).warnings = s.warnings := rfl
@[simp] theorem appendTms_mem (b : Bool) (s : State) : (appendTms b s).mem = s.mem := rfl

@[simp] theorem State.release_life (s : State) : s.release.sess.life = .released := rfl
@[simp] theorem State.release_tap (s : State) : s.release.sess.tap = s.sess.tap := rfl
@[simp] theorem State.release_tmsBuf (s : State) : s.release.sess.tmsBuf = s.sess.tmsBuf := rfl
@[simp] theorem State.release_tmsCount (s : State) : s.release.sess.tmsCount = s.sess.tmsCount := rfl
@[simp] theorem State.release_quirk (s : State) : s.release.sess.quirk = s.sess.quirk := rfl
@[simp] theorem State.release_fault (s : State) : s.release.sess.fault = s.sess.fault := rfl
@[simp] theorem State.release_refused (s : State) : s.release.sess.refused = s.sess.refused := rfl
@[simp] theorem State.release_params (s : State) : s.release.params = s.params := rfl
@[simp] theorem State.release_trace (s : State) : s.release.trace = s.trace := rfl
@[simp] theorem State.release_tx (s : State) : s.release.tx = s.tx := rfl
@[simp] theorem State.release_port (s : State) : s.release.port = s.port := rfl
@[simp] theorem State.release_busy (s : State) : s.release.busy = s.busy := rfl
@[simp] theorem State.release_response (s : State) : s.release.response = s.response := rfl
@[simp] theorem State.release_warnings (s : State) : s.release.warnings = s.warnings := rfl
@[simp] theorem State.release_mem (s : State) : s.release.mem = s.mem := rfl

@[simp] theorem State.emit_sess (e : Event) (s : State) : (s.emit e).sess = s.sess := rfl
@[simp] theorem State.emit_params (e : Event) (s : State) : (s.emit e).params = s.params := rfl
@[simp] theorem State.emit_trace (e : Event) (s : State) : (s.emit e).trace = s.trace ++ [e] := rfl
@[simp] theorem State.emit_tx (e : Event) (s : State) : (s.emit e).tx = s.tx := rfl
@[simp] theorem State.emit_port (e : Event) (s : State) : (s.emit e).port = s.port := rfl
@[simp] theorem State.emit_busy (e : Event) (s : State) : (s.emit e).busy = s.busy := rfl
@[simp] theorem State.emit_response (e : Event) (s : State) : (s.emit e).response = s.response := rfl
@[simp] theorem State.emit_warnings (e : Event) (s : State) : (s.emit e).warnings = s.warnings := rfl
@[simp] theorem State.emit_mem (e : Event) (s : State) : (s.emit e).mem = s.mem := rfl

@[simp] theorem txSend_sess (bs : List Byte) (s : State) : (txSend bs s).sess = s.sess := rfl
@[simp] theorem txSend_params (bs : List Byte) (s : State) : (txSend bs s).params = s.params := rfl
@[simp] theorem txSend_trace (bs : List Byte) (s : State) : (txSend bs s).trace = s.trace ++ [.send bs] := rfl
@[simp] theorem txSend_tx (bs : List Byte) (s : State) : (txSend bs s).tx = s.tx := rfl
@[simp] theorem txSend_port (bs : List Byte) (s : State) : (txSend bs s).port = s.port := rfl
@[simp] theorem txSend_busy (bs : List Byte) (s : State) : (txSend bs s).busy = s.busy := rfl
@[simp] theorem txSend_response (bs : List Byte) (s : State) : (txSend bs s).response = s.response := rfl
@[simp] theorem txSend_warnings (bs : List Byte) (s : State) : (txSend bs s).warnings = s.warnings := rfl
@[simp] theorem txSend_mem (bs : List Byte) (s : State) : (txSend bs s).mem = s.mem := rfl

@[simp] theorem txSendAll_sess (cs : List (List Byte)) (s : State) : (txSendAll cs s).sess = s.sess := rfl
@[simp] theorem txSendAll_params (cs : List (List Byte)) (s : State) : (txSendAll cs s).params = s.params := rfl
@[simp] theorem txSendAll_trace (cs : List (List Byte)) (s : State) : (txSendAll cs s).trace = s.trace ++ cs.map Event.send := rfl
@[simp] theorem txSendAll_tx (cs : List (List Byte)) (s : State) : (txSendAll cs s).tx = s.tx := rfl
@[simp] theorem txSendAll_port (cs : List (List Byte)) (s : State) : (txSendAll cs s).port = s.port := rfl
@[simp] theorem txSendAll_busy (cs : List (List Byte)) (s : State) : (txSendAll cs s).busy = s.busy := rfl
@[simp] theorem txSendAll_response (cs : List (List Byte)) (s : State) : (txSendAll cs s).response = s.response := rfl
@[simp] theorem txSendAll_warnings (cs : List (List Byte)) (s : State) : (txSendAll cs s).warnings = s.warnings := rfl
@[simp] theorem txSendAll_mem (cs : List (List Byte)) (s : State) : (txSendAll cs s).mem = s.mem := rfl

@[simp] theorem flushed_sess (s : State) : (flushed s).sess = s.sess := rfl
@[simp] theorem flushed_params (s : State) : (flushed s).params = s.params := rfl
@[simp] theorem flushed_trace (s : State) : (flushed s).trace = s.trace ++ [.flush (flushAnswer s)] := rfl
@[simp] theorem flushed_tx (s : State) : (flushed s).tx = s.tx.answered := rfl
@[simp] theorem flushed_port (s : State) : (flushed s).port = s.port := rfl
@[simp] theorem flushed_busy (s : State) : (flushed s).busy = s.busy := rfl
@[simp] theorem flushed_response (s : State) : (flushed s).response = s.response := rfl
@[simp] theorem flushed_warnings (s : State) : (flushed s).warnings = s.warnings := rfl
@[simp] theorem flushed_mem (s : State) : (flushed s).mem = s.mem := rfl

@[simp] theorem readDone_sess (n : Nat) (s : State) : (readDone n s).sess = s.sess := rfl
@[simp] theorem readDone_params (n : Nat) (s : State) : (readDone n s).params = s.params := rfl
@[simp] theorem readDone_trace (n : Nat) (s : State) : (readDone n s).trace = s.trace ++ [.read n (readAnswer n s)] := rfl
@[simp] theorem readDone_tx (n : Nat) (s : State) : (readDone n s).tx = s.tx.consume ((readAnswer n s).consumed n) := rfl
@[simp] theorem readDone_port (n : Nat) (s : State) : (readDone n s).port = s.port := rfl
@[simp] theorem readDone_busy (n : Nat) (s : State) : (readDone n s).busy = s.busy := rfl
@[simp] theorem readDone_response (n : Nat) (s : State) : (readDone n s).response = s.response := rfl
@[simp] theorem readDone_warnings (n : Nat) (s : State) : (readDone n s).warnings = s.warnings := rfl
@[simp] theorem readDone_mem (n : Nat) (s : State) : (readDone n s).mem = s.mem := rfl

@[simp] theorem drained_sess (n : Nat) (s : State) : (drained n s).sess = s.sess := rfl
@[simp] theorem drained_params (n : Nat) (s : State) : (drained n s).params = s.params := rfl
@[simp] theorem drained_trace (n : Nat) (s : State) : (drained n s).trace = s.trace ++ [.drain n (drainAnswer n s)] := rfl
@[simp] theorem drained_tx (n : Nat) (s : State) : (drained n s).tx = s.tx.consume ((drainAnswer n s).consumed n) := rfl
@[simp] theorem drained_port (n : Nat) (s : State) : (drained n s).port = s.port := rfl
@[simp] theorem drained_busy (n : Nat) (s : State) : (drained n s).busy = s.busy := rfl
@[simp] theorem drained_response (n : Nat) (s : State) : (drained n s).response = s.response := rfl
@[simp] theorem drained_warnings (n : Nat) (s : State) : (drained n s).warnings = s.warnings := rfl
@[simp] theorem drained_mem (n : Nat) (s : State) : (drained n s).mem = s.mem := rfl

@[simp] theorem bufSizeAsked_sess (s : State) : (bufSizeAsked s).sess = s.sess := rfl
@[simp] theorem bufSizeAsked_params (s : State) : (bufSizeAsked s).params = s.params := rfl
@[simp] theorem bufSizeAsked_trace (s : State) : (bufSizeAsked s).trace = s.trace ++ [.bufSize (bufSizeNow s)] := rfl
@[simp] theorem bufSizeAsked_tx (s : State) : (bufSizeAsked s).tx = { s.tx with bufSizes := s.tx.bufSizes.tail } := rfl
@[simp] theorem bufSizeAsked_port (s : State) : (bufSizeAsked s).port = s.port := rfl
@[simp] theorem bufSizeAsked_busy (s : State) : (bufSizeAsked s).busy = s.busy := rfl
@[simp] theorem bufSizeAsked_response (s : State) : (bufSizeAsked s).response = s.response := rfl
@[simp] theorem bufSizeAsked_warnings (s : State) : (bufSizeAsked s).warnings = s.warnings := rfl
@[simp] theorem bufSizeAsked_mem (s : State) : (bufSizeAsked s).mem = s.mem := rfl

@[simp] theorem productAsked_sess (s : State) : (productAsked s).sess = s.sess := rfl
@[simp] theorem productAsked_params (s : State) : (productAsked s).params = s.params := rfl
@[simp] theorem productAsked_trace (s : State) : (productAsked s).trace = s.trace ++ [.product s.tx.product] := rfl
@[simp] theorem productAsked_tx (s : State) : (productAsked s).tx = s.tx := rfl
@[simp] theorem productAsked_port (s : State) : (productAsked s).port = s.port := rfl
@[simp] theorem productAsked_busy (s : State) : (productAsked s).busy = s.busy := rfl
@[simp] theorem productAsked_response (s : State) : (productAsked s).response = s.response := rfl
@[simp] theorem productAsked_warnings (s : State) : (productAsked s).warnings = s.warnings := rfl
@[simp] theorem productAsked_mem (s : State) : (productAsked s).mem = s.mem := rfl

@[simp] theorem State.warn_sess (w : Warning) (s : State) : (s.warn w).sess = s.sess := rfl
@[simp] theorem State.warn_params (w : Warning) (s : State) : (s.warn w).params = s.params := rfl
@[simp] theorem State.warn_trace (w : Warning) (s : State) : (s.warn w).trace = s.trace := rfl
@[simp] theorem State.warn_tx (w : Warning) (s : State) : (s.warn w).tx = s.tx := rfl
@[simp] theorem State.warn_port (w : Warning) (s : State) : (s.warn w).port = s.port := rfl
@[simp] theorem State.warn_busy (w : Warning) (s : State) : (s.warn w).busy = s.busy := rfl
@[simp] theorem State.warn_response (w : Warning) (s : State) : (s.warn w).response = s.response := rfl
@[simp] theorem State.warn_warnings (w : Warning) (s : State) : (s.warn w).warnings = s.warnings ++ [w] := rfl
@[simp] theorem State.warn_mem (w : Warning) (s : State) : (s.warn w).mem = s.mem := rfl

@[simp] theorem createSession_sess (s : State) : (createSession s).sess = Session.created s.params s.tx.product := rfl
@[simp] theorem createSession_params (s : State) : (createSession s).params = s.params := rfl
@[simp] theorem createSession_trace (s : State) : (createSession s).trace = s.trace ++ [.product s.tx.product] := rfl
@[simp] theorem createSession_tx (s : State) : (createSession s).tx = s.tx := rfl
@[simp] theorem createSession_port (s : State) : (createSession s).port = s.port := rfl
@[simp] theorem createSession_busy (s : State) : (createSession s).busy = s.busy := rfl
@[simp] theorem createSession_response (s : State) : (createSession s).response = s.response := rfl
@[simp] theorem createSession_warnings (s : State) : (createSession s).warnings = s.warnings := rfl
@[simp] theorem createSession_mem (s : State) : (createSession s).mem = s.mem := rfl

@[simp] theorem sendPending_life (s : State) : (sendPending s).sess.life = s.sess.life := rfl
@[simp] theorem sendPending_tap (s : State) : (sendPending s).sess.tap = s.sess.tap := rfl
@[simp] theorem sendPending_tmsBuf (s : State) : (sendPending s).sess.tmsBuf = List.replicate s.params.tmsCapacity false := rfl
@[simp] theorem sendPending_tmsCount (s : State) : (sendPending s).sess.tmsCount = 0 := rfl
@[simp] theorem sendPending_quirk (s : State) : (sendPending s).sess.quirk = s.sess.quirk := rfl
@[simp] theorem sendPending_fault (s : State) : (sendPending s).sess.fault = s.sess.fault := rfl
@[simp] theorem sendPending_refused (s : State) : (sendPending s).sess.refused = s.sess.refused := rfl
@[simp] theorem sendPending_params (s : State) : (sendPending s).params = s.params := rfl
@[simp] theorem sendPending_trace (s : State) : (sendPending s).trace = s.trace ++ (tmsCommands s.params.opc s.pending).map Event.send := rfl
@[simp] theorem sendPending_tx (s : State) : (sendPending s).tx = s.tx := rfl
@[simp] theorem sendPending_port (s : State) : (sendPending s).port = s.port := rfl
@[simp] theorem sendPending_busy (s : State) : (sendPending s).busy = s.busy := rfl
@[simp] theorem sendPending_response (s : State) : (sendPending s).response = s.response := rfl
@[simp] theorem sendPending_warnings (s : State) : (sendPending s).warnings = s.warnings := rfl
@[simp] theorem sendPending_mem (s : State) : (sendPending s).mem = s.mem := rfl

@[simp] theorem Transport.answered_steady (t : Transport) : t.answered.steady = t.steady := rfl
@[simp] theorem Transport.answered_script (t : Transport) : t.answered.script = t.script.tail := rfl
@[simp] theorem Transport.answered_bufSizes (t : Transport) : t.answered.bufSizes = t.bufSizes := rfl
@[simp] theorem Transport.answered_bufSize (t : Transport) : t.answered.bufSize = t.bufSize := rfl
@[simp] theorem Transport.answered_product (t : Transport) : t.answered.product = t.product := rfl
@[simp] theorem Transport.answered_drawn (t : Transport) : t.answered.drawn = t.drawn := rfl

@[simp] theorem Transport.consume_steady (n : Nat) (t : Transport) : (t.consume n).steady = t.steady := rfl
@[simp] theorem Transport.consume_script (n : Nat) (t : Transport) : (t.consume n).script = t.script.tail := rfl
@[simp] theorem Transport.consume_bufSizes (n : Nat) (t : Transport) : (t.consume n).bufSizes = t.bufSizes := rfl
@[simp] theorem Transport.consume_bufSize (n : Nat) (t : Transport) : (t.consume n).bufSize = t.bufSize := rfl
@[simp] theorem Transport.consume_product (n : Nat) (t : Transport) : (t.consume n).product = t.product := rfl
@[simp] theorem Transport.consume_drawn (n : Nat) (t : Transport) : (t.consume n).drawn = t.drawn + n := rfl

@[simp] theorem Answer.consumed_full (n : Nat) (d : List Byte) : (Answer.full d).consumed n = n := rfl
@[simp] theorem Answer.consumed_short (n k : Nat) : (Answer.short k).consumed n = k := rfl
@[simp] theorem Answer.consumed_stall (n : Nat) : Answer.stall.consumed n = 0 := rfl

/-! ### How a run goes on -/

@[simp] theorem Run.bind_done {σ α β : Type} (a : α) (s : σ) (f : α → σ → Run σ β) : (Run.done a s).bind f = f a s := rfl
@[simp] theorem Run.bind_ended {σ α β : Type} (w : Stop) (s : σ) (f : α → σ → Run σ β) :
    (Run.ended w s : Run σ α).bind f = .ended w s := rfl
@[simp] theorem Run.map_done {σ α β : Type} (f : α → β) (a : α) (s : σ) : (Run.done a s).map f = .done (f a) s := rfl
@[simp] theorem Run.map_ended {σ α β : Type} (f : α → β) (w : Stop) (s : σ) :
    (Run.ended w s : Run σ α).map f = .ended w s := rfl
@[simp] theorem Run.mapState_done {σ τ α : Type} (f : σ → τ) (a : α) (s : σ) :
    (Run.done a s).mapState f = .done a (f s) := rfl
@[simp] theorem Run.mapState_ended {σ τ α : Type} (f : σ → τ) (w : Stop) (s : σ) :
    (Run.ended w s : Run σ α).mapState f = .ended w (f s) := rfl
@[simp] theorem Run.final_done {σ α : Type} (a : α) (s : σ) : (Run.done a s).final = s := rfl
@[simp] theorem Run.final_ended {σ α : Type} (w : Stop) (s : σ) : (Run.ended w s : Run σ α).final = s := rfl
@[simp] theorem Run.final_map {σ α β : Type} (f : α → β) (x : Run σ α) : (x.map f).final = x.final := by
  cases x <;> rfl
@[simp] theorem Run.final_mapState {σ τ α : Type} (f : σ → τ) (x : Run σ α) : (x.mapState f).final = f x.final := by
  cases x <;> rfl

end Sys2Proof.Machine
end

