-- ==== Sys2Proof/Laws/Checks.lean ====
section
/-! SUPPORT. The checks of a shift, each said as the condition it stands for. -/

namespace Sys2Proof.Machine

open Sys2Proof

theorem ready_iff (s : State) : Ready s = true ↔ s.busy = false ∧ s.sess.life = .live := by simp [Ready]

theorem isShiftState_iff (t : TapState) : isShiftState t = true ↔ t = .shiftDr ∨ t = .shiftIr := by simp [isShiftState]

theorem tooShort_iff (v : Option (List Byte)) (len : Nat) :
    tooShort v len = true ↔ ∃ bs, v = some bs ∧ bs.length < (len + 7) / 8 := by
  cases v with
  | none => simp [tooShort]
  | some bs => exact decide_eq_true_iff.trans (by simp [vecBytes])

theorem sameStorage_iff (input : Option VecArg) (output : Option Nat) :
    sameStorage input output = true ↔ ∃ n, input = some (.buffer n) ∧ output = some n := by
  unfold sameStorage
  split <;> simp_all [eq_comm]

theorem bufSizeOk_iff (b : Nat) : bufSizeOk b = true ↔ 4 ≤ b ∧ b ≤ 65539 := by
  exact decide_eq_true_iff

theorem vectorCheck_none_iff (input : Option VecArg) (output : Option Nat) (len : Nat) (s : State) :
    vectorCheck (s.input input) (s.output output) (sameStorage input output) len = none ↔
      (∀ v, s.input input = some v → (len + 7) / 8 ≤ v.length) ∧
        (∀ v, s.output output = some v → (len + 7) / 8 ≤ v.length) ∧
        (∀ n, input = some (.buffer n) → output ≠ some n) := by
  have h (v : Option (List Byte)) : tooShort v len = false ↔ ∀ bs, v = some bs → (len + 7) / 8 ≤ bs.length := by
    rw [← Bool.not_eq_true, tooShort_iff]
    simp
  have k : sameStorage input output = false ↔ ∀ n, input = some (.buffer n) → output ≠ some n := by
    rw [← Bool.not_eq_true, sameStorage_iff]
    simp
  rw [← h, ← h, ← k]
  unfold vectorCheck
  cases tooShort (s.input input) len <;> cases tooShort (s.output output) len <;> cases sameStorage input output <;> simp

/-- R150: checks 2 to 5 find nothing exactly where the conditions of `ShiftChecked` hold. -/
theorem shiftCheck_none_iff (s : State) (input : Option VecArg) (output : Option Nat) (len : Nat) (isLast : Bool) :
    shiftCheck (s.input input) (s.output output) (sameStorage input output) len isLast s = none ↔
      ShiftChecked s input output len isLast := by
  unfold shiftCheck ShiftChecked
  rw [← vectorCheck_none_iff, ← isShiftState_iff]
  by_cases hz : len = 0 ∧ isLast = true
  · simp [hz]
  · have : len ≠ 0 ∨ isLast = false := by
      by_contra hc
      simp at hc
      exact hz hc
    by_cases ht : isShiftState s.sess.tap = true <;> simp [hz, this, ht]

/-- A shift is admitted where the model's two checks say so. -/
theorem shiftAdmitted_iff (s : State) (input : Option VecArg) (output : Option Nat) (len : Nat) (isLast : Bool) :
    ShiftAdmitted s input output len isLast ↔
      shiftCheck (s.input input) (s.output output) (sameStorage input output) len isLast s = none ∧
        bufSizeOk (bufSizeNow s) = true := by
  rw [shiftCheck_none_iff, bufSizeOk_iff]
  rfl

end Sys2Proof.Machine
end

