-- ==== Sys2Proof/Laws/Codes.lean ====
section
/-! SUPPORT. Opcodes and codes read back: the flags of R66 are told apart in every opcode, so an opcode tells its kind. -/

namespace Sys2Proof

theorem byte_or_and (a b c : Byte) : (a ||| b) &&& c = (a &&& c) ||| (b &&& c) := by
  ext i hi
  simp [Bool.and_or_distrib_right]

/-- The single bits a flag can be (R66). -/
def singleBits : List Byte := [0x01, 0x02, 0x04, 0x08, 0x10, 0x20, 0x40, 0x80]

theorem singleBits_and : ∀ a ∈ singleBits, ∀ b ∈ singleBits, a ≠ b → a &&& b = 0 := by decide

theorem singleBits_ne_zero : ∀ a ∈ singleBits, a ≠ 0#8 := by decide

/-- Two different flags of a legal record have no bit in common, and none is zero. -/
theorem Opc.wf_apart {o : Opc} (h : o.wf = true) :
    (o.flags.Pairwise fun a b => a &&& b = 0 ∧ b &&& a = 0) ∧ ∀ f ∈ o.flags, f ≠ 0#8 := by
  unfold Opc.wf at h
  rw [Bool.and_eq_true, List.all_eq_true, decide_eq_true_iff] at h
  obtain ⟨h, k⟩ := h
  have m : ∀ f ∈ o.flags, f ∈ singleBits := fun f hf => of_decide_eq_true (h f hf)
  refine ⟨?_, fun f hf => singleBits_ne_zero f (m f hf)⟩
  refine List.Pairwise.imp_of_mem (fun {a b} ha hb hab => ?_) k
  exact ⟨singleBits_and a (m a ha) b (m b hb) hab, singleBits_and b (m b hb) a (m a ha) (Ne.symm hab)⟩

theorem Opc.has_writeTms {o : Opc} (h : o.wf = true) (t b w r : Bool) : Opc.has o.writeTms (o.code t b w r) = t := by
  obtain ⟨p, n⟩ := Opc.wf_apart h
  simp only [Opc.flags, List.pairwise_cons, List.mem_cons, List.not_mem_nil, or_false, forall_eq_or_imp, forall_eq] at p n
  cases t <;> cases b <;> cases w <;> cases r <;> simp [Opc.has, Opc.code, byte_or_and, p, n]

theorem Opc.has_bitmode {o : Opc} (h : o.wf = true) (t b w r : Bool) : Opc.has o.bitmode (o.code t b w r) = b := by
  obtain ⟨p, n⟩ := Opc.wf_apart h
  simp only [Opc.flags, List.pairwise_cons, List.mem_cons, List.not_mem_nil, or_false, forall_eq_or_imp, forall_eq] at p n
  cases t <;> cases b <;> cases w <;> cases r <;> simp [Opc.has, Opc.code, byte_or_and, p, n]

theorem Opc.has_write {o : Opc} (h : o.wf = true) (t b w r : Bool) : Opc.has o.write (o.code t b w r) = w := by
  obtain ⟨p, n⟩ := Opc.wf_apart h
  simp only [Opc.flags, List.pairwise_cons, List.mem_cons, List.not_mem_nil, or_false, forall_eq_or_imp, forall_eq] at p n
  cases t <;> cases b <;> cases w <;> cases r <;> simp [Opc.has, Opc.code, byte_or_and, p, n]

theorem Opc.has_read {o : Opc} (h : o.wf = true) (t b w r : Bool) : Opc.has o.read (o.code t b w r) = r := by
  obtain ⟨p, n⟩ := Opc.wf_apart h
  simp only [Opc.flags, List.pairwise_cons, List.mem_cons, List.not_mem_nil, or_false, forall_eq_or_imp, forall_eq] at p n
  cases t <;> cases b <;> cases w <;> cases r <;> simp [Opc.has, Opc.code, byte_or_and, p, n]

/-- The opcode byte of a kind of command tells that kind (R63). -/
theorem CommandKind.ofOpcode_opcode {o : Opc} (h : o.wf = true) (k : CommandKind) :
    CommandKind.ofOpcode o (k.opcode o) = some k := by
  cases k <;> simp [CommandKind.ofOpcode, CommandKind.opcode, Opc.has_writeTms h, Opc.has_bitmode h, Opc.has_write h,
    Opc.has_read h]

/-- A command whose opcode is of a kind is decoded as that kind's. -/
theorem decode_command {o : Opc} (h : o.wf = true) (iss : Issuer) (k : CommandKind) (rest : List Byte) :
    decode o (.command iss (k.opcode o :: rest)) = commandOf k iss (k.opcode o) rest := by
  simp [decode, CommandKind.ofOpcode_opcode h]

@[simp] theorem VecArg.asInput_operand (i : Option VecArg) : (VecArg.operand i).asInput = some i := by
  rcases i with _ | _ | _ <;> rfl

@[simp] theorem asOutput_outputOperand (u : Option Nat) : (outputOperand u).asOutput = some u := by
  rcases u with _ | _ <;> rfl

@[simp] theorem TapState.ofCode_code (t : TapState) : TapState.ofCode t.code = t := by cases t <;> rfl

@[simp] theorem lenField_lenBytes (len : BitVec 16) (p : List Byte) : lenField (lenBytes len ++ p) = len := by
  simp only [lenField, lenBytes, List.cons_append, List.nil_append, List.getD_cons_zero, List.getD_cons_succ]
  apply BitVec.eq_of_getLsbD_eq
  intro i hi
  rw [BitVec.getLsbD_append]
  by_cases h : i < 8
  · simp [h]
  · simp [h, show i - 8 < 8 by omega, show 8 + (i - 8) = i by omega]

end Sys2Proof
end

