-- ==== Sys2Proof/Laws/Frame.lean ====
section
/-! SUPPORT. What every operation of the core keeps: the frame `Extends`, proved once for each shared operation. -/

namespace Sys2Proof.Machine

open Sys2Proof

/-- `t` comes from `s` by work of the core inside one request: only the TMS buffer, the tracked state, the fault mark, the
transport's answers and the trace may differ, and the trace only grows, each read and drain after a flush. -/
structure Extends (s t : State) : Prop where
  life : t.sess.life = s.sess.life
  quirk : t.sess.quirk = s.sess.quirk
  refused : t.sess.refused = s.sess.refused
  fault : s.sess.fault = true → t.sess.fault = true
  params : t.params = s.params
  port : t.port = s.port
  busy : t.busy = s.busy
  response : t.response = s.response
  warnings : t.warnings = s.warnings
  mem : t.mem = s.mem
  trace : ∃ es, t.trace = s.trace ++ es ∧ readsFollow false es = true
  buffer : 1 ≤ s.params.tmsCapacity → bufferOk s = true → bufferOk t = true

theorem readsFollow_mono (es : List Event) (p : Bool) (h : readsFollow false es = true) : readsFollow p es = true := by
  cases p
  · exact h
  · cases es with
    | nil => rfl
    | cons e es => cases e <;> simp_all [readsFollow]

theorem readsFollow_append (es fs : List Event) (p : Bool) (h : readsFollow p es = true)
    (k : readsFollow false fs = true) : readsFollow p (es ++ fs) = true := by
  induction es generalizing p with
  | nil => exact readsFollow_mono fs p k
  | cons e es ih => cases e <;> simp_all [readsFollow]

theorem readsFollow_sends (cs : List (List Byte)) : readsFollow false (cs.map Event.send) = true := by
  induction cs with
  | nil => rfl
  | cons c cs ih => simpa [readsFollow] using ih

theorem Extends.refl (s : State) : Extends s s :=
  ⟨rfl, rfl, rfl, id, rfl, rfl, rfl, rfl, rfl, rfl, ⟨[], by simp, rfl⟩, fun _ h => h⟩

theorem Extends.trans {s t u : State} (h : Extends s t) (k : Extends t u) : Extends s u := by
  obtain ⟨es, he, re⟩ := h.trace
  obtain ⟨fs, hf, rf⟩ := k.trace
  exact ⟨k.life.trans h.life, k.quirk.trans h.quirk, k.refused.trans h.refused, fun x => k.fault (h.fault x),
    k.params.trans h.params, k.port.trans h.port, k.busy.trans h.busy, k.response.trans h.response,
    k.warnings.trans h.warnings, k.mem.trans h.mem,
    ⟨es ++ fs, by rw [hf, he, List.append_assoc], readsFollow_append es fs false re rf⟩,
    fun c b => k.buffer (by rw [h.params]; exact c) (h.buffer c b)⟩

/-- The buffer's legality only looks at the capacity and the two buffer fields. -/
theorem bufferOk_congr {s t : State} (hp : t.params = s.params) (hb : t.sess.tmsBuf = s.sess.tmsBuf)
    (hc : t.sess.tmsCount = s.sess.tmsCount) : bufferOk t = bufferOk s := by
  simp [bufferOk, hp, hb, hc]

theorem bufferOk_iff (s : State) : bufferOk s = true ↔
    s.sess.tmsBuf.length = s.params.tmsCapacity ∧ s.sess.tmsCount ≤ s.params.tmsCapacity ∧
      ∀ b ∈ s.sess.tmsBuf.drop s.sess.tmsCount, b = false := by
  simp [bufferOk, and_assoc]

theorem setFault_extends (s : State) : Extends s s.setFault :=
  ⟨rfl, rfl, rfl, fun _ => rfl, rfl, rfl, rfl, rfl, rfl, rfl, ⟨[], by simp, rfl⟩, fun _ h => h⟩

theorem setTap_extends (t : TapState) (s : State) : Extends s (s.setTap t) :=
  ⟨rfl, rfl, rfl, id, rfl, rfl, rfl, rfl, rfl, rfl, ⟨[], by simp, rfl⟩, fun _ h => h⟩

theorem txSend_extends (bs : List Byte) (s : State) : Extends s (txSend bs s) :=
  ⟨rfl, rfl, rfl, id, rfl, rfl, rfl, rfl, rfl, rfl, ⟨[.send bs], rfl, rfl⟩, fun _ h => h⟩

theorem bufSizeAsked_extends (s : State) : Extends s (bufSizeAsked s) :=
  ⟨rfl, rfl, rfl, id, rfl, rfl, rfl, rfl, rfl, rfl, ⟨[.bufSize (bufSizeNow s)], rfl, rfl⟩, fun _ h => h⟩

theorem flushed_extends (s : State) : Extends s (flushed s) :=
  ⟨rfl, rfl, rfl, id, rfl, rfl, rfl, rfl, rfl, rfl, ⟨[.flush (flushAnswer s)], rfl, rfl⟩, fun _ h => h⟩

theorem clearTms_bufferOk (s : State) : bufferOk s.clearTms = true := by
  rw [bufferOk_iff]
  simp

theorem sendPending_extends (s : State) : Extends s (sendPending s) :=
  ⟨rfl, rfl, rfl, id, rfl, rfl, rfl, rfl, rfl, rfl, ⟨_, rfl, readsFollow_sends _⟩, fun _ _ => clearTms_bufferOk _⟩

theorem autoFlush_extends (s : State) : Extends s (autoFlush s) := by
  unfold autoFlush
  split
  · exact .refl s
  · exact sendPending_extends s

theorem appendTms_bufferOk (b : Bool) (s : State) (hlt : s.sess.tmsCount < s.params.tmsCapacity)
    (h : bufferOk s = true) : bufferOk (appendTms b s) = true := by
  obtain ⟨hl, hc, hz⟩ := (bufferOk_iff s).1 h
  refine (bufferOk_iff _).2 ⟨by simpa using hl, by simpa using hlt, ?_⟩
  intro x hx
  rw [appendTms_tmsBuf, appendTms_tmsCount, List.drop_set_of_lt (by omega)] at hx
  exact hz x (List.mem_of_mem_drop (i := 1) (by rwa [List.drop_drop]))

theorem pushTms_extends (b : Bool) (s : State) : Extends s (pushTms b s) := by
  have app : ∀ u : State, (1 ≤ u.params.tmsCapacity → bufferOk u = true → u.sess.tmsCount < u.params.tmsCapacity) →
      Extends u (appendTms b u) := fun u hu =>
    ⟨rfl, rfl, rfl, id, rfl, rfl, rfl, rfl, rfl, rfl, ⟨[], by simp, rfl⟩,
      fun c k => appendTms_bufferOk b u (hu c k) k⟩
  unfold pushTms
  split
  · next full =>
    refine (autoFlush_extends s).trans (app _ fun c k => ?_)
    unfold autoFlush at c k ⊢
    split <;> simp_all <;> omega
  · next room =>
    refine app s fun _ k => ?_
    have := ((bufferOk_iff s).1 k).2.1
    omega

theorem pushAll_extends (bs : List Bool) (s : State) : Extends s (pushAll bs s) := by
  induction bs generalizing s with
  | nil => exact .refl s
  | cons b bs ih => exact (pushTms_extends b s).trans (ih _)

theorem queueEdge_extends (b : Bool) (s : State) : Extends s (queueEdge b s) :=
  (pushTms_extends b s).trans (setTap_extends _ _)

theorem queuePath_extends (bs : List Bool) (s : State) : Extends s (queuePath bs s) := by
  induction bs generalizing s with
  | nil => exact .refl s
  | cons b bs ih => exact (queueEdge_extends b s).trans (ih _)

/-! ### Runs -/

theorem Extends.bind {α β : Type} {s : State} {x : Run State α} {f : α → State → Run State β}
    (hx : Extends s x.final) (hf : ∀ a u, x = .done a u → Extends u (f a u).final) : Extends s (x.bind f).final := by
  cases x with
  | done a u => exact hx.trans (hf a u rfl)
  | ended w u => exact hx

theorem txFlush_extends (s : State) : Extends s (txFlush s).final := by
  unfold txFlush
  split
  · exact flushed_extends s
  · exact (flushed_extends s).trans (setFault_extends _)
  · exact flushed_extends s

theorem flushTms_extends (force : Bool) (s : State) : Extends s (flushTms force s).final := by
  unfold flushTms
  split
  · exact .refl s
  · split
    · simpa using (sendPending_extends s).trans (txFlush_extends _)
    · exact sendPending_extends s

/-- A flush and then one read or drain: the pair the multiplexer issues (R48, R158). -/
theorem flush_then_extends {α : Type} (s : State) (e : State → Event) (next : State → State) (g : State → Run State α)
    (hnext : ∀ u, (next u).sess = u.sess ∧ (next u).params = u.params ∧ (next u).port = u.port ∧ (next u).busy = u.busy ∧
      (next u).response = u.response ∧ (next u).warnings = u.warnings ∧ (next u).mem = u.mem ∧
      (next u).trace = u.trace ++ [e u])
    (he : ∀ u a, readsFollow false [.flush a, e u] = true)
    (hg : ∀ u, (g u).final = next u ∨ (g u).final = (next u).setFault) :
    Extends s ((txFlush s).bind fun _ u => g u).final := by
  have pair : Extends s (next (flushed s)) := by
    obtain ⟨h1, h2, h3, h4, h5, h6, h7, h8⟩ := hnext (flushed s)
    refine ⟨by rw [h1]; rfl, by rw [h1]; rfl, by rw [h1]; rfl, fun x => by rw [h1]; exact x, by rw [h2]; rfl,
      by rw [h3]; rfl, by rw [h4]; rfl, by rw [h5]; rfl, by rw [h6]; rfl, by rw [h7]; rfl, ?_, ?_⟩
    · exact ⟨[.flush (flushAnswer s), e (flushed s)], by rw [h8]; simp, he _ _⟩
    · intro _ hb
      rw [bufferOk_congr (s := s) (by rw [h2]; rfl) (by rw [h1]; rfl) (by rw [h1]; rfl)]
      exact hb
  unfold txFlush
  split
  · rcases hg (flushed s) with h | h
    · simpa [h] using pair
    · simpa [h] using pair.trans (setFault_extends _)
  · exact (flushed_extends s).trans (setFault_extends _)
  · exact flushed_extends s

theorem txRead_final (n : Nat) (s : State) : (txRead n s).final = readDone n s ∨ (txRead n s).final = (readDone n s).setFault := by
  unfold txRead
  split
  · exact .inl rfl
  · exact .inr rfl
  · exact .inl rfl

theorem txDrain_final (n : Nat) (s : State) : (txDrain n s).final = drained n s ∨ (txDrain n s).final = (drained n s).setFault := by
  unfold txDrain
  split
  · exact .inl rfl
  · exact .inr rfl
  · exact .inl rfl

theorem flush_read_extends (n : Nat) (s : State) : Extends s ((txFlush s).bind fun _ u => (txRead n u).map some).final :=
  flush_then_extends s (fun u => .read n (readAnswer n u)) (readDone n) _
    (fun _ => ⟨rfl, rfl, rfl, rfl, rfl, rfl, rfl, rfl⟩) (fun _ _ => rfl) (fun u => by simpa using txRead_final n u)

theorem flush_drain_extends {α : Type} (n : Nat) (s : State) (f : Unit → α) :
    Extends s ((txFlush s).bind fun _ u => (txDrain n u).map f).final :=
  flush_then_extends s (fun u => .drain n (drainAnswer n u)) (drained n) _
    (fun _ => ⟨rfl, rfl, rfl, rfl, rfl, rfl, rfl, rfl⟩) (fun _ _ => rfl) (fun u => by simpa using txDrain_final n u)

theorem issue_extends (cmd : List Byte) (n : Nat) (r : Bool) (s : State) : Extends s (issue cmd n r s).final := by
  unfold issue
  split
  · exact (txSend_extends cmd s).trans (flush_read_extends n _)
  · split
    · exact (txSend_extends cmd s).trans (flush_drain_extends n _ _)
    · exact txSend_extends cmd s

theorem moveTo_extends (t : TapState) (s : State) : Extends s (moveTo t s).final := by
  simpa [moveTo] using (queuePath_extends _ s).trans (flushTms_extends true _)

theorem resetTap_extends (s : State) : Extends s (resetTap s).final := by
  simpa [resetTap] using ((pushAll_extends _ s).trans (setTap_extends _ _)).trans (flushTms_extends true _)

/-! ### The shifter -/

theorem Work.capture_s (w : Work) (f : List Byte → List Byte → List Byte) (r : Option (List Byte)) :
    (w.capture f r).s = w.s := by
  unfold Work.capture
  split <;> rfl

theorem work_bind_extends {α β : Type} {s : State} {x : Run Work α} {f : α → Work → Run Work β}
    (hx : Extends s x.final.s) (hf : ∀ a w, x = .done a w → Extends w.s (f a w).final.s) :
    Extends s (x.bind f).final.s := by
  cases x with
  | done a u => exact hx.trans (hf a u rfl)
  | ended w u => exact hx

theorem lift_final {α : Type} (w : Work) (x : Run State α) : (w.lift x).final.s = x.final := by
  cases x <;> rfl

theorem bytePhase_extends (inp : Option (List Byte)) (xfer fuel k rem : Nat) (w : Work) :
    Extends w.s (bytePhase inp xfer fuel k rem w).final.s := by
  induction fuel generalizing k rem w with
  | zero => exact .refl _
  | succ fuel ih =>
    unfold bytePhase
    split
    · exact .refl _
    · refine work_bind_extends (by rw [lift_final]; exact issue_extends _ _ _ _) fun r u _ => ?_
      rw [← Work.capture_s u (fun v bs => memWrite v k bs) r]
      exact ih _ _ _

theorem residualPhase_extends (inp : Option (List Byte)) (nb_byte nb_bit : Nat) (w : Work) :
    Extends w.s (residualPhase inp nb_byte nb_bit w).final.s := by
  unfold residualPhase
  split
  · exact .refl _
  · refine work_bind_extends (by rw [lift_final]; exact issue_extends _ _ _ _) fun r u _ => ?_
    rw [Run.final_done, Work.capture_s]
    exact .refl _

theorem finalPhase_extends (inp : Option (List Byte)) (nb_byte nb_bit : Nat) (isLast : Bool) (w : Work) :
    Extends w.s (finalPhase inp nb_byte nb_bit isLast w).final.s := by
  unfold finalPhase
  split
  · refine work_bind_extends (by rw [lift_final]; exact issue_extends _ _ _ _) fun r u _ => ?_
    simp only [Run.final_done, Work.capture_s]
    exact setTap_extends _ _
  · exact .refl _

theorem shiftPhases_extends (inp : Option (List Byte)) (len : Nat) (isLast : Bool) (xfer : Nat) (w : Work) :
    Extends w.s (shiftPhases inp len isLast xfer w).final.s :=
  work_bind_extends (bytePhase_extends _ _ _ _ _ _) fun _ _ _ =>
    work_bind_extends (residualPhase_extends _ _ _ _) fun _ _ _ => finalPhase_extends _ _ _ _ _

theorem shiftValues_extends (inp out : Option (List Byte)) (al : Bool) (len : Nat) (isLast : Bool) (s : State) :
    Extends s (shiftValues inp out al len isLast s).final.s := by
  unfold shiftValues
  split
  · exact .refl _
  · split
    · refine work_bind_extends ?_ fun _ _ _ => shiftPhases_extends _ _ _ _ _
      rw [lift_final]
      exact (bufSizeAsked_extends s).trans (flushTms_extends true _)
    · exact bufSizeAsked_extends s

theorem windows_extends (m : Nat) (s : State) : Extends s (windows m s).final := by
  induction m generalizing s with
  | zero => exact .refl s
  | succ m ih =>
    have hx := shiftValues_extends (some windowOnes) (some windowZeros) false Config.idcodeWidth (decide (m = 0)) s
    unfold windows
    split
    · next h => rw [h] at hx; exact hx
    · next h => rw [h] at hx; simpa using hx.trans (ih _)

theorem detect_extends (m : Nat) (s : State) : Extends s (detect m s).final :=
  .bind (resetTap_extends s) fun _ _ _ => .bind (moveTo_extends _ _) fun _ _ _ =>
    .bind (windows_extends m _) fun _ _ _ => by simpa using resetTap_extends _

theorem dataCommand_extends (cmd : List Byte) (n : Nat) (r : Bool) (after : State → State) (s : State)
    (h : ∀ u, Extends u (after u)) : Extends s (dataCommand cmd n r after s).final := by
  unfold dataCommand
  split
  · exact .bind (flushTms_extends true s) fun _ _ _ => .bind (issue_extends _ _ _ _) fun _ _ _ => h _
  · exact .refl s

theorem byteDataCommand_extends (payload : Option (List Byte)) (n : Nat) (r : Bool) (s : State) :
    Extends s (byteDataCommand payload n r s).final := by
  unfold byteDataCommand
  split
  · split
    · split
      · exact (bufSizeAsked_extends s).trans (dataCommand_extends _ _ _ _ _ .refl)
      · exact bufSizeAsked_extends s
    · exact bufSizeAsked_extends s
  · exact .refl s

end Sys2Proof.Machine
end

