-- ==== Sys2Proof/Laws/Memory.lean ====
section
/-! SUPPORT. The caller's named vectors: read after write, and every operation keeps the canonical form. -/

namespace Sys2Proof.Machine

open Sys2Proof

/-- The canonical form says: the first entry is not empty, its name lies below every later name, and the rest is
canonical. -/
theorem Memory.wf_cons (a : Nat) (bs : List Byte) (m : Memory) :
    Memory.wf ((a, bs) :: m) = true ↔ bs ≠ [] ∧ (∀ e ∈ m, a < e.1) ∧ Memory.wf m = true := by
  induction m generalizing a bs with
  | nil => simp [Memory.wf]
  | cons e m ih =>
    obtain ⟨b, cs⟩ := e
    simp only [Memory.wf, Bool.and_eq_true, decide_eq_true_eq, List.mem_cons, forall_eq_or_imp]
    constructor
    · rintro ⟨⟨h1, h2⟩, h3⟩
      exact ⟨h1, ⟨h2, fun x hx => h2.trans (((ih b cs).1 h3).2.1 x hx)⟩, h3⟩
    · rintro ⟨h1, ⟨h2, _⟩, h3⟩
      exact ⟨⟨h1, h2⟩, h3⟩

theorem Memory.get_of_below (m : Memory) (n : Nat) (h : ∀ e ∈ m, n < e.1) : m.get n = [] := by
  induction m with
  | nil => rfl
  | cons e m ih =>
    obtain ⟨b, cs⟩ := e
    simp only [List.mem_cons, forall_eq_or_imp] at h
    simp [Memory.get, Nat.ne_of_gt h.1, ih h.2]

/-- A read after a write to the same name gives the value written. -/
theorem Memory.get_set_same (m : Memory) (n : Nat) (v : List Byte) (h : Memory.wf m = true) : (m.set n v).get n = v := by
  induction m with
  | nil => unfold Memory.set; split <;> simp_all [Memory.get]
  | cons e m ih =>
    obtain ⟨a, bs⟩ := e
    obtain ⟨_, h2, h3⟩ := (Memory.wf_cons a bs m).1 h
    unfold Memory.set
    split
    · next hlt =>
      split
      · next hv =>
        rw [hv]
        refine Memory.get_of_below _ _ ?_
        simp only [List.mem_cons, forall_eq_or_imp]
        exact ⟨hlt, fun x hx => hlt.trans (h2 x hx)⟩
      · simp [Memory.get]
    · split
      · next he =>
        split
        · next hv => rw [hv]; exact Memory.get_of_below _ _ fun x hx => he ▸ h2 x hx
        · simp [Memory.get]
      · next hne => simp [Memory.get, hne, ih h3]

/-- A write leaves every other name alone. -/
theorem Memory.get_set_other (m : Memory) (n k : Nat) (v : List Byte) (hk : k ≠ n) : (m.set n v).get k = m.get k := by
  induction m with
  | nil => unfold Memory.set; split <;> simp [Memory.get, Ne.symm hk]
  | cons e m ih =>
    obtain ⟨a, bs⟩ := e
    unfold Memory.set
    split
    · split <;> simp [Memory.get, Ne.symm hk]
    · split
      · next he => subst he; split <;> simp [Memory.get, Ne.symm hk]
      · simp [Memory.get, ih]

theorem Memory.mem_set (m : Memory) (n : Nat) (v : List Byte) (e : Nat × List Byte) (h : e ∈ m.set n v) :
    e.1 = n ∨ e ∈ m := by
  induction m with
  | nil => unfold Memory.set at h; split at h <;> simp_all
  | cons f m ih =>
    obtain ⟨a, bs⟩ := f
    unfold Memory.set at h
    split at h
    · split at h <;> simp_all
      rcases h with h | h | h <;> simp [h]
    · split at h
      · split at h
        · exact .inr (List.mem_cons_of_mem _ h)
        · rcases List.mem_cons.1 h with h | h
          · exact .inl (by rw [h])
          · exact .inr (List.mem_cons_of_mem _ h)
      · rcases List.mem_cons.1 h with h | h
        · exact .inr (by simp [h])
        · rcases ih h with k | k
          · exact .inl k
          · exact .inr (List.mem_cons_of_mem _ k)

/-- A write keeps the canonical form. -/
theorem Memory.set_wf (m : Memory) (n : Nat) (v : List Byte) (h : Memory.wf m = true) : Memory.wf (m.set n v) = true := by
  induction m with
  | nil => unfold Memory.set; split <;> simp_all [Memory.wf]
  | cons e m ih =>
    obtain ⟨a, bs⟩ := e
    obtain ⟨h1, h2, h3⟩ := (Memory.wf_cons a bs m).1 h
    unfold Memory.set
    split
    · next hlt =>
      split
      · exact h
      · next hv =>
        refine (Memory.wf_cons _ _ _).2 ⟨hv, ?_, h⟩
        simp only [List.mem_cons, forall_eq_or_imp]
        exact ⟨hlt, fun x hx => hlt.trans (h2 x hx)⟩
    · split
      · next he =>
        split
        · exact h3
        · next hv => exact (Memory.wf_cons _ _ _).2 ⟨hv, fun x hx => he ▸ h2 x hx, h3⟩
      · next hge hne =>
        refine (Memory.wf_cons _ _ _).2 ⟨h1, fun x hx => ?_, ih h3⟩
        rcases Memory.mem_set m n v x hx with k | k
        · omega
        · exact h2 x k

/-! ### Writing an output vector back -/

theorem putOutput_wf (s : State) (name : Option Nat) (v : Option (List Byte)) (h : Memory.wf s.mem = true) :
    Memory.wf (s.putOutput name v).mem = true := by
  unfold State.putOutput
  split
  · split
    · exact h
    · exact Memory.set_wf _ _ _ h
  · exact h

theorem putOutput_get_same (s : State) (n : Nat) (v : List Byte) (h : Memory.wf s.mem = true) :
    (s.putOutput (some n) (some v)).mem.get n = v := by
  unfold State.putOutput
  dsimp only
  split
  · assumption
  · exact Memory.get_set_same _ _ _ h

theorem putOutput_get_other (s : State) (name : Option Nat) (v : Option (List Byte)) (k : Nat) (hk : name ≠ some k) :
    (s.putOutput name v).mem.get k = s.mem.get k := by
  unfold State.putOutput
  split
  · split
    · rfl
    · exact Memory.get_set_other _ _ _ _ fun e => hk (by rw [e])
  · rfl

@[simp] theorem putOutput_none (s : State) (v : Option (List Byte)) : s.putOutput none v = s := rfl

@[simp] theorem putOutput_sess (s : State) (name : Option Nat) (v : Option (List Byte)) :
    (s.putOutput name v).sess = s.sess := by
  unfold State.putOutput; split <;> [split; skip] <;> rfl

@[simp] theorem putOutput_params (s : State) (name : Option Nat) (v : Option (List Byte)) :
    (s.putOutput name v).params = s.params := by
  unfold State.putOutput; split <;> [split; skip] <;> rfl

@[simp] theorem putOutput_trace (s : State) (name : Option Nat) (v : Option (List Byte)) :
    (s.putOutput name v).trace = s.trace := by
  unfold State.putOutput; split <;> [split; skip] <;> rfl

@[simp] theorem putOutput_tx (s : State) (name : Option Nat) (v : Option (List Byte)) :
    (s.putOutput name v).tx = s.tx := by
  unfold State.putOutput; split <;> [split; skip] <;> rfl

@[simp] theorem putOutput_port (s : State) (name : Option Nat) (v : Option (List Byte)) :
    (s.putOutput name v).port = s.port := by
  unfold State.putOutput; split <;> [split; skip] <;> rfl

@[simp] theorem putOutput_busy (s : State) (name : Option Nat) (v : Option (List Byte)) :
    (s.putOutput name v).busy = s.busy := by
  unfold State.putOutput; split <;> [split; skip] <;> rfl

@[simp] theorem putOutput_response (s : State) (name : Option Nat) (v : Option (List Byte)) :
    (s.putOutput name v).response = s.response := by
  unfold State.putOutput; split <;> [split; skip] <;> rfl

@[simp] theorem putOutput_warnings (s : State) (name : Option Nat) (v : Option (List Byte)) :
    (s.putOutput name v).warnings = s.warnings := by
  unfold State.putOutput; split <;> [split; skip] <;> rfl

end Sys2Proof.Machine
end

