-- ==== Sys2Proof/Laws/Exec.lean ====
section
/-! SUPPORT. What exec can do, said once for all instructions: every meaning is a body served by the port, every body makes
progress in the sense of `Progress`, and `conclude` alone writes the answer. -/

namespace Sys2Proof.Machine

open Sys2Proof

/-- `t` comes from `s` by the work of one request other than SESSION_CREATE. -/
structure Progress (s t : State) : Prop where
  quirk : t.sess.quirk = s.sess.quirk
  refused : t.sess.refused = s.sess.refused
  fault : s.sess.fault = true → t.sess.fault = true
  params : t.params = s.params
  port : t.port = s.port
  busy : t.busy = s.busy
  response : t.response = s.response
  trace : ∃ es, t.trace = s.trace ++ es ∧ readsFollow false es = true
  buffer : 1 ≤ s.params.tmsCapacity → bufferOk s = true → bufferOk t = true
  memory : Memory.wf s.mem = true → Memory.wf t.mem = true

theorem Progress.refl (s : State) : Progress s s :=
  ⟨rfl, rfl, id, rfl, rfl, rfl, rfl, ⟨[], by simp, rfl⟩, fun _ h => h, id⟩

theorem Progress.trans {s t u : State} (h : Progress s t) (k : Progress t u) : Progress s u := by
  obtain ⟨es, he, re⟩ := h.trace
  obtain ⟨fs, hf, rf⟩ := k.trace
  exact ⟨k.quirk.trans h.quirk, k.refused.trans h.refused, fun x => k.fault (h.fault x), k.params.trans h.params,
    k.port.trans h.port, k.busy.trans h.busy, k.response.trans h.response,
    ⟨es ++ fs, by rw [hf, he, List.append_assoc], readsFollow_append es fs false re rf⟩,
    fun c b => k.buffer (by rw [h.params]; exact c) (h.buffer c b), fun m => k.memory (h.memory m)⟩

theorem Extends.progress {s t : State} (h : Extends s t) : Progress s t :=
  ⟨h.quirk, h.refused, h.fault, h.params, h.port, h.busy, h.response, h.trace, h.buffer, fun m => by rw [h.mem]; exact m⟩

theorem putOutput_progress (s : State) (name : Option Nat) (v : Option (List Byte)) : Progress s (s.putOutput name v) :=
  ⟨by simp, by simp, by simp, by simp, by simp, by simp, by simp, ⟨[], by simp, rfl⟩,
    fun _ h => by rw [bufferOk_congr (s := s) (by simp) (by simp) (by simp)]; exact h, putOutput_wf s name v⟩

theorem Progress.bind {α β : Type} {s : State} {x : Run State α} {f : α → State → Run State β}
    (hx : Progress s x.final) (hf : ∀ a u, x = .done a u → Progress u (f a u).final) : Progress s (x.bind f).final := by
  cases x with
  | done a u => exact hx.trans (hf a u rfl)
  | ended w u => exact hx

theorem shiftVectors_progress (input : Option VecArg) (output : Option Nat) (len : Nat) (isLast : Bool) (s : State) :
    Progress s (shiftVectors input output len isLast s).final := by
  simpa [shiftVectors] using (shiftValues_extends _ _ _ _ _ s).progress.trans (putOutput_progress _ _ _)

theorem shiftRegister_progress (x : TapState) (input : Option VecArg) (output : Option Nat) (len : Nat) (e : TapState)
    (s : State) : Progress s (shiftRegister x input output len e s).final := by
  unfold shiftRegister
  split
  · exact .refl s
  · split
    · exact .refl s
    · exact .bind (moveTo_extends _ _).progress fun _ _ _ => .bind (shiftVectors_progress _ _ _ _ _) fun _ _ _ =>
        (moveTo_extends _ _).progress

theorem warn_progress (w : Warning) (s : State) : Progress s (s.warn w) :=
  ⟨rfl, rfl, id, rfl, rfl, rfl, rfl, ⟨[], by simp, rfl⟩, fun _ h => h, id⟩

theorem release_progress (s : State) : Progress s s.release :=
  ⟨rfl, rfl, id, rfl, rfl, rfl, rfl, ⟨[], by simp, rfl⟩, fun _ h => h, id⟩

/-- The release's flush, where its read is reached: the trace ends in a `Flush`. -/
theorem releaseFlush_cases (s : State) : ∃ w, (releaseFlush s).final = { flushed s with warnings := w } := by
  unfold releaseFlush
  split
  · exact ⟨s.warnings, rfl⟩
  · exact ⟨_, rfl⟩
  · exact ⟨s.warnings, rfl⟩

theorem releaseRead_cases (n : Nat) (s : State) : (releaseRead n s).final = s ∨
    ∃ w, (releaseRead n s).final = { readDone n s with warnings := w } := by
  unfold releaseRead
  split
  · exact .inl rfl
  · right
    split
    · exact ⟨s.warnings, rfl⟩
    · exact ⟨_, rfl⟩
    · exact ⟨s.warnings, rfl⟩

theorem releaseSession_progress (s : State) : Progress s (releaseSession s).final := by
  have hf : ∀ u : State, ∀ w, Progress u { flushed u with warnings := w } := fun u w =>
    ⟨rfl, rfl, id, rfl, rfl, rfl, rfl, ⟨[.flush (flushAnswer u)], rfl, rfl⟩, fun _ h => h, id⟩
  have hr : ∀ (u : State) (w v : List Warning) (n : Nat),
      Progress u { readDone n { flushed u with warnings := w } with warnings := v } := fun u w v n =>
    ⟨rfl, rfl, id, rfl, rfl, rfl, rfl,
      ⟨[.flush (flushAnswer u), .read n (readAnswer n { flushed u with warnings := w })], by simp, rfl⟩, fun _ h => h, id⟩
  refine (txSend_extends s.params.teardownCmds s).progress.trans ?_
  unfold releaseSession
  obtain ⟨w, hw⟩ := releaseFlush_cases (txSend s.params.teardownCmds s)
  cases hx : releaseFlush (txSend s.params.teardownCmds s) with
  | ended _ u => rw [hx, Run.final_ended] at hw; subst hw; exact hf _ w
  | done _ u =>
    rw [hx, Run.final_done] at hw
    subst hw
    simp only [Run.bind_done]
    rcases releaseRead_cases (flushed (txSend s.params.teardownCmds s)).params.teardownExpect
        { flushed (txSend s.params.teardownCmds s) with warnings := w } with h | ⟨v, h⟩
    · cases hy : releaseRead (flushed (txSend s.params.teardownCmds s)).params.teardownExpect
          { flushed (txSend s.params.teardownCmds s) with warnings := w } with
      | done _ z =>
        rw [hy, Run.final_done] at h
        subst h
        exact (hf _ w).trans (release_progress _)
      | ended _ z => rw [hy, Run.final_ended] at h; subst h; exact hf _ w
    · cases hy : releaseRead (flushed (txSend s.params.teardownCmds s)).params.teardownExpect
          { flushed (txSend s.params.teardownCmds s) with warnings := w } with
      | done _ z =>
        rw [hy, Run.final_done] at h
        subst h
        exact (hr _ w v _).trans (release_progress _)
      | ended _ z => rw [hy, Run.final_ended] at h; subst h; exact hr _ w v _

theorem live_progress {α : Type} (body : State → Run State α) (s : State) (h : ∀ u, Progress u (body u).final) :
    Progress s (live body s).final := by
  unfold live
  split
  · exact h s
  · exact .refl s

theorem map_progress {α β : Type} {s : State} {x : Run State α} (f : α → β) (h : Progress s x.final) :
    Progress s (x.map f).final := by
  rw [Run.final_map]
  exact h

/-- What each instruction does once the port has taken it. -/
def body (i : Instr) : State → Run State Result :=
  match i with
  | .sessionCreate => fun s => .done Result.none (createSession s)
  | .moveToState target => live fun s => (moveTo target s).map fun _ => Result.none
  | .resetTlr => live fun s => (resetTap s).map fun _ => Result.none
  | .pushTms bit => live fun s => .done Result.none (pushTms bit s)
  | .flush force => live fun s => (flushTms force s).map Result.nat
  | .shift input output length isLast => live fun s => (shiftVectors input output length isLast s).map fun _ => Result.none
  | .shiftIr input output irlen endState =>
    live fun s => (shiftRegister .shiftIr input output irlen endState s).map fun _ => Result.none
  | .shiftIrByte tdi irlen endState => live fun s =>
    if irlen > 8 then raise (.invalidArgument irlen) s
    else (shiftRegister .shiftIr (some (.bytes [tdi])) none irlen endState s).map fun _ => Result.none
  | .shiftDr input output drlen endState =>
    live fun s => (shiftRegister .shiftDr input output drlen endState s).map fun _ => Result.none
  | .detectChain maxDevices => live fun s => (detect maxDevices s).map Result.words
  | .sessionRelease => live fun s => (releaseSession s).map fun _ => Result.none
  | .reservedB => reservedRequest
  | .reservedC => reservedRequest
  | .reservedD => reservedRequest
  | .reservedE => reservedRequest
  | .reservedF => reservedRequest
  | .tms len data => live fun s => if (Instr.tms len data).wf then
      .done Result.none (txSend [tmsOp s.params.opc, len, data] (autoFlush s)) else refuse .malformedCommand s
  | .finalBit len data => live fun s => if (Instr.finalBit len data).wf then
      dataCommand [finalOp s.params.opc false, len, data] 1 false leaveShift s else refuse .malformedCommand s
  | .finalBitRead len data => live fun s => if (Instr.finalBitRead len data).wf then
      dataCommand [finalOp s.params.opc true, len, data] 1 true leaveShift s else refuse .malformedCommand s
  | .bytes len => live (byteDataCommand none (len.toNat + 1) false)
  | .bytesWrite len payload => live fun s => if (Instr.bytesWrite len payload).wf then
      byteDataCommand (some payload) (len.toNat + 1) false s
      else refuse .malformedCommand s
  | .bytesRead len => live (byteDataCommand none (len.toNat + 1) true)
  | .bytesWriteRead len payload => live fun s => if (Instr.bytesWriteRead len payload).wf then
      byteDataCommand (some payload) (len.toNat + 1) true s
      else refuse .malformedCommand s
  | .bits len => live fun s => if (Instr.bits len).wf then
      dataCommand (bitCommand s.params.opc none false (len.toNat + 1)) 1 false id s else refuse .malformedCommand s
  | .bitsWrite len payload => live fun s => if (Instr.bitsWrite len payload).wf then
      dataCommand (bitCommand s.params.opc (some payload) false (len.toNat + 1)) 1 false id s
      else refuse .malformedCommand s
  | .bitsRead len => live fun s => if (Instr.bitsRead len).wf then
      dataCommand (bitCommand s.params.opc none true (len.toNat + 1)) 1 true id s else refuse .malformedCommand s
  | .bitsWriteRead len payload => live fun s => if (Instr.bitsWriteRead len payload).wf then
      dataCommand (bitCommand s.params.opc (some payload) true (len.toNat + 1)) 1 true id s
      else refuse .malformedCommand s

/-- Every meaning is its body, served by the port. -/
theorem exec_eq_serve (i : Instr) (s : State) : exec i s = serve (body i) s := by
  cases i <;> rfl

theorem id_extends (u : State) : Extends u (id u) := .refl u

theorem leaveShift_extends (u : State) : Extends u (leaveShift u) := setTap_extends _ u

theorem guarded_progress (c : Bool) {s : State} {x : Run State Result} (hx : Progress s x.final) :
    Progress s (if c then x else refuse .malformedCommand s).final := by
  cases c
  · exact .refl s
  · exact hx

theorem command_progress (cmd : List Byte) (n : Nat) (r : Bool) (s : State) :
    Progress s (dataCommand cmd n r id s).final := (dataCommand_extends _ _ _ _ s id_extends).progress

theorem byteDataCommand_progress (payload : Option (List Byte)) (n : Nat) (r : Bool) (s : State) :
    Progress s (byteDataCommand payload n r s).final := (byteDataCommand_extends payload n r s).progress

theorem finalCommand_progress (cmd : List Byte) (n : Nat) (r : Bool) (s : State) :
    Progress s (dataCommand cmd n r leaveShift s).final := (dataCommand_extends _ _ _ _ s leaveShift_extends).progress

/-- Every body but SESSION_CREATE's makes progress. -/
theorem body_progress (i : Instr) (h : i ≠ .sessionCreate) (s : State) : Progress s (body i s).final := by
  cases i
  case sessionCreate => exact absurd rfl h
  all_goals dsimp only [body]
  case moveToState target => exact live_progress _ s fun u => map_progress _ (moveTo_extends target u).progress
  case resetTlr => exact live_progress _ s fun u => map_progress _ (resetTap_extends u).progress
  case pushTms b => exact live_progress _ s fun u => (pushTms_extends b u).progress
  case flush f => exact live_progress _ s fun u => map_progress _ (flushTms_extends f u).progress
  case shift a b n l => exact live_progress _ s fun u => map_progress _ (shiftVectors_progress a b n l u)
  case shiftIr a b n e => exact live_progress _ s fun u => map_progress _ (shiftRegister_progress _ a b n e u)
  case shiftIrByte a n e =>
    refine live_progress _ s fun u => ?_
    split
    · exact .refl u
    · exact map_progress _ (shiftRegister_progress _ _ _ n e u)
  case shiftDr a b n e => exact live_progress _ s fun u => map_progress _ (shiftRegister_progress _ a b n e u)
  case detectChain m => exact live_progress _ s fun u => map_progress _ (detect_extends m u).progress
  case sessionRelease => exact live_progress _ s fun u => map_progress _ (releaseSession_progress u)
  case reservedB => exact live_progress _ s fun u => .refl u
  case reservedC => exact live_progress _ s fun u => .refl u
  case reservedD => exact live_progress _ s fun u => .refl u
  case reservedE => exact live_progress _ s fun u => .refl u
  case reservedF => exact live_progress _ s fun u => .refl u
  case tms l d =>
    exact live_progress _ s fun u => guarded_progress _ ((autoFlush_extends u).trans (txSend_extends _ _)).progress
  case finalBit l d => exact live_progress _ s fun u => guarded_progress _ (finalCommand_progress _ _ _ u)
  case finalBitRead l d => exact live_progress _ s fun u => guarded_progress _ (finalCommand_progress _ _ _ u)
  case bytes l => exact live_progress _ s fun u => byteDataCommand_progress _ _ _ u
  case bytesWrite l p => exact live_progress _ s fun u => guarded_progress _ (byteDataCommand_progress _ _ _ u)
  case bytesRead l => exact live_progress _ s fun u => byteDataCommand_progress _ _ _ u
  case bytesWriteRead l p => exact live_progress _ s fun u => guarded_progress _ (byteDataCommand_progress _ _ _ u)
  case bits l => exact live_progress _ s fun u => guarded_progress _ (command_progress _ _ _ u)
  case bitsWrite l p => exact live_progress _ s fun u => guarded_progress _ (command_progress _ _ _ u)
  case bitsRead l => exact live_progress _ s fun u => guarded_progress _ (command_progress _ _ _ u)
  case bitsWriteRead l p => exact live_progress _ s fun u => guarded_progress _ (command_progress _ _ _ u)

/-- What `conclude` writes: the marks of R27 and R235 and the answer, beside what the run wrote. -/
def concluded (x : Run State Result) : State :=
  match x with
  | .done r s => { s with response := some (.result r) }
  | .ended (.error e) s => { s with response := some (.error e) }
  | .ended (.refused r) s => { s.setRefused with response := some (.refused r) }
  | .ended .stuck s => { s with busy := true, response := none }

theorem conclude_eq (x : Run State Result) : conclude x = .next (concluded x) := by
  unfold conclude concluded
  split <;> rfl

/-- exec always answers a next state: refused while another request is in progress, else the body's end. -/
theorem exec_eq (i : Instr) (s : State) : exec i s =
    .next (if s.busy then concluded (refuse .concurrentRequest s) else concluded (body i s)) := by
  rw [exec_eq_serve, serve]
  cases s.busy <;> simp [conclude_eq]

theorem exec_idle (i : Instr) (s : State) (h : s.busy = false) : exec i s = .next (concluded (body i s)) := by
  simp [exec_eq, h]

@[simp] theorem concluded_done (r : Result) (s : State) :
    concluded (.done r s) = { s with response := some (.result r) } := rfl
@[simp] theorem concluded_refused (r : Reason) (s : State) :
    concluded (.ended (.refused r) s) = { s.setRefused with response := some (.refused r) } := rfl
@[simp] theorem concluded_error (e : Error) (s : State) :
    concluded (.ended (.error e) s) = { s with response := some (.error e) } := rfl
@[simp] theorem concluded_stuck (s : State) :
    concluded (.ended .stuck s) = { s with busy := true, response := none } := rfl

theorem concluded_params (x : Run State Result) : (concluded x).params = x.final.params := by
  unfold concluded; split <;> rfl
theorem concluded_mem (x : Run State Result) : (concluded x).mem = x.final.mem := by
  unfold concluded; split <;> rfl
theorem concluded_trace (x : Run State Result) : (concluded x).trace = x.final.trace := by
  unfold concluded; split <;> rfl
theorem concluded_port (x : Run State Result) : (concluded x).port = x.final.port := by
  unfold concluded; split <;> rfl
theorem concluded_warnings (x : Run State Result) : (concluded x).warnings = x.final.warnings := by
  unfold concluded; split <;> rfl
theorem concluded_life (x : Run State Result) : (concluded x).sess.life = x.final.sess.life := by
  unfold concluded; split <;> rfl
theorem concluded_tap (x : Run State Result) : (concluded x).sess.tap = x.final.sess.tap := by
  unfold concluded; split <;> rfl
theorem concluded_quirk (x : Run State Result) : (concluded x).sess.quirk = x.final.sess.quirk := by
  unfold concluded; split <;> rfl
theorem concluded_fault (x : Run State Result) : (concluded x).sess.fault = x.final.sess.fault := by
  unfold concluded; split <;> rfl
theorem concluded_tmsCount (x : Run State Result) : (concluded x).sess.tmsCount = x.final.sess.tmsCount := by
  unfold concluded; split <;> rfl
theorem concluded_tmsBuf (x : Run State Result) : (concluded x).sess.tmsBuf = x.final.sess.tmsBuf := by
  unfold concluded; split <;> rfl
theorem concluded_refused_mono (x : Run State Result) (h : x.final.sess.refused = true) :
    (concluded x).sess.refused = true := by
  unfold concluded; split <;> first | exact h | rfl

end Sys2Proof.Machine
end

