-- ==== Sys2Proof/Laws/Full.lean ====
section
/-! SUPPORT. What the transport's primitives and the multiplexer do while every answer is full. -/

namespace Sys2Proof.Machine

open Sys2Proof

/-- Is the answer full? -/
def Answer.isFull : Answer → Bool
  | .full _ => true
  | .short _ => false
  | .stall => false

theorem Answer.isFull_iff (a : Answer) : a.isFull = true ↔ ∃ d, a = .full d := by
  cases a <;> simp [Answer.isFull]

theorem cooperative_iff (t : Transport) :
    Cooperative t = true ↔ (∀ a ∈ t.script, a.isFull = true) ∧ t.steady.isFull = true := by
  unfold Cooperative
  rw [Bool.and_eq_true, List.all_eq_true]
  constructor
  · rintro ⟨h, k⟩
    exact ⟨fun a m => by have := h a m; cases a <;> simp_all [Answer.isFull], by cases hs : t.steady <;> simp_all [Answer.isFull]⟩
  · rintro ⟨h, k⟩
    exact ⟨fun a m => by have := h a m; cases a <;> simp_all [Answer.isFull], by cases hs : t.steady <;> simp_all [Answer.isFull]⟩

theorem cooperative_answer {t : Transport} (h : Cooperative t = true) : ∃ d, t.answer = .full d := by
  obtain ⟨h, k⟩ := (cooperative_iff t).1 h
  rw [← Answer.isFull_iff]
  unfold Transport.answer
  split
  · exact k
  · next a l e => exact h a (by simp [e])

theorem cooperative_answered {t : Transport} (h : Cooperative t = true) : Cooperative t.answered = true := by
  obtain ⟨h, k⟩ := (cooperative_iff t).1 h
  exact (cooperative_iff _).2 ⟨fun a m => h a (List.mem_of_mem_tail m), k⟩

/-- Only the answers matter to `Cooperative`. -/
theorem cooperative_congr {t u : Transport} (h : u.script = t.script) (k : u.steady = t.steady) :
    Cooperative u = Cooperative t := by
  simp [Cooperative, h, k]

theorem flushAnswer_full {s : State} {d : List Byte} (h : s.tx.answer = .full d) : flushAnswer s = .full [] := by
  simp [flushAnswer, h, Answer.against]

theorem txFlush_full {s : State} {d : List Byte} (h : s.tx.answer = .full d) : txFlush s = .done () (flushed s) := by
  simp [txFlush, flushAnswer_full h]

theorem answerBytes_length (n : Nat) (d : List Byte) (k : Nat) : (answerBytes n d k).length = n := by
  simp [answerBytes]
  omega

theorem answerBytes_full {d : List Byte} {n : Nat} (h : d.length = n) (k : Nat) : answerBytes n d k = d := by
  subst h
  simp [answerBytes]

theorem readAnswer_full {s : State} {d : List Byte} (n : Nat) (h : s.tx.answer = .full d) :
    readAnswer n s = .full (answerBytes n d s.tx.drawn) := by
  simp [readAnswer, h, Answer.against]

/-- A full answer to a read consumes all the bytes asked (R49). -/
theorem readDone_tx_full {s : State} {d : List Byte} (n : Nat) (h : s.tx.answer = .full d) :
    (readDone n s).tx = s.tx.consume n := by
  simp [readAnswer_full n h]

theorem txRead_full {s : State} {d : List Byte} (n : Nat) (h : s.tx.answer = .full d) :
    txRead n s = .done (answerBytes n d s.tx.drawn) (readDone n s) := by
  simp [txRead, readAnswer_full n h]

theorem drainAnswer_full {s : State} {d : List Byte} (n : Nat) (h : s.tx.answer = .full d) :
    drainAnswer n s = .full [] := by
  simp [drainAnswer, h, Answer.against]

/-- A full answer to a drain consumes all the bytes asked (R49). -/
theorem drained_tx_full {s : State} {d : List Byte} (n : Nat) (h : s.tx.answer = .full d) :
    (drained n s).tx = s.tx.consume n := by
  simp [drainAnswer_full n h]

theorem txDrain_full {s : State} {d : List Byte} (n : Nat) (h : s.tx.answer = .full d) :
    txDrain n s = .done () (drained n s) := by
  simp [txDrain, drainAnswer_full n h]

/-- `flush(true)` of pending bits. -/
theorem flushTms_full {s : State} {d : List Byte} (h : s.tx.answer = .full d) :
    flushTms true s = .done s.sess.tmsCount (if s.sess.tmsCount = 0 then s else flushed (sendPending s)) := by
  unfold flushTms
  split
  · next c => simp [c]
  · rw [txFlush_full (s := sendPending s) h]
    simp

/-- The multiplexer with no read, every answer full: the command, and the drain where the quirk flag is set. -/
theorem issue_write {s : State} (cmd : List Byte) (n : Nat) (h : Cooperative s.tx = true) :
    ∃ u, issue cmd n false s = .done none u ∧ u.sess = s.sess ∧ u.params = s.params ∧ u.mem = s.mem ∧
      u.trace = s.trace ++ writeEvents s.sess.quirk (cmd, n) ∧ Cooperative u.tx = true ∧
      u.tx.bufSizes = s.tx.bufSizes ∧ u.tx.bufSize = s.tx.bufSize ∧
      u.tx.drawn = s.tx.drawn + (if s.sess.quirk then n else 0) := by
  by_cases q : s.sess.quirk = true
  · obtain ⟨d, hd⟩ := cooperative_answer h
    obtain ⟨e, he⟩ := cooperative_answer (cooperative_answered h)
    refine ⟨drained n (flushed (txSend cmd s)), ?_, rfl, rfl, rfl, ?_, ?_, rfl, rfl, ?_⟩
    · unfold issue
      rw [if_neg (by simp), if_pos q, txFlush_full (s := txSend cmd s) hd, Run.bind_done,
        txDrain_full (s := flushed (txSend cmd s)) n he, Run.map_done]
    · simp [writeEvents, q, flushAnswer_full (s := txSend cmd s) hd,
        drainAnswer_full (s := flushed (txSend cmd s)) n he]
    · exact cooperative_answered (cooperative_answered h)
    · rw [drained_tx_full (s := flushed (txSend cmd s)) n he]
      simp [q]
  · refine ⟨txSend cmd s, ?_, rfl, rfl, rfl, ?_, h, rfl, rfl, ?_⟩
    · simp [issue, q]
    · simp [writeEvents, q]
    · simp [q]

/-- The multiplexer with a read, the next two answers full. -/
theorem issue_read_full {s : State} {d e : List Byte} (cmd : List Byte) (n : Nat) (hd : s.tx.answer = .full d)
    (he : s.tx.answered.answer = .full e) :
    issue cmd n true s = .done (some (answerBytes n e s.tx.drawn)) (readDone n (flushed (txSend cmd s))) ∧
      (readDone n (flushed (txSend cmd s))).trace
        = s.trace ++ [.send cmd, .flush (.full []), .read n (.full (answerBytes n e s.tx.drawn))] := by
  constructor
  · unfold issue
    rw [if_pos rfl, txFlush_full (s := txSend cmd s) hd, Run.bind_done,
      txRead_full (s := flushed (txSend cmd s)) n he, Run.map_done]
    rfl
  · rw [readDone_trace, readAnswer_full (s := flushed (txSend cmd s)) n he, flushed_trace,
      flushAnswer_full (s := txSend cmd s) hd]
    simp

/-- The multiplexer with a read, every answer full: the command, a flush, and a read of `n` bytes. -/
theorem issue_read {s : State} (cmd : List Byte) (n : Nat) (h : Cooperative s.tx = true) :
    ∃ u bs, issue cmd n true s = .done (some bs) u ∧ bs.length = n ∧ u.sess = s.sess ∧ u.params = s.params ∧
      u.mem = s.mem ∧ u.trace = s.trace ++ [.send cmd, .flush (.full []), .read n (.full bs)] ∧
      Cooperative u.tx = true ∧ u.tx.bufSizes = s.tx.bufSizes ∧ u.tx.bufSize = s.tx.bufSize ∧
      u.tx.drawn = s.tx.drawn + n := by
  obtain ⟨d, hd⟩ := cooperative_answer h
  obtain ⟨e, he⟩ := cooperative_answer (cooperative_answered h)
  obtain ⟨h1, h2⟩ := issue_read_full cmd n hd he
  refine ⟨_, _, h1, answerBytes_length _ _ _, rfl, rfl, rfl, h2, ?_, rfl, rfl, ?_⟩
  · rw [← cooperative_answered (cooperative_answered h)]
    exact cooperative_congr rfl rfl
  · rw [readDone_tx_full (s := flushed (txSend cmd s)) n he]
    rfl

/-! ### Answers that are not full -/

/-- A flush that writes fewer bytes than are queued (R232). -/
theorem txFlush_short {s : State} {n : Nat} (h : s.tx.answer = .short n) (k : n < flushAsked s) :
    flushAnswer s = .short n ∧ txFlush s = .ended (.error (.transport .flush (flushAsked s) n)) (flushed s).setFault := by
  have e : flushAnswer s = .short n := by simp [flushAnswer, h, Answer.against, k]
  exact ⟨e, by simp [txFlush, e, raise]⟩

/-- A flush told to write no fewer bytes than are queued is not short (log 13). -/
theorem txFlush_enough {s : State} {n : Nat} (h : s.tx.answer = .short n) (k : flushAsked s ≤ n) :
    flushAnswer s = .full [] ∧ txFlush s = .done () (flushed s) := by
  have e : flushAnswer s = .full [] := by simp [flushAnswer, h, Answer.against, Nat.not_lt.2 k]
  exact ⟨e, by simp [txFlush, e]⟩

/-- A read that returns fewer bytes than asked (R232). -/
theorem txRead_short {s : State} {n k : Nat} (h : s.tx.answer = .short k) (l : k < n) :
    readAnswer n s = .short k ∧ txRead n s = .ended (.error (.transport .read n k)) (readDone n s).setFault := by
  have e : readAnswer n s = .short k := by simp [readAnswer, h, Answer.against, l]
  exact ⟨e, by simp [txRead, e, raise]⟩

/-! ### A single byte-mode command -/

/-- A byte-mode command that fits the buffer is the data command after its query (R65, R152). -/
theorem byteDataCommand_fits {payload : Option (List Byte)} {n : Nat} {r : Bool} {s : State}
    (ht : isShiftState s.sess.tap = true) (hb : bufSizeOk (bufSizeNow s) = true) (hn : n ≤ bufSizeNow s - 3) :
    byteDataCommand payload n r s = dataCommand (byteCommand s.params.opc payload r n) n r id (bufSizeAsked s) := by
  simp [byteDataCommand, ht, hb, hn]

end Sys2Proof.Machine
end

