-- ==== Sys2Proof/Laws/Packer.lean ====
section
/-! SUPPORT. The packer's bits: what is pending, what was sent, and what a stream of commands clocks. -/

namespace Sys2Proof.Machine

open Sys2Proof

/-! ### The chunks of a flush -/

theorem chunks_cons (fuel : Nat) {bits : List Bool} (h : bits ≠ []) :
    chunks (fuel + 1) bits = bits.take 6 :: chunks fuel (bits.drop 6) := by
  cases bits with
  | nil => exact absurd rfl h
  | cons b bs => rfl

theorem chunks_flatten (fuel : Nat) (bits : List Bool) (h : bits.length ≤ fuel) : (chunks fuel bits).flatten = bits := by
  induction fuel generalizing bits with
  | zero => simp [List.length_eq_zero_iff.1 (Nat.le_zero.1 h), chunks]
  | succ fuel ih =>
    by_cases hb : bits = []
    · simp [hb, chunks]
    · have : 0 < bits.length := List.length_pos_iff.2 hb
      rw [chunks_cons fuel hb, List.flatten_cons, ih _ (by simp; omega), List.take_append_drop]

theorem chunks_small (fuel : Nat) (bits : List Bool) : ∀ c ∈ chunks fuel bits, 1 ≤ c.length ∧ c.length ≤ 6 := by
  induction fuel generalizing bits with
  | zero => simp [chunks]
  | succ fuel ih =>
    by_cases hb : bits = []
    · simp [hb, chunks]
    · have : 0 < bits.length := List.length_pos_iff.2 hb
      rw [chunks_cons fuel hb]
      intro c hc
      rcases List.mem_cons.1 hc with rfl | hc
      · rw [List.length_take]
        omega
      · exact ih _ c hc

/-! ### Pending bits -/

theorem pending_length {s : State} (h : bufferOk s = true) : s.pending.length = s.sess.tmsCount := by
  obtain ⟨h1, h2, -⟩ := (bufferOk_iff s).1 h
  simp [State.pending, h1, h2]

theorem pending_of_zero {s : State} (h : s.sess.tmsCount = 0) : s.pending = [] := by simp [State.pending, h]

theorem pending_appendTms {s : State} (b : Bool) (h : bufferOk s = true) (room : s.sess.tmsCount < s.params.tmsCapacity) :
    (appendTms b s).pending = s.pending ++ [b] := by
  obtain ⟨h1, -, -⟩ := (bufferOk_iff s).1 h
  have hl : s.sess.tmsCount < s.sess.tmsBuf.length := by omega
  simp only [State.pending, appendTms_tmsBuf, appendTms_tmsCount]
  rw [List.take_add_one, List.take_set_of_le (by omega)]
  simp [hl]

/-- From `s` to `t` these bits went through the packer: some left as TMS commands of one to six bits, oldest first, and the
rest are pending. -/
def Packed (bits : List Bool) (s t : State) : Prop :=
  ∃ cs : List (List Bool), (∀ c ∈ cs, 1 ≤ c.length ∧ c.length ≤ 6) ∧
    t.trace = s.trace ++ cs.map (fun c => Event.send (tmsCommand s.params.opc c)) ∧ cs.flatten ++ t.pending = s.pending ++ bits

theorem Packed.refl (s : State) : Packed [] s s := ⟨[], by simp, by simp, by simp⟩

theorem Packed.trans {a b : List Bool} {s t u : State} (h : Packed a s t) (p : t.params = s.params) (k : Packed b t u) :
    Packed (a ++ b) s u := by
  obtain ⟨cs, h1, h2, h3⟩ := h
  obtain ⟨ds, k1, k2, k3⟩ := k
  refine ⟨cs ++ ds, ?_, ?_, ?_⟩
  · intro c hc
    exact (List.mem_append.1 hc).elim (h1 c) (k1 c)
  · rw [k2, h2, p]
    simp
  · rw [List.flatten_append, List.append_assoc, k3, ← List.append_assoc, h3, List.append_assoc]

theorem Packed.congr {a : List Bool} {s t u : State} (h : Packed a s t) (ht : u.trace = t.trace)
    (hb : u.sess.tmsBuf = t.sess.tmsBuf) (hc : u.sess.tmsCount = t.sess.tmsCount) : Packed a s u := by
  obtain ⟨cs, h1, h2, h3⟩ := h
  exact ⟨cs, h1, by rw [ht, h2], by rw [← h3, State.pending, State.pending, hb, hc]⟩

theorem sendPending_packed (s : State) : Packed [] s (sendPending s) :=
  ⟨chunks s.pending.length s.pending, chunks_small _ _, by simp [tmsCommands, Function.comp_def], by
    rw [chunks_flatten _ _ le_rfl, pending_of_zero (s := sendPending s) rfl]⟩

theorem autoFlush_packed (s : State) : Packed [] s (autoFlush s) := by
  unfold autoFlush
  split
  · exact .refl s
  · exact sendPending_packed s

theorem appendTms_packed {s : State} (b : Bool) (h : bufferOk s = true) (room : s.sess.tmsCount < s.params.tmsCapacity) :
    Packed [b] s (appendTms b s) := ⟨[], by simp, by simp, by simp [pending_appendTms b h room]⟩

/-- `pushTmsBit`, with or without its auto-flush (R131, R132). -/
theorem pushTms_packed {s : State} (b : Bool) (hc : 1 ≤ s.params.tmsCapacity) (h : bufferOk s = true) :
    Packed [b] s (pushTms b s) := by
  obtain ⟨-, h2, -⟩ := (bufferOk_iff s).1 h
  unfold pushTms
  split
  · next he =>
    have hz : s.sess.tmsCount ≠ 0 := by omega
    have e : autoFlush s = sendPending s := by simp [autoFlush, hz]
    rw [e]
    refine Packed.trans (a := []) (sendPending_packed s) rfl (appendTms_packed b ((sendPending_extends s).buffer hc h) ?_)
    exact hc
  · exact appendTms_packed b h (by omega)

theorem pushAll_packed (bits : List Bool) {s : State} (hc : 1 ≤ s.params.tmsCapacity) (h : bufferOk s = true) :
    Packed bits s (pushAll bits s) := by
  induction bits generalizing s with
  | nil => exact .refl s
  | cons b bs ih =>
    have e := pushTms_extends b s
    exact Packed.trans (a := [b]) (pushTms_packed b hc h) e.params (ih (by rw [e.params]; exact hc) (e.buffer hc h))

theorem queueEdge_packed {s : State} (b : Bool) (hc : 1 ≤ s.params.tmsCapacity) (h : bufferOk s = true) :
    Packed [b] s (queueEdge b s) := (pushTms_packed b hc h).congr rfl rfl rfl

theorem queuePath_packed (bits : List Bool) {s : State} (hc : 1 ≤ s.params.tmsCapacity) (h : bufferOk s = true) :
    Packed bits s (queuePath bits s) := by
  induction bits generalizing s with
  | nil => exact .refl s
  | cons b bs ih =>
    have e := queueEdge_extends b s
    exact Packed.trans (a := [b]) (queueEdge_packed b hc h) e.params (ih (by rw [e.params]; exact hc) (e.buffer hc h))

theorem pushTms_tap (b : Bool) (s : State) : (pushTms b s).sess.tap = s.sess.tap := by
  unfold pushTms autoFlush
  split
  · split <;> rfl
  · rfl

/-- `S.tap` follows the bits of a path, one edge for each (R101). -/
theorem queuePath_tap (bits : List Bool) (s : State) : (queuePath bits s).sess.tap = walk s.sess.tap bits := by
  induction bits generalizing s with
  | nil => rfl
  | cons b bs ih => rw [queuePath, ih, walk, queueEdge, State.setTap_tap, pushTms_tap]

theorem pushAll_tap (bits : List Bool) (s : State) : (pushAll bits s).sess.tap = s.sess.tap := by
  induction bits generalizing s with
  | nil => rfl
  | cons b bs ih => rw [pushAll, ih, pushTms_tap]

/-- All that pushing bits writes: the buffer, its count and the trace. -/
theorem pushTms_writes (b : Bool) (s : State) : ∃ buf cnt tr,
    pushTms b s = { s with sess := { s.sess with tmsBuf := buf, tmsCount := cnt }, trace := tr } := by
  unfold pushTms autoFlush
  split
  · split
    · exact ⟨_, _, _, rfl⟩
    · exact ⟨_, _, _, rfl⟩
  · exact ⟨_, _, _, rfl⟩

theorem pushAll_writes (bits : List Bool) (s : State) : ∃ buf cnt tr,
    pushAll bits s = { s with sess := { s.sess with tmsBuf := buf, tmsCount := cnt }, trace := tr } := by
  induction bits generalizing s with
  | nil => exact ⟨_, _, _, rfl⟩
  | cons b bs ih =>
    obtain ⟨_, _, _, h⟩ := pushTms_writes b s
    obtain ⟨_, _, _, k⟩ := ih (pushTms b s)
    rw [pushAll, k, h]
    exact ⟨_, _, _, rfl⟩

/-- All that queuing a path writes: those and `S.tap`. -/
theorem queuePath_writes (bits : List Bool) (s : State) : ∃ buf cnt tr, queuePath bits s =
    { s with sess := { s.sess with tap := walk s.sess.tap bits, tmsBuf := buf, tmsCount := cnt }, trace := tr } := by
  suffices h : ∃ tap buf cnt tr,
      queuePath bits s = { s with sess := { s.sess with tap := tap, tmsBuf := buf, tmsCount := cnt }, trace := tr } by
    obtain ⟨tap, buf, cnt, tr, h⟩ := h
    have e := queuePath_tap bits s
    rw [h] at e
    exact ⟨buf, cnt, tr, by rw [h, ← e]⟩
  induction bits generalizing s with
  | nil => exact ⟨_, _, _, _, rfl⟩
  | cons b bs ih =>
    obtain ⟨_, _, _, h⟩ := pushTms_writes b s
    obtain ⟨_, _, _, _, k⟩ := ih (queueEdge b s)
    rw [queuePath, k, queueEdge, h]
    exact ⟨_, _, _, _, rfl⟩

/-- The path of R107 ends in its target. -/
theorem walk_path (c t : TapState) : walk c (path c t) = t := by
  cases c <;> cases t <;> rfl

theorem walk_append (t : TapState) (a b : List Bool) : walk t (a ++ b) = walk (walk t a) b := by
  induction a generalizing t with
  | nil => rfl
  | cons x xs ih => exact ih (delta t x)

/-! ### The stream read back -/

/-- The bits of a chunk stand in its data byte, the first in bit 0. -/
theorem packBits_getLsbD (bits : List Bool) (h : bits.length ≤ 8) (i : Nat) :
    (packBits bits).getLsbD i = bits.getD i false := by
  induction bits generalizing i with
  | nil => simp [packBits]
  | cons b bs ih =>
    have hb : bs.length ≤ 8 := by simp at h; omega
    cases i with
    | zero => cases b <;> simp [packBits]
    | succ i =>
      have e := ih hb i
      by_cases hi : i + 1 < 8
      · have : (if b then (1 : Byte) else 0).getLsbD (i + 1) = false := by cases b <;> simp
        rw [packBits, BitVec.getLsbD_or, this, BitVec.getLsbD_shiftLeft]
        simp [hi, e]
      · have : bs[i]?.getD false = false := by
          rw [List.getElem?_eq_none (by simp at h; omega)]
          rfl
        rw [BitVec.getLsbD_of_ge _ _ (by omega)]
        simp [this]

/-- The levels a TMS command clocks are its chunk (R64, R134). -/
theorem tmsLevels_chunk (chunk : List Bool) (level : Bool) (h1 : 1 ≤ chunk.length) (h6 : chunk.length ≤ 6) :
    ({ kind := .tmsLine false, rest := [BitVec.ofNat 8 (chunk.length - 1), 0x80 ||| packBits chunk] } : StreamCommand).tmsLevels
      level = chunk := by
  have hp : (BitVec.ofNat 8 (chunk.length - 1)).toNat + 1 = chunk.length := by
    rw [BitVec.toNat_ofNat, Nat.mod_eq_of_lt (by omega)]
    omega
  simp only [StreamCommand.tmsLevels, StreamCommand.pulses, vecByte, List.getD_cons_zero, List.getD_cons_succ, hp]
  apply List.ext_getElem
  · simp
  · intro i hi _
    have hl : i < chunk.length := by simpa using hi
    rw [List.getElem_map, List.getElem_range, BitVec.getLsbD_or, packBits_getLsbD _ (by omega)]
    have h80 : (0x80 : Byte).getLsbD i = false := by
      have : i < 6 := by omega
      interval_cases i <;> rfl
    rw [h80, Bool.false_or, List.getD_eq_getElem?_getD, List.getElem?_eq_getElem hl]
    rfl

/-- More fuel than bytes reads no more. -/
theorem readStream_fuel (o : Opc) (n m : Nat) (bytes : List Byte) (hn : bytes.length ≤ n) (hm : bytes.length ≤ m) :
    readStream o n bytes = readStream o m bytes := by
  induction n generalizing m bytes with
  | zero =>
    have : bytes = [] := List.length_eq_zero_iff.1 (Nat.le_zero.1 hn)
    subst this
    cases m <;> rfl
  | succ n ih =>
    cases bytes with
    | nil => cases m <;> rfl
    | cons op rest =>
      cases m with
      | zero => simp at hm
      | succ m =>
        simp only [List.length_cons, Nat.add_le_add_iff_right] at hn hm
        simp only [readStream]
        split
        · rfl
        · rw [ih m _ (by simp; omega) (by simp; omega)]

theorem commandsOf_cons (o : Opc) (op : Byte) (rest more : List Byte) (k : CommandKind)
    (hk : CommandKind.ofOpcode o op = some k) (hl : k.length (rest ++ more) = rest.length + 1) :
    commandsOf o ((op :: rest) ++ more) = { kind := k, rest := rest } :: commandsOf o more := by
  unfold commandsOf
  simp only [List.cons_append, List.length_cons, readStream, hk, hl, Nat.add_sub_cancel, List.take_left', List.drop_left']
  rw [readStream_fuel o _ more.length more (by simp) le_rfl]

/-- The TMS commands of these chunks, then more: the stream reads back as those commands, then the rest. -/
theorem commandsOf_tms {o : Opc} (h : o.wf = true) (cs : List (List Bool)) (more : List Byte) :
    commandsOf o ((cs.map (tmsCommand o)).flatten ++ more) = cs.map (fun c =>
      ({ kind := .tmsLine false, rest := [BitVec.ofNat 8 (c.length - 1), 0x80 ||| packBits c] } : StreamCommand))
        ++ commandsOf o more := by
  induction cs with
  | nil => rfl
  | cons c cs ih =>
    rw [List.map_cons, List.flatten_cons, List.append_assoc, List.map_cons, List.cons_append, ← ih]
    exact commandsOf_cons o (tmsOp o) _ _ (.tmsLine false) (CommandKind.ofOpcode_opcode h (.tmsLine false)) rfl

/-- What TMS commands ask of a target: it walks their bits (R264). -/
theorem streamOf_tms (o : Opc) (cs : List (List Bool)) :
    streamOf (cs.map fun c => Event.send (tmsCommand o c)) = (cs.map (tmsCommand o)).flatten := by
  induction cs with
  | nil => rfl
  | cons c cs ih =>
    rw [List.map_cons, List.map_cons, List.flatten_cons, ← ih]
    rfl

/-- The levels that the TMS commands of these chunks clock, whatever follows that sends nothing. -/
theorem streamTms_tms {o : Opc} (h : o.wf = true) (cs : List (List Bool)) (hc : ∀ c ∈ cs, 1 ≤ c.length ∧ c.length ≤ 6)
    {es : List Event} (he : streamOf es = []) :
    streamTms o (cs.map (fun c => Event.send (tmsCommand o c)) ++ es) = cs.flatten := by
  have e : streamOf (cs.map (fun c => Event.send (tmsCommand o c)) ++ es) = (cs.map (tmsCommand o)).flatten ++ [] := by
    rw [streamOf, List.flatMap_append, ← streamOf, ← streamOf, streamOf_tms, he]
  rw [streamTms, e, commandsOf_tms h, show commandsOf o [] = [] from rfl, List.append_nil]
  clear e
  induction cs with
  | nil => rfl
  | cons c cs ih =>
    rw [List.map_cons, List.flatMap_cons, List.flatten_cons, ih fun x m => hc x (List.mem_cons_of_mem _ m),
      tmsLevels_chunk c false (hc c List.mem_cons_self).1 (hc c List.mem_cons_self).2]

/-- What the TMS commands of these chunks do to a target's TAP. -/
theorem target_tms {o : Opc} (h : o.wf = true) (cs : List (List Bool)) (hc : ∀ c ∈ cs, 1 ≤ c.length ∧ c.length ≤ 6)
    (more : List Byte) (t : Target) :
    Target.run o ((cs.map (tmsCommand o)).flatten ++ more) t =
      Target.run o more { tap := walk t.tap cs.flatten, level := cs.flatten.getLastD t.level } := by
  rw [Target.run, commandsOf_tms h, List.foldl_append, ← Target.run]
  congr 1
  induction cs generalizing t with
  | nil => rfl
  | cons c cs ih =>
    have e := tmsLevels_chunk c t.level (hc c List.mem_cons_self).1 (hc c List.mem_cons_self).2
    have hne : c ≠ [] := by
      rintro rfl
      simpa using (hc [] List.mem_cons_self).1
    rw [List.map_cons, List.foldl_cons, ih (fun x m => hc x (List.mem_cons_of_mem _ m))]
    simp only [Target.clock, e, List.flatten_cons, walk_append]
    congr 1
    cases hcs : cs.flatten with
    | nil => simp
    | cons x xs => simp [List.getLastD_eq_getLast?]

end Sys2Proof.Machine
end

