-- ==== Sys2Proof/Laws/PerInstr.lean ====
section
/-! SUPPORT. Statements made of every instruction, one lemma for each constructor. -/

namespace Sys2Proof.Laws

open Sys2Proof

/-- The number the opcode table gives the instruction's row: a request code (R62) or an opcode byte (R70). -/
def RowCode.number : Instr → Nat
  | .sessionCreate => 0x0
  | .moveToState _ => 0x1
  | .resetTlr => 0x2
  | .pushTms _ => 0x3
  | .flush _ => 0x4
  | .shift _ _ _ _ => 0x5
  | .shiftIr _ _ _ _ => 0x6
  | .shiftIrByte _ _ _ => 0x7
  | .shiftDr _ _ _ _ => 0x8
  | .detectChain _ => 0x9
  | .sessionRelease => 0xA
  | .reservedB => 0xB
  | .reservedC => 0xC
  | .reservedD => 0xD
  | .reservedE => 0xE
  | .reservedF => 0xF
  | .tms _ _ => 0x4B
  | .finalBit _ _ => 0x4B
  | .finalBitRead _ _ => 0x6B
  | .bytes _ => 0x09
  | .bytesWrite _ _ => 0x19
  | .bytesRead _ => 0x29
  | .bytesWriteRead _ _ => 0x39
  | .bits _ => 0x0B
  | .bitsWrite _ _ => 0x1B
  | .bitsRead _ => 0x2B
  | .bitsWriteRead _ _ => 0x3B

/-- The number an item of the port starts with: its request code or its opcode byte. -/
def RowCode.leading : PortItem → Nat
  | .request code _ => code.toNat
  | .command _ bytes => (bytes.headD 0).toNat

/-- The encoder starts an instruction, whatever its operands, with its row's number in the opcode table. -/
def RowCode.Statement (i : Instr) : Prop := RowCode.leading (encode Opc.default i) = RowCode.number i

theorem RowCode.sessionCreate : RowCode.Statement .sessionCreate := rfl
theorem RowCode.moveToState (target : TapState) : RowCode.Statement (.moveToState target) := rfl
theorem RowCode.resetTlr : RowCode.Statement .resetTlr := rfl
theorem RowCode.pushTms (bit : Bool) : RowCode.Statement (.pushTms bit) := rfl
theorem RowCode.flush (force : Bool) : RowCode.Statement (.flush force) := rfl
theorem RowCode.shift (input : Option VecArg) (output : Option Nat) (length : Nat) (isLast : Bool) :
    RowCode.Statement (.shift input output length isLast) := rfl
theorem RowCode.shiftIr (input : Option VecArg) (output : Option Nat) (irlen : Nat) (endState : TapState) :
    RowCode.Statement (.shiftIr input output irlen endState) := rfl
theorem RowCode.shiftIrByte (tdi : Byte) (irlen : Nat) (endState : TapState) :
    RowCode.Statement (.shiftIrByte tdi irlen endState) := rfl
theorem RowCode.shiftDr (input : Option VecArg) (output : Option Nat) (drlen : Nat) (endState : TapState) :
    RowCode.Statement (.shiftDr input output drlen endState) := rfl
theorem RowCode.detectChain (maxDevices : Nat) : RowCode.Statement (.detectChain maxDevices) := rfl
theorem RowCode.sessionRelease : RowCode.Statement .sessionRelease := rfl
theorem RowCode.reservedB : RowCode.Statement .reservedB := rfl
theorem RowCode.reservedC : RowCode.Statement .reservedC := rfl
theorem RowCode.reservedD : RowCode.Statement .reservedD := rfl
theorem RowCode.reservedE : RowCode.Statement .reservedE := rfl
theorem RowCode.reservedF : RowCode.Statement .reservedF := rfl
theorem RowCode.tms (len : Byte) (data : Byte) : RowCode.Statement (.tms len data) := rfl
theorem RowCode.finalBit (len : Byte) (data : Byte) : RowCode.Statement (.finalBit len data) := rfl
theorem RowCode.finalBitRead (len : Byte) (data : Byte) : RowCode.Statement (.finalBitRead len data) := rfl
theorem RowCode.bytes (len : BitVec 16) : RowCode.Statement (.bytes len) := rfl
theorem RowCode.bytesWrite (len : BitVec 16) (payload : List Byte) : RowCode.Statement (.bytesWrite len payload) := rfl
theorem RowCode.bytesRead (len : BitVec 16) : RowCode.Statement (.bytesRead len) := rfl
theorem RowCode.bytesWriteRead (len : BitVec 16) (payload : List Byte) :
    RowCode.Statement (.bytesWriteRead len payload) := rfl
theorem RowCode.bits (len : Byte) : RowCode.Statement (.bits len) := rfl
theorem RowCode.bitsWrite (len : Byte) (payload : Byte) : RowCode.Statement (.bitsWrite len payload) := rfl
theorem RowCode.bitsRead (len : Byte) : RowCode.Statement (.bitsRead len) := rfl
theorem RowCode.bitsWriteRead (len : Byte) (payload : Byte) : RowCode.Statement (.bitsWriteRead len payload) := rfl

end Sys2Proof.Laws
end

