-- ==== Sys2Proof/Laws/Stops.lean ====
section
/-! SUPPORT. How an operation of the core can stop early: what a TransportError and a stall leave, and that nothing but the
checks of a shift refuses. -/

namespace Sys2Proof.Machine

open Sys2Proof

/-- The last event of the trace is a stall. -/
def LastStall (s : State) : Prop :=
  s.trace.getLast? = some (.flush .stall) ∨ (∃ n, s.trace.getLast? = some (.read n .stall)) ∨
    ∃ n, s.trace.getLast? = some (.drain n .stall)

/-- The last event of the trace is the short answer that this error records. -/
def LastShort (e : Error) (s : State) : Prop :=
  ∃ (p : Primitive) (asked n : Nat), e = .transport p asked n ∧ n < asked ∧
    (s.trace.getLast? = some (.flush (.short n)) ∨ s.trace.getLast? = some (.read asked (.short n)) ∨
      s.trace.getLast? = some (.drain asked (.short n)))

/-- A run that stops early stops at a short answer or at a stall, or is refused where `mayRefuse` says so. -/
def StopsAt {α : Type} (mayRefuse : Prop) : Run State α → Prop
  | .done _ _ => True
  | .ended (.error e) u => u.sess.fault = true ∧ LastShort e u
  | .ended (.refused _) _ => mayRefuse
  | .ended .stuck u => LastStall u

theorem StopsAt.bind {α β : Type} {m : Prop} {x : Run State α} {f : α → State → Run State β} (hx : StopsAt m x)
    (hf : ∀ a u, x = .done a u → StopsAt m (f a u)) : StopsAt m (x.bind f) := by
  cases x with
  | done a u => exact hf a u rfl
  | ended w u => cases w <;> exact hx

theorem StopsAt.map {α β : Type} {m : Prop} {x : Run State α} (f : α → β) (hx : StopsAt m x) : StopsAt m (x.map f) := by
  cases x with
  | done a u => trivial
  | ended w u => cases w <;> exact hx

theorem StopsAt.mono {α : Type} {m k : Prop} {x : Run State α} (h : m → k) (hx : StopsAt m x) : StopsAt k x := by
  cases x with
  | done a u => trivial
  | ended w u => cases w <;> first | exact h hx | exact hx

theorem against_short {a : Answer} {asked n : Nat} (h : a.against asked = .short n) : n < asked := by
  unfold Answer.against at h
  split at h
  · cases h
  · split at h <;> cases h; assumption
  · cases h

theorem flushAnswer_short {s : State} {n : Nat} (h : flushAnswer s = .short n) : n < flushAsked s := by
  unfold flushAnswer at h
  split at h <;> cases h
  exact against_short ‹_›

theorem readAnswer_short {s : State} {n k : Nat} (h : readAnswer n s = .short k) : k < n := by
  unfold readAnswer at h
  split at h <;> cases h
  exact against_short ‹_›

theorem drainAnswer_short {s : State} {n k : Nat} (h : drainAnswer n s = .short k) : k < n := by
  unfold drainAnswer at h
  split at h <;> cases h
  exact against_short ‹_›

theorem txFlush_stops (m : Prop) (s : State) : StopsAt m (txFlush s) := by
  unfold txFlush
  split
  · trivial
  · next n h => exact ⟨rfl, .flush, _, n, rfl, flushAnswer_short h, .inl (by simp [h])⟩
  · next h => exact .inl (by simp [h])

theorem txRead_stops (m : Prop) (n : Nat) (s : State) : StopsAt m (txRead n s) := by
  unfold txRead
  split
  · trivial
  · next k h => exact ⟨rfl, .read, _, k, rfl, readAnswer_short h, .inr (.inl (by simp [h]))⟩
  · next h => exact .inr (.inl ⟨n, by simp [h]⟩)

theorem txDrain_stops (m : Prop) (n : Nat) (s : State) : StopsAt m (txDrain n s) := by
  unfold txDrain
  split
  · trivial
  · next k h => exact ⟨rfl, .drain, _, k, rfl, drainAnswer_short h, .inr (.inr (by simp [h]))⟩
  · next h => exact .inr (.inr ⟨n, by simp [h]⟩)

theorem flushTms_stops (m : Prop) (force : Bool) (s : State) : StopsAt m (flushTms force s) := by
  unfold flushTms
  split
  · trivial
  · split
    · exact (txFlush_stops m _).map _
    · trivial

theorem moveTo_stops (m : Prop) (t : TapState) (s : State) : StopsAt m (moveTo t s) := (flushTms_stops m true _).map _

theorem resetTap_stops (m : Prop) (s : State) : StopsAt m (resetTap s) := (flushTms_stops m true _).map _

theorem issue_stops (m : Prop) (cmd : List Byte) (n : Nat) (r : Bool) (s : State) : StopsAt m (issue cmd n r s) := by
  unfold issue
  split
  · exact .bind (txFlush_stops m _) fun _ _ _ => (txRead_stops m n _).map _
  · split
    · exact .bind (txFlush_stops m _) fun _ _ _ => (txDrain_stops m n _).map _
    · trivial

/-! ### The shifter: a stop also leaves `S.tap` -/

/-- The same of a run inside a shift; one that stops early has not moved `S.tap` from `tap`. -/
def WorkStops {α : Type} (mayRefuse : Prop) (tap : TapState) : Run Work α → Prop
  | .done _ _ => True
  | .ended (.error e) w => w.s.sess.fault = true ∧ LastShort e w.s ∧ w.s.sess.tap = tap
  | .ended (.refused _) w => mayRefuse ∧ w.s.sess.tap = tap
  | .ended .stuck w => LastStall w.s ∧ w.s.sess.tap = tap

theorem WorkStops.bind {α β : Type} {m : Prop} {tap : TapState} {x : Run Work α} {f : α → Work → Run Work β}
    (hx : WorkStops m tap x) (hf : ∀ a w, x = .done a w → WorkStops m tap (f a w)) : WorkStops m tap (x.bind f) := by
  cases x with
  | done a u => exact hf a u rfl
  | ended w u => cases w <;> exact hx

theorem WorkStops.lift {α : Type} {m : Prop} {tap : TapState} {x : Run State α} (w : Work) (hx : StopsAt m x)
    (ht : x.final.sess.tap = tap) : WorkStops m tap (w.lift x) := by
  cases x with
  | done a u => trivial
  | ended e u => cases e <;> first | exact ⟨hx, ht⟩ | exact ⟨hx.1, hx.2, ht⟩

theorem txFlush_tap (s : State) : (txFlush s).final.sess.tap = s.sess.tap := by
  unfold txFlush
  split <;> rfl

theorem flushTms_tap (force : Bool) (s : State) : (flushTms force s).final.sess.tap = s.sess.tap := by
  unfold flushTms
  split
  · rfl
  · split
    · rw [Run.final_map, txFlush_tap]; rfl
    · rfl

theorem tap_bind {α β : Type} {s : State} {x : Run State α} {f : α → State → Run State β}
    (hx : x.final.sess.tap = s.sess.tap) (hf : ∀ a u, x = .done a u → (f a u).final.sess.tap = u.sess.tap) :
    (x.bind f).final.sess.tap = s.sess.tap := by
  cases x with
  | done a u => exact (hf a u rfl).trans hx
  | ended w u => exact hx

theorem txRead_tap (n : Nat) (s : State) : (txRead n s).final.sess.tap = s.sess.tap := by
  unfold txRead
  split <;> rfl

theorem txDrain_tap (n : Nat) (s : State) : (txDrain n s).final.sess.tap = s.sess.tap := by
  unfold txDrain
  split <;> rfl

theorem issue_tap (cmd : List Byte) (n : Nat) (r : Bool) (s : State) : (issue cmd n r s).final.sess.tap = s.sess.tap := by
  unfold issue
  split
  · exact tap_bind (s := s) (txFlush_tap _) fun _ _ _ => by rw [Run.final_map, txRead_tap]
  · split
    · exact tap_bind (s := s) (txFlush_tap _) fun _ _ _ => by rw [Run.final_map, txDrain_tap]
    · rfl

theorem lift_done {α : Type} {w u : Work} {x : Run State α} {a : α} (h : w.lift x = .done a u) :
    x = .done a u.s ∧ u.out = w.out := by
  cases x with
  | done b v => cases h; exact ⟨rfl, rfl⟩
  | ended e v => cases h

theorem issue_done_tap {cmd : List Byte} {n : Nat} {r : Bool} {s u : State} {b : Option (List Byte)}
    (h : issue cmd n r s = .done b u) : u.sess.tap = s.sess.tap := by
  have := issue_tap cmd n r s
  rwa [h] at this

theorem bytePhase_stops (m : Prop) (inp : Option (List Byte)) (xfer fuel k rem : Nat) (w : Work) :
    WorkStops m w.s.sess.tap (bytePhase inp xfer fuel k rem w) := by
  induction fuel generalizing k rem w with
  | zero => trivial
  | succ fuel ih =>
    unfold bytePhase
    split
    · trivial
    · refine .bind (.lift w (issue_stops m _ _ _ _) (issue_tap _ _ _ _)) fun r u hu => ?_
      have := ih (k + min rem xfer) (rem - min rem xfer) (u.capture (fun v bs => memWrite v k bs) r)
      rwa [Work.capture_s, issue_done_tap (lift_done hu).1] at this

theorem bytePhase_tap (inp : Option (List Byte)) (xfer fuel k rem : Nat) (w : Work) :
    (bytePhase inp xfer fuel k rem w).final.s.sess.tap = w.s.sess.tap := by
  induction fuel generalizing k rem w with
  | zero => rfl
  | succ fuel ih =>
    unfold bytePhase
    split
    · rfl
    · cases hx : w.lift (issue (byteCommand w.s.params.opc (inp.map fun v => memRead v k (min rem xfer)) w.out.isSome
          (min rem xfer)) (min rem xfer) w.out.isSome w.s) with
      | done r u => rw [Run.bind_done, ih, Work.capture_s, issue_done_tap (lift_done hx).1]
      | ended e u =>
        rw [Run.bind_ended, Run.final_ended, ← Run.final_ended (α := Option (List Byte)) e u, ← hx, lift_final, issue_tap]

theorem residualPhase_stops (m : Prop) (inp : Option (List Byte)) (nb_byte nb_bit : Nat) (w : Work) :
    WorkStops m w.s.sess.tap (residualPhase inp nb_byte nb_bit w) := by
  unfold residualPhase
  split
  · trivial
  · exact .bind (.lift w (issue_stops m _ _ _ _) (issue_tap _ _ _ _)) fun _ _ _ => trivial

theorem residualPhase_tap (inp : Option (List Byte)) (nb_byte nb_bit : Nat) (w : Work) :
    (residualPhase inp nb_byte nb_bit w).final.s.sess.tap = w.s.sess.tap := by
  unfold residualPhase
  split
  · rfl
  · cases hx : w.lift (issue (bitCommand w.s.params.opc (inp.map fun v => vecByte v nb_byte) w.out.isSome nb_bit) 1
        w.out.isSome w.s) with
    | done r u => rw [Run.bind_done, Run.final_done, Work.capture_s, issue_done_tap (lift_done hx).1]
    | ended e u =>
      rw [Run.bind_ended, Run.final_ended, ← Run.final_ended (α := Option (List Byte)) e u, ← hx, lift_final, issue_tap]

theorem finalPhase_stops (m : Prop) (inp : Option (List Byte)) (nb_byte nb_bit : Nat) (isLast : Bool) (w : Work) :
    WorkStops m w.s.sess.tap (finalPhase inp nb_byte nb_bit isLast w) := by
  unfold finalPhase
  split
  · exact .bind (.lift w (issue_stops m _ _ _ _) (issue_tap _ _ _ _)) fun _ _ _ => trivial
  · trivial

theorem shiftPhases_stops (m : Prop) (inp : Option (List Byte)) (len : Nat) (isLast : Bool) (xfer : Nat) (w : Work) :
    WorkStops m w.s.sess.tap (shiftPhases inp len isLast xfer w) := by
  refine .bind (bytePhase_stops m _ _ _ _ _ _) fun _ u hu => ?_
  have h1 : u.s.sess.tap = w.s.sess.tap := by
    have := bytePhase_tap inp xfer (nbByte len isLast) 0 (nbByte len isLast) w
    rwa [hu] at this
  rw [← h1]
  refine .bind (residualPhase_stops m _ _ _ _) fun _ v hv => ?_
  have h2 : v.s.sess.tap = u.s.sess.tap := by
    have := residualPhase_tap inp (nbByte len isLast) (nbBit len isLast) u
    rwa [hv] at this
  rw [← h2]
  exact finalPhase_stops m _ _ _ _ _

theorem shiftValues_stops (inp out : Option (List Byte)) (al : Bool) (len : Nat) (isLast : Bool) (s : State) :
    WorkStops True s.sess.tap (shiftValues inp out al len isLast s) := by
  unfold shiftValues
  split
  · exact ⟨trivial, rfl⟩
  · split
    · refine .bind (.lift _ (flushTms_stops True true _) (flushTms_tap _ _)) fun _ u hu => ?_
      have := flushTms_tap true (bufSizeAsked s)
      rw [(lift_done hu).1] at this
      have h : u.s.sess.tap = s.sess.tap := this
      rw [← h]
      exact shiftPhases_stops True _ _ _ _ _
    · exact ⟨trivial, rfl⟩

theorem shiftVectors_stops (input : Option VecArg) (output : Option Nat) (len : Nat) (isLast : Bool) (s : State) :
    StopsAt True (shiftVectors input output len isLast s) := by
  have h := shiftValues_stops (s.input input) (s.output output) (sameStorage input output) len isLast s
  unfold shiftVectors
  cases hx : shiftValues (s.input input) (s.output output) (sameStorage input output) len isLast s with
  | done _ _ => trivial
  | ended e w =>
    rw [hx] at h
    cases e with
    | error e =>
      exact ⟨by simpa using h.1, by simpa [LastShort] using h.2.1⟩
    | refused r => trivial
    | stuck => simpa [LastStall, StopsAt] using h.1

theorem shiftRegister_stops (x : TapState) (input : Option VecArg) (output : Option Nat) (len : Nat) (e : TapState)
    (s : State) : StopsAt True (shiftRegister x input output len e s) := by
  unfold shiftRegister
  split
  · trivial
  · split
    · trivial
    · exact .bind (moveTo_stops _ _ _) fun _ _ _ => .bind (shiftVectors_stops _ _ _ _ _) fun _ _ _ => moveTo_stops _ _ _

theorem windows_stops (m : Nat) (s : State) : StopsAt True (windows m s) := by
  induction m generalizing s with
  | zero => trivial
  | succ m ih =>
    have h := shiftValues_stops (some windowOnes) (some windowZeros) false Config.idcodeWidth (decide (m = 0)) s
    unfold windows
    split
    · next e w hx =>
      rw [hx] at h
      cases e with
      | error e => exact ⟨h.1, h.2.1⟩
      | refused r => trivial
      | stuck => exact h.1
    · exact (ih _).map _

theorem detect_stops (m : Nat) (s : State) : StopsAt True (detect m s) :=
  .bind (resetTap_stops _ _) fun _ _ _ => .bind (moveTo_stops _ _ _) fun _ _ _ =>
    .bind (windows_stops _ _) fun _ _ _ => (resetTap_stops _ _).map _

theorem dataCommand_stops (cmd : List Byte) (n : Nat) (r : Bool) (after : State → State) (s : State) :
    StopsAt True (dataCommand cmd n r after s) := by
  unfold dataCommand
  split
  · exact .bind (flushTms_stops _ _ _) fun _ _ _ => .bind (issue_stops _ _ _ _ _) fun _ _ _ => trivial
  · trivial

theorem byteDataCommand_stops (payload : Option (List Byte)) (n : Nat) (r : Bool) (s : State) :
    StopsAt True (byteDataCommand payload n r s) := by
  unfold byteDataCommand
  split
  · split
    · split
      · exact dataCommand_stops _ _ _ _ _
      · trivial
    · trivial
  · trivial

end Sys2Proof.Machine
end

