-- ==== Sys2Proof/Laws/Quiet.lean ====
section
/-! SUPPORT. Where the answers that are not full stand among the events of a request: every event before the one that ends it
is quiet. `StopsAt` says what the last event of a request that ends early is; this says that no other is like it. -/

namespace Sys2Proof.Machine

open Sys2Proof

/-- A kind of event that no command, no query and no full answer is of: `Event.stalled` and `Event.cutShort` are two. -/
structure Loud (p : Event → Bool) : Prop where
  send : ∀ bs, p (.send bs) = false
  flush : ∀ d, p (.flush (.full d)) = false
  read : ∀ n d, p (.read n (.full d)) = false
  drain : ∀ n d, p (.drain n (.full d)) = false
  bufSize : ∀ b, p (.bufSize b) = false
  product : ∀ x, p (.product x) = false

theorem loud_stalled : Loud Event.stalled :=
  ⟨fun _ => rfl, fun _ => rfl, fun _ _ => rfl, fun _ _ => rfl, fun _ => rfl, fun _ => rfl⟩

theorem loud_cutShort : Loud Event.cutShort :=
  ⟨fun _ => rfl, fun _ => rfl, fun _ _ => rfl, fun _ _ => rfl, fun _ => rfl, fun _ => rfl⟩

/-- From `s` to `t` only quiet events were recorded. -/
def QuietTo (p : Event → Bool) (s t : State) : Prop := ∃ es, t.trace = s.trace ++ es ∧ ∀ e ∈ es, p e = false

theorem QuietTo.refl (p : Event → Bool) (s : State) : QuietTo p s s := ⟨[], by simp, by simp⟩

theorem QuietTo.trans {p : Event → Bool} {s t u : State} (h : QuietTo p s t) (k : QuietTo p t u) : QuietTo p s u := by
  obtain ⟨es, he, qe⟩ := h
  obtain ⟨fs, hf, qf⟩ := k
  exact ⟨es ++ fs, by rw [hf, he, List.append_assoc], fun e m => (List.mem_append.1 m).elim (qe e) (qf e)⟩

theorem QuietTo.same {p : Event → Bool} {s t : State} (h : t.trace = s.trace) : QuietTo p s t := ⟨[], by simp [h], by simp⟩

theorem QuietTo.one {p : Event → Bool} {s t : State} {e : Event} (h : t.trace = s.trace ++ [e]) (k : p e = false) :
    QuietTo p s t := ⟨[e], h, by simpa using k⟩

/-- A run that completes or is refused recorded quiet events only; one that ends early recorded one event more. -/
def QuietUntil (p : Event → Bool) {α : Type} (s : State) : Run State α → Prop
  | .done _ u => QuietTo p s u
  | .ended (.refused _) u => QuietTo p s u
  | .ended (.error _) u => ∃ v e, QuietTo p s v ∧ u.trace = v.trace ++ [e]
  | .ended .stuck u => ∃ v e, QuietTo p s v ∧ u.trace = v.trace ++ [e]

theorem QuietTo.until {p : Event → Bool} {α : Type} {s t : State} {x : Run State α} (h : QuietTo p s t)
    (k : QuietUntil p t x) : QuietUntil p s x := by
  cases x with
  | done a u => exact h.trans k
  | ended w u =>
    cases w with
    | refused r => exact h.trans k
    | error e =>
      obtain ⟨v, e, q, l⟩ := k
      exact ⟨v, e, h.trans q, l⟩
    | stuck =>
      obtain ⟨v, e, q, l⟩ := k
      exact ⟨v, e, h.trans q, l⟩

theorem QuietUntil.bind {p : Event → Bool} {α β : Type} {s : State} {x : Run State α} {f : α → State → Run State β}
    (hx : QuietUntil p s x) (hf : ∀ a u, x = .done a u → QuietUntil p u (f a u)) : QuietUntil p s (x.bind f) := by
  cases x with
  | done a u => exact QuietTo.until hx (hf a u rfl)
  | ended w u => cases w <;> exact hx

theorem QuietUntil.map {p : Event → Bool} {α β : Type} {s : State} {x : Run State α} (f : α → β)
    (hx : QuietUntil p s x) : QuietUntil p s (x.map f) := by
  cases x with
  | done a u => exact hx
  | ended w u => cases w <;> exact hx

/-! ### The primitives and the packer -/

theorem txFlush_quiet {p : Event → Bool} (hp : Loud p) (s : State) : QuietUntil p s (txFlush s) := by
  unfold txFlush
  split
  · next d h => exact .one (flushed_trace s) (by rw [h]; exact hp.flush d)
  · exact ⟨s, _, .refl p s, flushed_trace s⟩
  · exact ⟨s, _, .refl p s, flushed_trace s⟩

theorem txRead_quiet {p : Event → Bool} (hp : Loud p) (n : Nat) (s : State) : QuietUntil p s (txRead n s) := by
  unfold txRead
  split
  · next d h => exact .one (readDone_trace n s) (by rw [h]; exact hp.read n d)
  · exact ⟨s, _, .refl p s, readDone_trace n s⟩
  · exact ⟨s, _, .refl p s, readDone_trace n s⟩

theorem txDrain_quiet {p : Event → Bool} (hp : Loud p) (n : Nat) (s : State) : QuietUntil p s (txDrain n s) := by
  unfold txDrain
  split
  · next d h => exact .one (drained_trace n s) (by rw [h]; exact hp.drain n d)
  · exact ⟨s, _, .refl p s, drained_trace n s⟩
  · exact ⟨s, _, .refl p s, drained_trace n s⟩

theorem txSend_quiet {p : Event → Bool} (hp : Loud p) (bs : List Byte) (s : State) : QuietTo p s (txSend bs s) :=
  .one (txSend_trace bs s) (hp.send bs)

theorem sendPending_quiet {p : Event → Bool} (hp : Loud p) (s : State) : QuietTo p s (sendPending s) := by
  refine ⟨_, sendPending_trace s, fun e m => ?_⟩
  obtain ⟨bs, -, rfl⟩ := List.mem_map.1 m
  exact hp.send bs

theorem autoFlush_quiet {p : Event → Bool} (hp : Loud p) (s : State) : QuietTo p s (autoFlush s) := by
  unfold autoFlush
  split
  · exact .refl p s
  · exact sendPending_quiet hp s

theorem pushTms_quiet {p : Event → Bool} (hp : Loud p) (b : Bool) (s : State) : QuietTo p s (pushTms b s) := by
  unfold pushTms
  split
  · exact (autoFlush_quiet hp s).trans (.same (appendTms_trace b _))
  · exact .same (appendTms_trace b s)

theorem pushAll_quiet {p : Event → Bool} (hp : Loud p) (bs : List Bool) (s : State) : QuietTo p s (pushAll bs s) := by
  induction bs generalizing s with
  | nil => exact .refl p s
  | cons b bs ih => exact (pushTms_quiet hp b s).trans (ih _)

theorem queuePath_quiet {p : Event → Bool} (hp : Loud p) (bs : List Bool) (s : State) : QuietTo p s (queuePath bs s) := by
  induction bs generalizing s with
  | nil => exact .refl p s
  | cons b bs ih => exact ((pushTms_quiet hp b s).trans (.same (State.setTap_trace _ _))).trans (ih _)

theorem flushTms_quiet {p : Event → Bool} (hp : Loud p) (force : Bool) (s : State) : QuietUntil p s (flushTms force s) := by
  unfold flushTms
  split
  · exact .refl p s
  · split
    · exact .map _ ((sendPending_quiet hp s).until (txFlush_quiet hp _))
    · exact sendPending_quiet hp s

theorem moveTo_quiet {p : Event → Bool} (hp : Loud p) (t : TapState) (s : State) : QuietUntil p s (moveTo t s) :=
  .map _ ((queuePath_quiet hp _ s).until (flushTms_quiet hp true _))

theorem resetTap_quiet {p : Event → Bool} (hp : Loud p) (s : State) : QuietUntil p s (resetTap s) := by
  unfold resetTap
  exact .map _ (((pushAll_quiet hp _ s).trans (.same (State.setTap_trace _ _))).until (flushTms_quiet hp true _))

theorem issue_quiet {p : Event → Bool} (hp : Loud p) (cmd : List Byte) (n : Nat) (r : Bool) (s : State) :
    QuietUntil p s (issue cmd n r s) := by
  unfold issue
  split
  · exact (txSend_quiet hp cmd s).until (.bind (txFlush_quiet hp _) fun _ _ _ => .map _ (txRead_quiet hp n _))
  · split
    · exact (txSend_quiet hp cmd s).until (.bind (txFlush_quiet hp _) fun _ _ _ => .map _ (txDrain_quiet hp n _))
    · exact txSend_quiet hp cmd s

/-! ### The shifter -/

/-- The same of a run inside a shift. -/
def WorkQuiet (p : Event → Bool) {α : Type} (s : State) (x : Run Work α) : Prop := QuietUntil p s (x.mapState Work.s)

theorem WorkQuiet.bind {p : Event → Bool} {α β : Type} {s : State} {x : Run Work α} {f : α → Work → Run Work β}
    (hx : WorkQuiet p s x) (hf : ∀ a w, x = .done a w → WorkQuiet p w.s (f a w)) : WorkQuiet p s (x.bind f) := by
  cases x with
  | done a w => exact QuietTo.until hx (hf a w rfl)
  | ended w u => cases w <;> exact hx

theorem WorkQuiet.lift {p : Event → Bool} {α : Type} {s : State} {x : Run State α} (w : Work) (hx : QuietUntil p s x) :
    WorkQuiet p s (w.lift x) := by
  cases x <;> exact hx

theorem bytePhase_quiet {p : Event → Bool} (hp : Loud p) (inp : Option (List Byte)) (xfer fuel k rem : Nat) (w : Work) :
    WorkQuiet p w.s (bytePhase inp xfer fuel k rem w) := by
  induction fuel generalizing k rem w with
  | zero => exact .refl p w.s
  | succ fuel ih =>
    unfold bytePhase
    split
    · exact .refl p w.s
    · refine .bind (.lift w (issue_quiet hp _ _ _ _)) fun r u _ => ?_
      have := ih (k + min rem xfer) (rem - min rem xfer) (u.capture (fun v bs => memWrite v k bs) r)
      rwa [Work.capture_s] at this

theorem residualPhase_quiet {p : Event → Bool} (hp : Loud p) (inp : Option (List Byte)) (nb_byte nb_bit : Nat) (w : Work) :
    WorkQuiet p w.s (residualPhase inp nb_byte nb_bit w) := by
  unfold residualPhase
  split
  · exact .refl p w.s
  · exact .bind (.lift w (issue_quiet hp _ _ _ _)) fun r u _ => .same (by rw [Work.capture_s])

theorem finalPhase_quiet {p : Event → Bool} (hp : Loud p) (inp : Option (List Byte)) (nb_byte nb_bit : Nat) (isLast : Bool)
    (w : Work) : WorkQuiet p w.s (finalPhase inp nb_byte nb_bit isLast w) := by
  unfold finalPhase
  split
  · exact .bind (.lift w (issue_quiet hp _ _ _ _)) fun r u _ => .same (by simp [Work.capture_s])
  · exact .refl p w.s

theorem shiftPhases_quiet {p : Event → Bool} (hp : Loud p) (inp : Option (List Byte)) (len : Nat) (isLast : Bool)
    (xfer : Nat) (w : Work) : WorkQuiet p w.s (shiftPhases inp len isLast xfer w) :=
  .bind (bytePhase_quiet hp _ _ _ _ _ _) fun _ _ _ => .bind (residualPhase_quiet hp _ _ _ _) fun _ _ _ =>
    finalPhase_quiet hp _ _ _ _ _

theorem shiftValues_quiet {p : Event → Bool} (hp : Loud p) (inp out : Option (List Byte)) (al : Bool) (len : Nat)
    (isLast : Bool) (s : State) : WorkQuiet p s (shiftValues inp out al len isLast s) := by
  have q : QuietTo p s (bufSizeAsked s) := .one (bufSizeAsked_trace s) (hp.bufSize _)
  unfold shiftValues
  split
  · exact .refl p s
  · split
    · exact .bind (.lift _ (q.until (flushTms_quiet hp true _))) fun _ _ _ => shiftPhases_quiet hp _ _ _ _ _
    · exact q

theorem shiftVectors_quiet {p : Event → Bool} (hp : Loud p) (input : Option VecArg) (output : Option Nat) (len : Nat)
    (isLast : Bool) (s : State) : QuietUntil p s (shiftVectors input output len isLast s) := by
  have h := shiftValues_quiet hp (s.input input) (s.output output) (sameStorage input output) len isLast s
  unfold shiftVectors
  cases hx : shiftValues (s.input input) (s.output output) (sameStorage input output) len isLast s with
  | done a w =>
    rw [hx] at h
    exact QuietTo.trans h (.same (by simp))
  | ended e w =>
    rw [hx] at h
    cases e with
    | refused r => exact QuietTo.trans h (.same (by simp))
    | error e =>
      obtain ⟨v, e, q, l⟩ := h
      exact ⟨v, e, q, by simpa using l⟩
    | stuck =>
      obtain ⟨v, e, q, l⟩ := h
      exact ⟨v, e, q, by simpa using l⟩

theorem shiftRegister_quiet {p : Event → Bool} (hp : Loud p) (x : TapState) (input : Option VecArg) (output : Option Nat)
    (len : Nat) (e : TapState) (s : State) : QuietUntil p s (shiftRegister x input output len e s) := by
  unfold shiftRegister
  split
  · exact .refl p s
  · split
    · exact .refl p s
    · exact .bind (moveTo_quiet hp _ _) fun _ _ _ => .bind (shiftVectors_quiet hp _ _ _ _ _) fun _ _ _ => moveTo_quiet hp _ _

theorem windows_quiet {p : Event → Bool} (hp : Loud p) (m : Nat) (s : State) : QuietUntil p s (windows m s) := by
  induction m generalizing s with
  | zero => exact .refl p s
  | succ m ih =>
    have h := shiftValues_quiet hp (some windowOnes) (some windowZeros) false Config.idcodeWidth (decide (m = 0)) s
    unfold windows
    split
    · next e w hx =>
      rw [hx] at h
      cases e <;> exact h
    · next a w hx =>
      rw [hx] at h
      exact QuietTo.until h (.map _ (ih _))

theorem detect_quiet {p : Event → Bool} (hp : Loud p) (m : Nat) (s : State) : QuietUntil p s (detect m s) :=
  .bind (resetTap_quiet hp _) fun _ _ _ => .bind (moveTo_quiet hp _ _) fun _ _ _ =>
    .bind (windows_quiet hp _ _) fun _ _ _ => .map _ (resetTap_quiet hp _)

/-! ### Single commands -/

theorem dataCommand_quiet {p : Event → Bool} (hp : Loud p) (cmd : List Byte) (n : Nat) (r : Bool) (after : State → State)
    (ha : ∀ u, (after u).trace = u.trace) (s : State) : QuietUntil p s (dataCommand cmd n r after s) := by
  unfold dataCommand
  split
  · exact .bind (flushTms_quiet hp true s) fun _ _ _ => .bind (issue_quiet hp _ _ _ _) fun _ _ _ => .same (ha _)
  · exact .refl p s

theorem byteDataCommand_quiet {p : Event → Bool} (hp : Loud p) (payload : Option (List Byte)) (n : Nat) (r : Bool)
    (s : State) : QuietUntil p s (byteDataCommand payload n r s) := by
  have q : QuietTo p s (bufSizeAsked s) := .one (bufSizeAsked_trace s) (hp.bufSize _)
  unfold byteDataCommand
  split
  · split
    · split
      · exact q.until (dataCommand_quiet hp _ _ _ _ (fun _ => rfl) _)
      · exact q
    · exact q
  · exact .refl p s

end Sys2Proof.Machine
end

