-- ==== Sys2Proof/Laws/Shift.lean ====
section
/-! SUPPORT. A shift's phases as the list of commands they issue: what goes out, what comes back, and what is captured. -/

namespace Sys2Proof.Machine

open Sys2Proof

/-! ### The chunks of the whole-byte phase -/

/-- The chunks of `rem` bytes from byte `k` on, each an offset and a size, for at most `fuel` chunks. -/
def cut (xfer : Nat) : Nat → Nat → Nat → List (Nat × Nat)
  | 0, _, _ => []
  | fuel + 1, k, rem =>
    if rem = 0 then [] else (k, min rem xfer) :: cut xfer fuel (k + min rem xfer) (rem - min rem xfer)

theorem chunkCount_zero {xfer : Nat} (h : 1 ≤ xfer) : chunkCount 0 xfer = 0 := by
  unfold chunkCount
  exact Nat.div_eq_of_lt (by omega)

theorem chunkCount_step {rem xfer : Nat} (h : 1 ≤ xfer) (hr : rem ≠ 0) :
    chunkCount rem xfer = chunkCount (rem - min rem xfer) xfer + 1 := by
  by_cases hx : rem ≤ xfer
  · rw [Nat.min_eq_left hx, Nat.sub_self, chunkCount_zero h]
    unfold chunkCount
    rw [show rem + xfer - 1 = (rem - 1) + xfer by omega, Nat.add_div_right _ (by omega), Nat.div_eq_of_lt (by omega)]
  · rw [Nat.min_eq_right (by omega)]
    unfold chunkCount
    rw [show rem + xfer - 1 = (rem - xfer + xfer - 1) + xfer by omega, Nat.add_div_right _ (by omega)]

/-- The chunks in closed form (R154). -/
theorem cut_eq {xfer : Nat} (h : 1 ≤ xfer) (fuel k rem : Nat) (hf : rem ≤ fuel) :
    cut xfer fuel k rem = (List.range (chunkCount rem xfer)).map fun j => (k + j * xfer, chunkSize rem xfer j) := by
  induction fuel generalizing k rem with
  | zero => simp [cut, Nat.le_zero.1 hf, chunkCount_zero h]
  | succ fuel ih =>
    by_cases hr : rem = 0
    · simp [cut, hr, chunkCount_zero h]
    · rw [cut, if_neg hr, ih _ _ (by omega), chunkCount_step h hr, List.range_succ_eq_map, List.map_cons, List.map_map]
      congr 1
      · simp [chunkSize, Nat.min_comm]
      · apply List.map_congr_left
        intro j hj
        have hx : ¬rem ≤ xfer := by
          intro hx
          rw [Nat.min_eq_left hx, Nat.sub_self, chunkCount_zero h] at hj
          simp at hj
        simp only [Function.comp_apply, chunkSize, Nat.min_eq_right (show xfer ≤ rem by omega), Nat.succ_mul, Prod.mk.injEq]
        constructor
        · omega
        · congr 1
          omega

/-- The sizes add up to the bytes there are. -/
theorem cut_sum {xfer : Nat} (h : 1 ≤ xfer) (fuel k rem : Nat) (hf : rem ≤ fuel) :
    ((cut xfer fuel k rem).map Prod.snd).sum = rem := by
  induction fuel generalizing k rem with
  | zero => simp [cut, Nat.le_zero.1 hf]
  | succ fuel ih =>
    by_cases hr : rem = 0
    · simp [cut, hr]
    · rw [cut, if_neg hr, List.map_cons, List.sum_cons, ih _ _ (by omega)]
      omega

/-- The commands of the whole-byte phase, each with the bytes it returns. -/
def byteCmds (o : Opc) (inp : Option (List Byte)) (read : Bool) (parts : List (Nat × Nat)) : List (List Byte × Nat) :=
  parts.map fun p => (byteCommand o (inp.map fun v => memRead v p.1 p.2) read p.2, p.2)

/-- The command of the residual phase, where there is one. -/
def residualCmds (o : Opc) (inp : Option (List Byte)) (read : Bool) (nb nr : Nat) : List (List Byte × Nat) :=
  if nr = 0 then [] else [(bitCommand o (inp.map fun v => vecByte v nb) read nr, 1)]

/-- The final-bit command, where there is one. -/
def finalCmds (o : Opc) (inp : Option (List Byte)) (read : Bool) (nb nr : Nat) (isLast : Bool) : List (List Byte × Nat) :=
  if isLast then [(finalCommand o read ((inp.map fun v => (vecByte v nb).getLsbD nr).getD false), 1)] else []

/-- The plan of a shift is the commands of its three phases. -/
theorem shiftPlan_eq {xfer : Nat} (h : 1 ≤ xfer) (o : Opc) (inp : Option (List Byte)) (read : Bool) (len : Nat)
    (isLast : Bool) :
    shiftPlan o inp read len isLast xfer =
      byteCmds o inp read (cut xfer (nbByte len isLast) 0 (nbByte len isLast))
        ++ residualCmds o inp read (nbByte len isLast) (nbBit len isLast)
        ++ finalCmds o inp read (nbByte len isLast) (nbBit len isLast) isLast := by
  rw [cut_eq h _ _ _ le_rfl]
  unfold shiftPlan byteCmds residualCmds finalCmds
  simp only [List.map_map, Function.comp_def, Nat.zero_add]
  rfl

/-! ### Without an output -/

/-- From `s` to `t` these events were recorded and some answers were used; nothing else changed. -/
structure Issued (es : List Event) (s t : State) : Prop where
  same : t = { s with trace := s.trace ++ es, tx := t.tx }
  cooperative : Cooperative t.tx = true
  bufSizes : t.tx.bufSizes = s.tx.bufSizes
  bufSize : t.tx.bufSize = s.tx.bufSize
  product : t.tx.product = s.tx.product

theorem Issued.refl {s : State} (h : Cooperative s.tx = true) : Issued [] s s := ⟨by simp, h, rfl, rfl, rfl⟩

theorem Issued.trans {a b : List Event} {s t u : State} (h : Issued a s t) (k : Issued b t u) : Issued (a ++ b) s u := by
  refine ⟨?_, k.cooperative, k.bufSizes.trans h.bufSizes, k.bufSize.trans h.bufSize, k.product.trans h.product⟩
  rw [k.same, h.same]
  simp

theorem issue_issued {s : State} (cmd : List Byte) (n : Nat) (h : Cooperative s.tx = true) :
    ∃ t, issue cmd n false s = .done none t ∧ Issued (writeEvents s.sess.quirk (cmd, n)) s t := by
  by_cases q : s.sess.quirk = true
  · obtain ⟨d, hd⟩ := cooperative_answer h
    obtain ⟨e, he⟩ := cooperative_answer (cooperative_answered h)
    refine ⟨drained n (flushed (txSend cmd s)), ?_, ?_, cooperative_answered (cooperative_answered h), rfl, rfl, rfl⟩
    · unfold issue
      rw [if_neg (by simp), if_pos q, txFlush_full (s := txSend cmd s) hd, Run.bind_done,
        txDrain_full (s := flushed (txSend cmd s)) n he, Run.map_done]
    · simp [drained, flushed, txSend, State.emit, writeEvents, q]
      constructor
      · exact flushAnswer_full (s := txSend cmd s) hd
      · exact drainAnswer_full (s := flushed (txSend cmd s)) n he
  · exact ⟨txSend cmd s, by simp [issue, q], by simp [txSend, State.emit, writeEvents, q], h, rfl, rfl, rfl⟩

theorem bytePhase_write (inp : Option (List Byte)) (xfer fuel k rem : Nat) {s : State} (h : Cooperative s.tx = true) :
    ∃ t, bytePhase inp xfer fuel k rem { s := s, out := none } = .done () { s := t, out := none } ∧
      Issued ((byteCmds s.params.opc inp false (cut xfer fuel k rem)).flatMap (writeEvents s.sess.quirk)) s t := by
  induction fuel generalizing s k rem with
  | zero => exact ⟨s, rfl, .refl h⟩
  | succ fuel ih =>
    by_cases hr : rem = 0
    · refine ⟨s, ?_, ?_⟩
      · rw [bytePhase, if_pos hr]
      · rw [cut, if_pos hr]
        exact .refl h
    · obtain ⟨u, hu, iu⟩ := issue_issued (s := s)
        (byteCommand s.params.opc (inp.map fun v => memRead v k (min rem xfer)) false (min rem xfer)) (min rem xfer) h
      obtain ⟨t, ht, it⟩ := ih (k + min rem xfer) (rem - min rem xfer) iu.cooperative
      have hq : u.sess = s.sess ∧ u.params = s.params := by rw [iu.same]; exact ⟨rfl, rfl⟩
      rw [hq.1, hq.2] at it
      refine ⟨t, ?_, ?_⟩
      · rw [bytePhase, if_neg hr]
        simp only [Work.lift, Option.isSome_none, hu, Run.mapState_done, Run.bind_done]
        exact ht
      · rw [cut, if_neg hr]
        exact iu.trans it

theorem residualPhase_write (inp : Option (List Byte)) (nb nr : Nat) {s : State} (h : Cooperative s.tx = true) :
    ∃ t, residualPhase inp nb nr { s := s, out := none } = .done () { s := t, out := none } ∧
      Issued ((residualCmds s.params.opc inp false nb nr).flatMap (writeEvents s.sess.quirk)) s t := by
  by_cases hr : nr = 0
  · exact ⟨s, by rw [residualPhase, if_pos hr], by rw [residualCmds, if_pos hr]; exact .refl h⟩
  · obtain ⟨u, hu, iu⟩ := issue_issued (s := s) (bitCommand s.params.opc (inp.map fun v => vecByte v nb) false nr) 1 h
    refine ⟨u, ?_, ?_⟩
    · rw [residualPhase, if_neg hr]
      simp only [Work.lift, Option.isSome_none, hu, Run.mapState_done, Run.bind_done]
      rfl
    · rw [residualCmds, if_neg hr]
      simpa using iu

theorem finalPhase_write (inp : Option (List Byte)) (nb nr : Nat) (isLast : Bool) {s : State}
    (h : Cooperative s.tx = true) :
    ∃ t, finalPhase inp nb nr isLast { s := s, out := none }
        = .done () { s := if isLast then t.setTap (delta s.sess.tap true) else t, out := none } ∧
      Issued ((finalCmds s.params.opc inp false nb nr isLast).flatMap (writeEvents s.sess.quirk)) s t := by
  cases isLast with
  | false => exact ⟨s, rfl, .refl h⟩
  | true =>
    obtain ⟨u, hu, iu⟩ := issue_issued (s := s) (finalCommand s.params.opc false
      ((inp.map fun v => (vecByte v nb).getLsbD nr).getD false)) 1 h
    have hq : u.sess = s.sess := by rw [iu.same]
    refine ⟨u, ?_, ?_⟩
    · rw [finalPhase, if_pos rfl]
      simp only [Work.lift, Option.isSome_none, hu, Run.mapState_done, Run.bind_done]
      rw [← hq]
      rfl
    · rw [finalCmds, if_pos rfl]
      simpa using iu

/-- The three phases with no output: the plan's commands, each drained where the quirk flag is set. -/
theorem shiftPhases_write (inp : Option (List Byte)) (len : Nat) (isLast : Bool) {xfer : Nat} (hx : 1 ≤ xfer) {s : State}
    (h : Cooperative s.tx = true) :
    ∃ t, shiftPhases inp len isLast xfer { s := s, out := none }
        = .done () { s := if isLast then t.setTap (delta s.sess.tap true) else t, out := none } ∧
      Issued ((shiftPlan s.params.opc inp false len isLast xfer).flatMap (writeEvents s.sess.quirk)) s t := by
  obtain ⟨a, ha, ia⟩ := bytePhase_write inp xfer (nbByte len isLast) 0 (nbByte len isLast) h
  obtain ⟨b, hb, ib⟩ := residualPhase_write inp (nbByte len isLast) (nbBit len isLast) ia.cooperative
  obtain ⟨c, hc, ic⟩ := finalPhase_write inp (nbByte len isLast) (nbBit len isLast) isLast ib.cooperative
  have qa : a.sess = s.sess ∧ a.params = s.params := by rw [ia.same]; exact ⟨rfl, rfl⟩
  have qb : b.sess = a.sess ∧ b.params = a.params := by rw [ib.same]; exact ⟨rfl, rfl⟩
  rw [qb.1, qb.2, qa.1, qa.2] at ic
  rw [qa.1, qa.2] at ib
  rw [qb.1, qa.1] at hc
  refine ⟨c, ?_, ?_⟩
  · rw [shiftPhases, ha, Run.bind_done, hb, Run.bind_done, hc]
  · rw [shiftPlan_eq hx, List.flatMap_append, List.flatMap_append]
    exact (ia.trans ib).trans ic

/-! ### With an output -/

/-- The transport answers these reads in full, one `Flush` and one `Read` for each, and is then `u`. -/
def Serves : Transport → List (List Byte) → Transport → Prop
  | t, [], u => u = t
  | t, bs :: rest, u => ∃ d e, t.answer = .full d ∧ t.answered.answer = .full e ∧ answerBytes bs.length e t.drawn = bs ∧
      Serves (t.answered.consume bs.length) rest u

theorem Serves.append {t u v : Transport} {a b : List (List Byte)} (h : Serves t a u) (k : Serves u b v) :
    Serves t (a ++ b) v := by
  induction a generalizing t with
  | nil =>
    cases h
    exact k
  | cons x xs ih =>
    obtain ⟨d, e, h1, h2, h3, h4⟩ := h
    exact ⟨d, e, h1, h2, h3, ih h4⟩

theorem Serves.split {t v : Transport} {a b : List (List Byte)} (h : Serves t (a ++ b) v) :
    ∃ u, Serves t a u ∧ Serves u b v := by
  induction a generalizing t with
  | nil => exact ⟨t, rfl, h⟩
  | cons x xs ih =>
    obtain ⟨d, e, h1, h2, h3, h4⟩ := h
    obtain ⟨u, k1, k2⟩ := ih h4
    exact ⟨u, ⟨d, e, h1, h2, h3, k1⟩, k2⟩

theorem Serves.sizes {t u : Transport} {a : List (List Byte)} (h : Serves t a u) :
    u.bufSizes = t.bufSizes ∧ u.bufSize = t.bufSize ∧ u.product = t.product ∧ u.steady = t.steady := by
  induction a generalizing t with
  | nil =>
    cases h
    exact ⟨rfl, rfl, rfl, rfl⟩
  | cons x xs ih =>
    obtain ⟨d, e, h1, h2, h3, h4⟩ := h
    have k := ih h4
    exact k

/-- A script that lists the answers serves them. -/
theorem serves_script {t : Transport} {answers : List (List Byte)} {more : List Answer}
    (h : t.script = readScript answers ++ more) : ∃ u, Serves t answers u ∧ u.script = more := by
  induction answers generalizing t with
  | nil => exact ⟨t, rfl, h⟩
  | cons x xs ih =>
    have e : t.script = .full [] :: .full x :: (readScript xs ++ more) := by simpa [readScript] using h
    obtain ⟨u, hu, hm⟩ := ih (t := t.answered.consume x.length) (by simp [e])
    exact ⟨u, ⟨[], x, by simp [Transport.answer, e], by simp [Transport.answer, e], answerBytes_full rfl _, hu⟩, hm⟩

/-- A transport whose every answer is full serves reads of any sizes. -/
theorem serves_cooperative {t : Transport} (h : Cooperative t = true) (sizes : List Nat) :
    ∃ answers u, answers.map List.length = sizes ∧ Serves t answers u ∧ Cooperative u = true := by
  induction sizes generalizing t with
  | nil => exact ⟨[], t, rfl, rfl, h⟩
  | cons n ns ih =>
    obtain ⟨d, hd⟩ := cooperative_answer h
    obtain ⟨e, he⟩ := cooperative_answer (cooperative_answered h)
    obtain ⟨as, u, h1, h2, h3⟩ := ih (t := t.answered.consume n)
      ((cooperative_congr rfl rfl).trans (cooperative_answered (cooperative_answered h)))
    refine ⟨answerBytes n e t.drawn :: as, u, by simp [h1, answerBytes_length], ⟨d, e, hd, he, ?_, ?_⟩, h3⟩
    · rw [answerBytes_length]
    · rw [answerBytes_length]
      exact h2

/-- The events of a data command with an output: a flush and a read follow (R48, R158). -/
def readEvents (c : (List Byte × Nat) × List Byte) : List Event :=
  [.send c.1.1, .flush (.full []), .read c.1.2 (.full c.2)]

/-- The state after reads that the transport serves. -/
def State.read (s : State) (es : List Event) (u : Transport) : State := { s with trace := s.trace ++ es, tx := u }

theorem State.read_nil (s : State) : s.read [] s.tx = s := by simp [State.read]

theorem State.read_read (s : State) (a b : List Event) (u v : Transport) :
    (s.read a u).read b v = s.read (a ++ b) v := by simp [State.read]

theorem issue_serves {s : State} {bs : List Byte} {rest : List (List Byte)} {v : Transport} (cmd : List Byte)
    (h : Serves s.tx (bs :: rest) v) :
    ∃ u, issue cmd bs.length true s = .done (some bs) (s.read (readEvents ((cmd, bs.length), bs)) u) ∧ Serves u rest v := by
  obtain ⟨d, e, h1, h2, h3, h4⟩ := h
  obtain ⟨k, tr⟩ := issue_read_full cmd bs.length h1 h2
  refine ⟨_, ?_, h4⟩
  rw [k, h3]
  congr 1
  rw [h3] at tr
  rw [State.read, readEvents, ← tr,
    show s.tx.answered.consume bs.length = (readDone bs.length (flushed (txSend cmd s))).tx from
      (readDone_tx_full (s := flushed (txSend cmd s)) bs.length h2).symm]
  rfl

theorem memWrite_length {v bs : List Byte} {k : Nat} (h : k + bs.length ≤ v.length) :
    (memWrite v k bs).length = v.length := by
  simp [memWrite]
  omega

theorem memWrite_nil (v : List Byte) (k : Nat) : memWrite v k [] = v := by simp [memWrite]

theorem memWrite_memWrite {v a b : List Byte} {k : Nat} (h : k + a.length ≤ v.length) :
    memWrite (memWrite v k a) (k + a.length) b = memWrite v k (a ++ b) := by
  have hk : k ≤ v.length := by omega
  unfold memWrite
  have e1 : (v.take k ++ a ++ v.drop (k + a.length)).take (k + a.length) = v.take k ++ a := by
    rw [List.take_append_of_le_length (by simp; omega), List.take_of_length_le (by simp)]
  have e2 : (v.take k ++ a ++ v.drop (k + a.length)).drop (k + a.length + b.length) = v.drop (k + (a ++ b).length) := by
    rw [List.drop_append, List.drop_of_length_le (by simp; omega), List.nil_append, List.drop_drop]
    congr 1
    simp
    omega
  rw [e1, e2]
  simp only [List.append_assoc]

theorem bytePhase_read (inp : Option (List Byte)) {xfer : Nat} (hx : 1 ≤ xfer) (fuel k rem : Nat) (hf : rem ≤ fuel)
    {s : State} {v : List Byte} {answers rest : List (List Byte)} {z : Transport} (h : Serves s.tx (answers ++ rest) z)
    (hs : answers.map List.length = (cut xfer fuel k rem).map Prod.snd) (hv : k + rem ≤ v.length) :
    ∃ u, bytePhase inp xfer fuel k rem { s := s, out := some v } = .done ()
        { s := s.read (((byteCmds s.params.opc inp true (cut xfer fuel k rem)).zip answers).flatMap readEvents) u,
          out := some (memWrite v k answers.flatten) } ∧ Serves u rest z := by
  induction fuel generalizing s k rem v answers with
  | zero =>
    have : answers = [] := by simpa [cut] using hs
    subst this
    exact ⟨s.tx, by simp [bytePhase, cut, byteCmds, State.read_nil, memWrite_nil], h⟩
  | succ fuel ih =>
    by_cases hr : rem = 0
    · have : answers = [] := by simpa [cut, hr] using hs
      subst this
      exact ⟨s.tx, by simp [bytePhase, hr, cut, byteCmds, State.read_nil, memWrite_nil], h⟩
    · rw [cut, if_neg hr] at hs ⊢
      cases answers with
      | nil => simp at hs
      | cons bs answers =>
        rw [List.map_cons, List.map_cons, List.cons.injEq] at hs
        obtain ⟨hb, hs⟩ := hs
        simp only at hb
        obtain ⟨w, hw, sw⟩ := issue_serves
          (byteCommand s.params.opc (inp.map fun v => memRead v k (min rem xfer)) true (min rem xfer)) h
        rw [hb] at hw
        obtain ⟨u, hu, su⟩ := ih (k + min rem xfer) (rem - min rem xfer) (by omega)
          (s := s.read (readEvents ((byteCommand s.params.opc (inp.map fun v => memRead v k (min rem xfer)) true
            (min rem xfer), min rem xfer), bs)) w)
          (v := memWrite v k bs) (answers := answers) sw hs (by rw [memWrite_length (by omega)]; omega)
        refine ⟨u, ?_, su⟩
        rw [bytePhase, if_neg hr]
        simp only [Work.lift, Option.isSome_some, hw, Run.mapState_done, Run.bind_done, Work.capture]
        rw [hu, State.read_read, ← hb, memWrite_memWrite (by omega)]
        rfl

theorem residualPhase_read (inp : Option (List Byte)) (nb nr : Nat) {s : State} {v : List Byte} {r : Byte}
    {rest : List (List Byte)} {z : Transport}
    (h : Serves s.tx ((if nr = 0 then [] else [[r]]) ++ rest) z) :
    ∃ u, residualPhase inp nb nr { s := s, out := some v } = .done ()
        { s := s.read (((residualCmds s.params.opc inp true nb nr).zip (if nr = 0 then [] else [[r]])).flatMap readEvents) u,
          out := some (if nr = 0 then v else memWrite v nb [realign r nr]) } ∧ Serves u rest z := by
  by_cases hr : nr = 0
  · rw [if_pos hr] at h
    exact ⟨s.tx, by simp [residualPhase, hr, residualCmds, State.read_nil], h⟩
  · rw [if_neg hr] at h
    obtain ⟨u, hu, su⟩ := issue_serves (bitCommand s.params.opc (inp.map fun v => vecByte v nb) true nr) h
    refine ⟨u, ?_, su⟩
    rw [residualPhase, if_neg hr]
    simp only [Work.lift, Option.isSome_some]
    rw [show issue _ 1 true s = _ from hu]
    simp [Work.capture, residualCmds, hr, vecByte]

theorem finalPhase_read (inp : Option (List Byte)) (nb nr : Nat) (isLast : Bool) {s : State} {v : List Byte} {f : Byte}
    {rest : List (List Byte)} {z : Transport} (h : Serves s.tx ((if isLast then [[f]] else []) ++ rest) z) :
    ∃ u, finalPhase inp nb nr isLast { s := s, out := some v } = .done ()
        { s := (if isLast then (s.setTap (delta s.sess.tap true)) else s).read
            (((finalCmds s.params.opc inp true nb nr isLast).zip (if isLast then [[f]] else [])).flatMap readEvents) u,
          out := some (if isLast then memWrite v nb [vecByte v nb ||| finalCapture f nr] else v) } ∧ Serves u rest z := by
  cases isLast with
  | false => exact ⟨s.tx, by simp [finalPhase, finalCmds, State.read_nil], h⟩
  | true =>
    obtain ⟨u, hu, su⟩ := issue_serves (finalCommand s.params.opc true
      ((inp.map fun v => (vecByte v nb).getLsbD nr).getD false)) h
    refine ⟨u, ?_, su⟩
    rw [finalPhase, if_pos rfl]
    simp only [Work.lift, Option.isSome_some]
    rw [show issue _ 1 true s = _ from hu]
    simp [Work.capture, finalCmds, vecByte, State.read, State.setTap]

/-- What a shift leaves in its output vector, from the captured chunks, the residual byte and the final byte (R159). -/
def capturedInto (v : List Byte) (len : Nat) (isLast : Bool) (cap : List (List Byte)) (r f : Byte) : List Byte :=
  let v1 := memWrite v 0 cap.flatten
  let v2 := if nbBit len isLast = 0 then v1 else memWrite v1 (nbByte len isLast) [realign r (nbBit len isLast)]
  if isLast then
    memWrite v2 (nbByte len isLast) [vecByte v2 (nbByte len isLast) ||| finalCapture f (nbBit len isLast)]
  else v2

/-- The three phases with an output: the plan's commands, each read. -/
theorem shiftPhases_read (inp : Option (List Byte)) (len : Nat) (isLast : Bool) {xfer : Nat} (hx : 1 ≤ xfer) {s : State}
    {v : List Byte} {cap : List (List Byte)} {r f : Byte} {z : Transport}
    (h : Serves s.tx (cap ++ ((if nbBit len isLast = 0 then [] else [[r]]) ++ ((if isLast then [[f]] else []) ++ []))) z)
    (hs : cap.map List.length = (cut xfer (nbByte len isLast) 0 (nbByte len isLast)).map Prod.snd)
    (hv : nbByte len isLast ≤ v.length) :
    shiftPhases inp len isLast xfer { s := s, out := some v } = .done ()
      { s := (if isLast then s.setTap (delta s.sess.tap true) else s).read
          (((shiftPlan s.params.opc inp true len isLast xfer).zip
            (cap ++ ((if nbBit len isLast = 0 then [] else [[r]]) ++ (if isLast then [[f]] else [])))).flatMap readEvents) z,
        out := some (capturedInto v len isLast cap r f) } := by
  obtain ⟨a, ha, sa⟩ := bytePhase_read inp hx (nbByte len isLast) 0 (nbByte len isLast) le_rfl (v := v) (answers := cap) h hs
    (by rw [Nat.zero_add]; exact hv)
  obtain ⟨b, hb, sb⟩ := residualPhase_read inp (nbByte len isLast) (nbBit len isLast)
    (s := s.read _ a) (v := memWrite v 0 cap.flatten) sa
  obtain ⟨c, hc, sc⟩ := finalPhase_read inp (nbByte len isLast) (nbBit len isLast) isLast (s := (s.read _ a).read _ b)
    (v := if nbBit len isLast = 0 then memWrite v 0 cap.flatten
      else memWrite (memWrite v 0 cap.flatten) (nbByte len isLast) [realign r (nbBit len isLast)]) sb
  cases sc
  rw [shiftPhases, ha, Run.bind_done, hb, Run.bind_done, hc]
  have hl : (byteCmds s.params.opc inp true (cut xfer (nbByte len isLast) 0 (nbByte len isLast))).length = cap.length := by
    rw [byteCmds, List.length_map, ← List.length_map (f := Prod.snd), ← hs, List.length_map]
  have hl2 : (residualCmds s.params.opc inp true (nbByte len isLast) (nbBit len isLast)).length
      = (if nbBit len isLast = 0 then [] else [[r]] : List (List Byte)).length := by
    unfold residualCmds
    split <;> rfl
  rw [shiftPlan_eq hx, List.append_assoc, List.zip_append hl, List.zip_append hl2, List.flatMap_append,
    List.flatMap_append]
  cases isLast <;> simp [State.read, State.setTap, capturedInto]

end Sys2Proof.Machine
end

