-- ==== Sys2Proof/Laws/Walker.lean ====
section
/-! SUPPORT. The packer's flush, `moveToState` and the reset fast path while the transport's next answer is full. -/

namespace Sys2Proof.Machine

open Sys2Proof

theorem paramsOk_iff (p : Params) : paramsOk p = true ↔ 1 ≤ p.tmsCapacity ∧ p.opc.wf = true := by simp [paramsOk]

theorem stateInv_iff (s : State) :
    StateInv s = true ↔ paramsOk s.params = true ∧ bufferOk s = true ∧ Memory.wf s.mem = true := by
  simp [StateInv, and_assoc]

theorem live_eq {α : Type} {b : State → Run State α} {s : State} (h : s.sess.life = .live) : live b s = b s := by
  simp [live, h]

theorem pushTms_count (b : Bool) (s : State) : (pushTms b s).sess.tmsCount ≠ 0 := by
  unfold pushTms
  split <;> simp

theorem queuePath_count {bits : List Bool} (h : bits ≠ []) (s : State) : (queuePath bits s).sess.tmsCount ≠ 0 := by
  induction bits generalizing s with
  | nil => exact absurd rfl h
  | cons b bs ih =>
    by_cases hb : bs = []
    · subst hb
      exact pushTms_count b s
    · exact ih hb _

theorem pushAll_count {bits : List Bool} (h : bits ≠ []) (s : State) : (pushAll bits s).sess.tmsCount ≠ 0 := by
  induction bits generalizing s with
  | nil => exact absurd rfl h
  | cons b bs ih =>
    by_cases hb : bs = []
    · subst hb
      exact pushTms_count b s
    · exact ih hb _

theorem pending_nil_iff {s : State} (h : bufferOk s = true) : s.pending = [] ↔ s.sess.tmsCount = 0 := by
  rw [← List.length_eq_zero_iff, pending_length h]

/-- From `s` to `t` these TMS bits were sent and the buffer emptied: `tap` is the tracked state after, a `Flush` that
answered in full ends what was sent, and where there was no bit there is no event. -/
structure Moved (bits : List Bool) (tap : TapState) (s t : State) : Prop where
  tap : t.sess.tap = tap
  life : t.sess.life = s.sess.life
  quirk : t.sess.quirk = s.sess.quirk
  fault : t.sess.fault = s.sess.fault
  refused : t.sess.refused = s.sess.refused
  tmsCount : t.sess.tmsCount = 0
  buffer : bufferOk t = true
  params : t.params = s.params
  mem : t.mem = s.mem
  port : t.port = s.port
  warnings : t.warnings = s.warnings
  busy : t.busy = s.busy
  tx : t.tx = if bits = [] then s.tx else s.tx.answered
  trace : ∃ cs : List (List Bool), (∀ c ∈ cs, 1 ≤ c.length ∧ c.length ≤ 6) ∧ cs.flatten = bits ∧
    t.trace = s.trace ++ (cs.map (fun c => Event.send (tmsCommand s.params.opc c))
      ++ if bits = [] then [] else [.flush (.full [])])

/-- The forced flush that ends a walk: `u` is `s` after bits went through the packer and `S.tap` was written. -/
theorem flushTms_moved {s u : State} {bits : List Bool} {tap : TapState} {d buf : List _} {cnt : Nat} {tr : List Event}
    (hp : Packed bits s u)
    (hw : u = { s with sess := { s.sess with tap := tap, tmsBuf := buf, tmsCount := cnt }, trace := tr })
    (h : s.tx.answer = .full d) (hc : 1 ≤ s.params.tmsCapacity) (hu : bufferOk u = true)
    (hz : u.sess.tmsCount = 0 ↔ s.pending ++ bits = []) :
    ∃ n t, flushTms true u = .done n t ∧ Moved (s.pending ++ bits) tap s t := by
  have hpar : u.params = s.params := by rw [hw]
  have ha : u.tx.answer = .full d := by
    rw [hw]
    exact h
  rw [flushTms_full ha]
  by_cases he : s.pending ++ bits = []
  · have z := hz.2 he
    obtain ⟨cs, h1, h2, h3⟩ := hp
    rw [if_pos z]
    have hf : cs.flatten = s.pending ++ bits := by rw [← h3, pending_of_zero z, List.append_nil]
    refine ⟨_, _, rfl, ⟨?_, ?_, ?_, ?_, ?_, z, hu, hpar, ?_, ?_, ?_, ?_, ?_, cs, h1, hf, ?_⟩⟩
    rotate_right
    · rw [h2, if_pos he, List.append_nil]
    all_goals simp [hw, he]
  · have z : ¬u.sess.tmsCount = 0 := fun z => he (hz.1 z)
    obtain ⟨cs, h1, h2, h3⟩ := Packed.trans (a := bits) hp hpar (sendPending_packed u)
    rw [if_neg z]
    rw [pending_of_zero (s := sendPending u) rfl, List.append_nil, List.append_nil] at h3
    refine ⟨_, _, rfl, ⟨?_, ?_, ?_, ?_, ?_, rfl, (sendPending_extends u).buffer (by rw [hpar]; exact hc) hu, hpar, ?_, ?_, ?_,
      ?_, ?_, cs, h1, h3, ?_⟩⟩
    rotate_right
    · rw [flushed_trace, h2, if_neg he, flushAnswer_full (s := sendPending u) ha, List.append_assoc]
    all_goals simp [hw, he]

/-- `moveToState` completes: what was pending and then the path is sent, and `S.tap` is the target (R105). -/
theorem moveTo_moved {s : State} {d : List Byte} (target : TapState) (hI : StateInv s = true)
    (h : s.tx.answer = .full d) :
    ∃ t, moveTo target s = .done () t ∧ Moved (s.pending ++ path s.sess.tap target) target s t := by
  obtain ⟨hpar, hbuf, -⟩ := (stateInv_iff s).1 hI
  obtain ⟨hc, -⟩ := (paramsOk_iff _).1 hpar
  have hz : (queuePath (path s.sess.tap target) s).sess.tmsCount = 0 ↔ s.pending ++ path s.sess.tap target = [] := by
    by_cases hb : path s.sess.tap target = []
    · rw [hb, List.append_nil, pending_nil_iff hbuf]
      rfl
    · simp [hb, queuePath_count hb]
  obtain ⟨buf, cnt, tr, w⟩ := queuePath_writes (path s.sess.tap target) s
  rw [walk_path] at w
  obtain ⟨n, t, e, m⟩ := flushTms_moved (queuePath_packed _ hc hbuf) w h hc
    ((queuePath_extends _ s).buffer hc hbuf) hz
  exact ⟨t, by rw [moveTo, e]; rfl, m⟩

/-- The flush after bits pushed directly, `S.tap` then written. -/
theorem pushAll_moved {s : State} {d : List Byte} {bits : List Bool} (tap : TapState) (hb : bits ≠ [])
    (hI : StateInv s = true) (h : s.tx.answer = .full d) :
    ∃ n t, flushTms true ((pushAll bits s).setTap tap) = .done n t ∧ Moved (s.pending ++ bits) tap s t := by
  obtain ⟨hpar, hbuf, -⟩ := (stateInv_iff s).1 hI
  obtain ⟨hc, -⟩ := (paramsOk_iff _).1 hpar
  obtain ⟨buf, cnt, tr, w⟩ := pushAll_writes bits s
  have hu : bufferOk ((pushAll bits s).setTap tap) = true :=
    (bufferOk_congr (s := pushAll bits s) rfl rfl rfl).trans ((pushAll_extends bits s).buffer hc hbuf)
  have w' : (pushAll bits s).setTap tap =
      { s with sess := { s.sess with tap := tap, tmsBuf := buf, tmsCount := cnt }, trace := tr } := by
    rw [w]
    rfl
  exact flushTms_moved ((pushAll_packed bits hc hbuf).congr rfl rfl rfl) w' h hc hu (by simp [hb, pushAll_count hb])

/-- `resetToTestLogicReset` completes: what was pending and then six ones are sent (R106). -/
theorem resetTap_moved {s : State} {d : List Byte} (hI : StateInv s = true) (h : s.tx.answer = .full d) :
    ∃ t, resetTap s = .done () t ∧
      Moved (s.pending ++ List.replicate Config.resetTmsCount true) .testLogicReset s t := by
  obtain ⟨n, t, e, m⟩ := pushAll_moved (bits := List.replicate Config.resetTmsCount true) .testLogicReset
    (by simp [Config.resetTmsCount]) hI h
  exact ⟨t, by rw [resetTap, e, Run.map_done], m⟩

theorem Moved.inv {bits : List Bool} {tap : TapState} {s t : State} (h : Moved bits tap s t) (hI : StateInv s = true) :
    StateInv t = true := by
  obtain ⟨h1, -, h3⟩ := (stateInv_iff s).1 hI
  exact (stateInv_iff t).2 ⟨by rw [h.params]; exact h1, h.buffer, by rw [h.mem]; exact h3⟩

theorem Moved.cooperative {bits : List Bool} {tap : TapState} {s t : State} (h : Moved bits tap s t)
    (hC : Cooperative s.tx = true) : Cooperative t.tx = true := by
  rw [h.tx]
  split
  · exact hC
  · exact cooperative_answered hC

end Sys2Proof.Machine
end

