-- ==== Sys2Proof/Tests/Slice0.lean ====
section
/-! SUPPORT. The model's own tests: the check refuses ill-formed terms, words written out from the spec decode to what they
stand for, single steps give the results of 95_test_vectors.md, and every statement's hypotheses have a witness. -/

namespace Sys2Proof.Tests

open Sys2Proof Sys2Proof.Machine

/-! ### Small states -/

/-- Parameters for the tests: a buffer of eight bits and a release that reads four bytes back. -/
def params : Params :=
  { tmsCapacity := 8, initTap := .runTestIdle, quirkId := ['q'], opc := Opc.default,
    teardownCmds := [0x84], teardownExpect := 4 }

/-- A transport that gives these answers and then full ones, and the buffer size of 95_test_vectors.md. -/
def link (script : List Answer) : Transport :=
  { script := script, steady := .full [], bufSizes := [], bufSize := 4096, product := ['r'], drawn := 0 }

/-- A live session in a TAP state, with nothing recorded yet. -/
def session (tap : TapState) (script : List Answer) : State :=
  { (State.created params (link script)).setTap tap with trace := [] }

/-- The same with bits pending, the buffer filled up to eight bits. -/
def pendingBits (bits : List Bool) (s : State) : State :=
  { s with sess := { s.sess with tmsBuf := bits ++ List.replicate (8 - bits.length) false, tmsCount := bits.length } }

/-- The same with a buffer size. -/
def sized (b : Nat) (s : State) : State := { s with tx := { s.tx with bufSize := b } }

/-- The same with the quirk flag. -/
def quirky (s : State) : State := { s with sess := { s.sess with quirk := true } }

/-- The same with one of the caller's vectors named 1. -/
def holding (bs : List Byte) (s : State) : State := { s with mem := [(1, bs)] }

/-- The next state of an instruction, where there is one. -/
def after (i : Instr) (s : State) : Option State :=
  match exec i s with
  | .next t => some t
  | .fault _ => none
  | .refused _ => none

/-- What 95_test_vectors.md shows of a request: its events without the queries, and `S.tap` at its end. -/
def seen (i : Instr) (s : State) : Option (List Event × TapState) :=
  (after i s).map fun t => (shownTrace t.trace, t.sess.tap)

/-- Is the outcome a next state of which this holds? -/
def endsIn (o : Host.Outcome State Fault Refusal) (p : State → Bool) : Bool :=
  match o with
  | .next t => p t
  | .fault _ => false
  | .refused _ => false

/-! ### The check refuses ill-formed terms -/

/-- R64: seven bits are too many for a TMS command. -/
theorem test_wf_tms_too_long : (Instr.tms 0x06 0xFF).wf = false := by decide

/-- R71: bit 7 of a TMS command's data is one. -/
theorem test_wf_tms_bit7 : (Instr.tms 0x05 0x3F).wf = false := by decide

/-- R71: the bits above the chunk's are zero. -/
theorem test_wf_tms_unused_bits : (Instr.tms 0x01 0x84).wf = false := by decide

/-- R68: a final bit's length byte is 0. -/
theorem test_wf_final_length : (Instr.finalBit 0x01 0x81).wf = false := by decide

/-- R71: bits 1 to 6 of a final bit's data are zero. -/
theorem test_wf_final_data : (Instr.finalBitRead 0x00 0x83).wf = false := by decide

/-- R65: the payload is one byte more than the length field says. -/
theorem test_wf_bytes_payload : (Instr.bytesWrite 1 [0xA5]).wf = false := by decide

/-- R65: the same with the read flag. -/
theorem test_wf_bytes_read_payload : (Instr.bytesWriteRead 0 []).wf = false := by decide

/-- R67: eight bits are too many for a bit-mode command. -/
theorem test_wf_bits_too_long :
    (Instr.bits 0x07).wf = false ∧ (Instr.bitsWrite 0x07 0x00).wf = false ∧ (Instr.bitsRead 0x07).wf = false ∧
      (Instr.bitsWriteRead 0x07 0x00).wf = false := by decide

/-- R64: the boundary, six bits. -/
theorem test_wf_tms_six_bits : (Instr.tms 0x05 0xBF).wf = true := by decide

/-- R66: the default flags are distinct single bits, and two equal ones are refused. -/
theorem test_wf_opc : Opc.default.wf = true ∧ ({ Opc.default with read := 0x10 } : Opc).wf = false := by decide

/-! ### Decoding: items written out from the encodings of 30_encoding.md -/

/-- R62: the requests with no operand, and the reserved codes. -/
theorem test_decode_bare_requests :
    decode Opc.default (.request 0x0 []) = .ok .sessionCreate ∧
    decode Opc.default (.request 0x2 []) = .ok .resetTlr ∧
    decode Opc.default (.request 0xA []) = .ok .sessionRelease ∧
    decode Opc.default (.request 0xB []) = .ok .reservedB ∧
    decode Opc.default (.request 0xC []) = .ok .reservedC ∧
    decode Opc.default (.request 0xD []) = .ok .reservedD ∧
    decode Opc.default (.request 0xE []) = .ok .reservedE ∧
    decode Opc.default (.request 0xF []) = .ok .reservedF := by decide

/-- R60, R62: UPDATE_IR is code 15. -/
theorem test_decode_moveToState : decode Opc.default (.request 0x1 [.state 15]) = .ok (.moveToState .updateIr) := by decide

/-- R62. -/
theorem test_decode_packer_requests :
    decode Opc.default (.request 0x3 [.bit true]) = .ok (.pushTms true) ∧
    decode Opc.default (.request 0x4 [.bit false]) = .ok (.flush false) := by decide

/-- R62, R73: program P2's request 4. -/
theorem test_decode_shift :
    decode Opc.default (.request 0x5 [.bytes [0xAA], .buffer 1, .nat 8, .bit false])
      = .ok (.shift (some (.bytes [0xAA])) (some 1) 8 false) := by decide

/-- R62: the end state given, and left out (RUN_TEST_IDLE). -/
theorem test_decode_shiftIr :
    decode Opc.default (.request 0x6 [.bytes [0x05], .absent, .nat 4, .state 12])
      = .ok (.shiftIr (some (.bytes [0x05])) none 4 .exit1Ir) ∧
    decode Opc.default (.request 0x7 [.byte 0x06, .nat 6]) = .ok (.shiftIrByte 0x06 6 .runTestIdle) ∧
    decode Opc.default (.request 0x8 [.buffer 2, .buffer 1, .nat 16, .state 6])
      = .ok (.shiftDr (some (.buffer 2)) (some 1) 16 .pauseDr) := by decide

/-- R62. -/
theorem test_decode_detectChain : decode Opc.default (.request 0x9 [.nat 4]) = .ok (.detectChain 4) := by decide

/-- R64, R68, R72: the three-byte TMS commands, told apart by their issuer. -/
theorem test_decode_tms :
    decode Opc.default (.command .packer [0x4B, 0x00, 0x81]) = .ok (.tms 0x00 0x81) ∧
    decode Opc.default (.command .shifter [0x4B, 0x00, 0x81]) = .ok (.finalBit 0x00 0x81) ∧
    decode Opc.default (.command .shifter [0x6B, 0x00, 0x01]) = .ok (.finalBitRead 0x00 0x01) := by decide

/-- R65: `len_lo` first, `len_hi` second, each a count less one. -/
theorem test_decode_bytes :
    decode Opc.default (.command .shifter [0x09, 0x34, 0x12]) = .ok (.bytes 0x1234) ∧
    decode Opc.default (.command .shifter [0x29, 0xFF, 0xFF]) = .ok (.bytesRead 0xFFFF) ∧
    decode Opc.default (.command .shifter [0x19, 0x01, 0x00, 0xA5, 0xE1]) = .ok (.bytesWrite 1 [0xA5, 0xE1]) ∧
    decode Opc.default (.command .shifter [0x39, 0x00, 0x00, 0x55]) = .ok (.bytesWriteRead 0 [0x55]) := by decide

/-- R67. -/
theorem test_decode_bits :
    decode Opc.default (.command .shifter [0x0B, 0x02]) = .ok (.bits 0x02) ∧
    decode Opc.default (.command .shifter [0x1B, 0x06, 0xFF]) = .ok (.bitsWrite 0x06 0xFF) ∧
    decode Opc.default (.command .shifter [0x2B, 0x02]) = .ok (.bitsRead 0x02) ∧
    decode Opc.default (.command .shifter [0x3B, 0x03, 0x15]) = .ok (.bitsWriteRead 0x03 0x15) := by decide

/-- R62, R63, R70: what is no instruction is rejected, by name. -/
theorem test_decode_rejects :
    decode Opc.default (.request 0x1 []) = .error (.badOperands 0x1) ∧
    decode Opc.default (.command .shifter []) = .error .emptyCommand ∧
    decode Opc.default (.command .shifter [0x4A, 0x00, 0x81]) = .error (.unknownOpcode 0x4A) ∧
    decode Opc.default (.command .shifter [0x19, 0x01, 0x00, 0xA5]) = .error (.badLength 0x19) ∧
    decode Opc.default (.command .packer [0x6B, 0x00, 0x81]) = .error (.wrongIssuer 0x6B) := by decide

/-- The table's words: requests by their code, commands by their opcode, the missing bytes zero. -/
theorem test_table_words :
    decodeTableWord 8 0x1 = some (.moveToState .testLogicReset) ∧
    decodeTableWord 8 0x5 = some (.shift none none 0 false) ∧
    decodeTableWord 8 0x9 = some (.detectChain 0) ∧
    decodeTableWord 8 0x4B = some (.tms 0x00 0x00) ∧
    decodeTableWord 8 0x6B = some (.finalBitRead 0x00 0x00) ∧
    decodeTableWord 8 0x19 = some (.bytesWrite 0 [0x00]) ∧
    decodeTableWord 8 0x3B = some (.bitsWriteRead 0x00 0x00) ∧
    decodeTableWord 24 0x8F034B = some (.tms 0x03 0x8F) := by decide

/-- A step from reset runs the word that was put on the port. -/
theorem test_withFetchWord :
    endsIn (step (State.reset.withFetchWord 8 0x2)) (fun t => decide (t.port = [] ∧ t.response = some (.result .none)))
      = true := by decide +kernel

/-! ### Single steps: the vectors of 95_test_vectors.md -/

/-- Vector T6. -/
theorem test_moveToState_T6 : seen (.moveToState .shiftDr) (session .testLogicReset [])
    = some ([.send [0x4B, 0x03, 0x82], .flush (.full [])], .shiftDr) := by decide +kernel

/-- Vector T7: eight bits, two commands. -/
theorem test_moveToState_T7 : seen (.moveToState .exit2Ir) (session .shiftDr [])
    = some ([.send [0x4B, 0x05, 0xAF, 0x4B, 0x01, 0x82], .flush (.full [])], .exit2Ir) := by decide +kernel

/-- Vector T14: the pending bits go first. -/
theorem test_resetTlr_T14 : seen .resetTlr (pendingBits [true, false] (session .runTestIdle []))
    = some ([.send [0x4B, 0x05, 0xBD, 0x4B, 0x01, 0x83], .flush (.full [])], .testLogicReset) := by decide +kernel

/-- Vector K1. -/
theorem test_pushTms_K1 : (after (.pushTms true) (session .runTestIdle [])).map (fun t => (t.pending, t.trace, t.sess.tap))
    = some ([true], [], .runTestIdle) := by decide +kernel

/-- R132: the ninth bit flushes the eight before it, without a `Flush` (as vector K5). -/
theorem test_pushTms_autoFlush :
    (after (.pushTms true) (pendingBits [true, false, true, false, true, false, true, false] (session .runTestIdle []))).map
      (fun t => (t.pending, shownTrace t.trace))
    = some ([true], [.send [0x4B, 0x05, 0x95, 0x4B, 0x01, 0x81]]) := by decide +kernel

/-- Vector K2: seven bits, two commands, the answer 7. -/
theorem test_flush_K2 :
    (after (.flush true) (pendingBits [true, false, true, true, false, false, true] (session .runTestIdle []))).map
      (fun t => (shownTrace t.trace, t.sess.tmsCount, t.response))
    = some ([.send [0x4B, 0x05, 0x8D, 0x4B, 0x00, 0x81], .flush (.full [])], 0, some (.result (.nat 7))) := by
  decide +kernel

/-- Vector K4: not forced, no `Flush`. -/
theorem test_flush_K4 : (after (.flush false) (pendingBits [true, true, false] (session .runTestIdle []))).map
      (fun t => (shownTrace t.trace, t.response))
    = some ([.send [0x4B, 0x02, 0x83]], some (.result (.nat 3))) := by decide +kernel

/-- Vector S12: the residual byte is realigned and the final bit is OR'd in at bit 4. -/
theorem test_shift_S12 :
    (after (.shift (some (.bytes [0x15])) (some 1) 5 true)
      (holding [0x00] (session .shiftIr [.full [], .full [0x50], .full [], .full [0x80]]))).map
        (fun t => (t.trace.drop 1, t.mem, t.sess.tap))
    = some ([.send [0x3B, 0x03, 0x15], .flush (.full []), .read 1 (.full [0x50]),
        .send [0x6B, 0x00, 0x81], .flush (.full []), .read 1 (.full [0x80])], [(1, [0x15])], .exit1Ir) := by decide +kernel

/-- Vector S3: chunks of one byte, each drained because of the quirk. -/
theorem test_shift_S3 :
    seen (.shift (some (.bytes [0x01, 0x02, 0x83])) none 24 true) (quirky (sized 4 (session .shiftDr [])))
    = some ([.send [0x19, 0x00, 0x00, 0x01], .flush (.full []), .drain 1 (.full []),
        .send [0x19, 0x00, 0x00, 0x02], .flush (.full []), .drain 1 (.full []),
        .send [0x1B, 0x06, 0x83], .flush (.full []), .drain 1 (.full []),
        .send [0x4B, 0x00, 0x81], .flush (.full []), .drain 1 (.full [])], .exit1Dr) := by decide +kernel

/-- Vector I7: the end state SHIFT_IR is reached through EXIT1_IR. -/
theorem test_shiftIr_I7 : seen (.shiftIr (some (.bytes [0x05])) none 4 .shiftIr) (session .runTestIdle [])
    = some ([.send [0x4B, 0x03, 0x83], .flush (.full []),
        .send [0x1B, 0x02, 0x05, 0x4B, 0x00, 0x01, 0x4B, 0x02, 0x82], .flush (.full [])], .shiftIr) := by decide +kernel

/-- Vector I3: eight bits are accepted. -/
theorem test_shiftIrByte_I3 : seen (.shiftIrByte 0xFF 8 .runTestIdle) (session .runTestIdle [])
    = some ([.send [0x4B, 0x03, 0x83], .flush (.full []),
        .send [0x1B, 0x06, 0xFF, 0x4B, 0x00, 0x81, 0x4B, 0x01, 0x81], .flush (.full [])], .runTestIdle) := by decide +kernel

/-- Vector I5: nine bits are not, and `S.fault` stays 0. -/
theorem test_shiftIrByte_I5 : (after (.shiftIrByte 0x06 9 .runTestIdle) (session .runTestIdle [])).map
      (fun t => (t.trace, t.response, t.sess.fault))
    = some ([], some (.error (.invalidArgument 9)), false) := by decide +kernel

/-- Vector I9: all three phases, read back. -/
theorem test_shiftDr_I9 :
    (after (.shiftDr (some (.bytes [0x34, 0x12])) (some 1) 16 .runTestIdle) (holding [0x00, 0x00]
      (session .runTestIdle [.full [], .full [], .full [0x34], .full [], .full [0x24], .full [], .full [0x00]]))).map
        (fun t => (t.mem, t.sess.tap))
    = some ([(1, [0x34, 0x12])], .runTestIdle) := by decide +kernel

/-- Vector EN3. -/
theorem test_detectChain_EN3 :
    (after (.detectChain 1) (session .shiftIr
      [.full [], .full [], .full [], .full [0x93, 0x60, 0x0B], .full [], .full [0x10], .full [], .full [0x00]])).map
        (fun t => (t.response, t.sess.tap))
    = some (some (.result (.words [0x080B6093])), .testLogicReset) := by decide +kernel

/-- Vector EN6: a buffer of three bytes ends the enumeration in SHIFT_DR. -/
theorem test_detectChain_EN6 : (after (.detectChain 2) (sized 3 (session .runTestIdle []))).map
      (fun t => (t.response, t.sess.tap, t.sess.refused))
    = some (some (.refused .bufferSizeOutOfRange), .shiftDr, true) := by decide +kernel

/-- Vector SE2: another product string leaves the quirk flag clear. -/
theorem test_sessionCreate_SE2 : (after .sessionCreate (quirky (session .shiftDr []))).map
      (fun t => (t.sess.quirk, t.sess.tap, t.trace))
    = some (false, .runTestIdle, [.product ['r']]) := by decide +kernel

/-- Vector SE3: three of four bytes come back, which is one warning. -/
theorem test_sessionRelease_SE3 : (after .sessionRelease (session .runTestIdle [.full [], .short 3])).map
      (fun t => (t.warnings, t.sess.life, t.sess.fault, t.response))
    = some ([.count 3], .released, false, some (.result .none)) := by decide +kernel

/-- Vector SE6. -/
theorem test_reservedC_SE6 : (after .reservedC (session .runTestIdle [])).map (fun t => (t.trace, t.response, t.sess.refused))
    = some ([], some (.refused .reservedRequest), true) := by decide +kernel

/-- R68, R157: FINAL_BIT leaves SHIFT_IR for EXIT1_IR. -/
theorem test_finalBit : seen (.finalBit 0x00 0x81) (session .shiftIr [])
    = some ([.send [0x4B, 0x00, 0x81]], .exit1Ir) := by decide +kernel

/-- R67: BITS_READ answers the byte read. -/
theorem test_bitsRead : (after (.bitsRead 0x02) (session .shiftDr [.full [], .full [0xA0]])).map (fun t => (t.trace, t.response))
    = some ([.send [0x2B, 0x02], .flush (.full []), .read 1 (.full [0xA0])], some (.result (.bytes [0xA0]))) := by
  decide +kernel

/-- R65, R158: BYTES_WRITE with the quirk flag drains as many bytes as it wrote. -/
theorem test_bytesWrite_quirk : seen (.bytesWrite 1 [0xA5, 0xE1]) (quirky (session .shiftDr []))
    = some ([.send [0x19, 0x01, 0x00, 0xA5, 0xE1], .flush (.full []), .drain 2 (.full [])], .shiftDr) := by decide +kernel

/-- R49: the bytes a drain takes are gone from the receive stream; a short read takes only those it gave. -/
theorem test_drain_and_short_read_consume :
    (after (.bytesWrite 1 [0xA5, 0xE1]) (quirky (session .shiftDr []))).map (fun t => t.tx.drawn) = some 2 ∧
      (after (.bytesRead 4) (session .shiftDr [.full [], .short 3])).map (fun t => (t.tx.drawn, t.response))
        = some (3, some (.error (.transport .read 5 3))) := by decide +kernel

/-- R65: under a buffer of five bytes two are the most a byte-mode command carries. -/
theorem test_bytes_fit_the_buffer :
    (after (.bytes 1) (sized 5 (session .shiftDr []))).map (fun t => t.trace)
        = some [.bufSize 5, .send [0x09, 0x01, 0x00]] ∧
      (after (.bytes 2) (sized 5 (session .shiftDr []))).map (fun t => (t.trace, t.response))
        = some ([.bufSize 5], some (.refused .malformedCommand)) := by decide +kernel

/-- R230: the five codes. -/
theorem test_outcome_codes :
    (Response.error (.invalidArgument 9)).code = some 1 ∧ (Response.error (.transport .read 5 3)).code = some 2 ∧
      (Warning.count 3).code = 3 ∧ Warning.flush.code = 3 ∧ (Response.refused .notLive).code = some 4 ∧
      Stop.stuck.code = 5 ∧ (Response.result .none).code = none := by decide

/-! ### Witnesses: states and operands that meet the hypotheses of the statements -/

/-- A shift is admitted where both checks pass on these values. -/
theorem admitted {s : State} {input : Option VecArg} {output : Option Nat} {len : Nat} {isLast : Bool}
    (h : shiftCheck (s.input input) (s.output output) (sameStorage input output) len isLast s = none)
    (k : bufSizeOk (bufSizeNow s) = true) : ShiftAdmitted s input output len isLast :=
  (shiftAdmitted_iff s input output len isLast).2 ⟨h, k⟩

/-- Three bits wait in the buffer. -/
def waiting : State := pendingBits [true, false, true] (session .shiftDr [])

/-- The buffer is full. -/
def filled : State := pendingBits [true, false, true, false, true, false, true, false] (session .shiftDr [])

/-- A released session. -/
def closed : State := (session .shiftDr []).release

theorem witness_DecodeEncodeRoundTrip :
    Opc.default.wf = true ∧ (Instr.bytesWriteRead 1 [0xA5, 0xE1]).wf = true ∧ (Instr.tms 0x05 0xBF).wf = true ∧
      (Instr.bitsWrite 0x06 0xFF).wf = true ∧ (Instr.finalBitRead 0x00 0x01).wf = true := by decide

theorem witness_EncodeGivesBackDecodedCommand :
    decode Opc.default (.command .shifter [0x39, 0x00, 0x00, 0x55]) = .ok (.bytesWriteRead 0 [0x55]) := by decide

theorem witness_EverySendIsOneWellFormedCommand :
    Instr.flush false ≠ .sessionRelease ∧ endsIn (exec (.flush false) waiting) (fun t =>
      decide (.send [0x4B, 0x02, 0x85] ∈ eventsSince waiting t)) = true := by decide +kernel

theorem witness_NextHopIsTheUniqueShortestPath :
    TapState.shiftDr ≠ .exit2Ir ∧ walk .shiftDr [true, true, true, true, false, true, false, true] = .exit2Ir := by decide

theorem witness_MoveToStateReachesTarget :
    StateInv waiting = true ∧ Ready waiting = true ∧ waiting.tx.answer = .full [] := by decide +kernel

/-- Room for the path: 3 pending bits and the 5 bits from SHIFT_DR to TEST_LOGIC_RESET fill the buffer of 8 exactly. -/
theorem witness_MoveToStateEvents :
    StateInv waiting = true ∧ Ready waiting = true ∧ waiting.tx.answer = .full [] ∧
      waiting.sess.tmsCount + (path waiting.sess.tap .testLogicReset).length = waiting.params.tmsCapacity := by
  decide +kernel

/-- Both clauses: the path of two bits is one command of three bytes, of which two are written, or three. -/
theorem witness_MoveToStateShortFlush :
    StateInv (session .shiftDr [.short 2]) = true ∧ Ready (session .shiftDr [.short 2]) = true ∧
      (session .shiftDr [.short 2]).tx.answer = .short 2 ∧
      (session .shiftDr [.short 2]).pending ++ path .shiftDr .pauseDr ≠ [] ∧
      streamTms Opc.default ([[0x4B, 0x01, 0x81]].map Event.send) = path .shiftDr .pauseDr ∧
      endsIn (exec (.moveToState .pauseDr) (session .shiftDr [.short 2]))
        (fun t => decide (t.response = some (.error (.transport .flush 3 2)))) = true ∧
      endsIn (exec (.moveToState .pauseDr) (session .shiftDr [.short 3]))
        (fun t => decide (t.response = some (.result .none))) = true := by decide +kernel

/-- The closing flush full, one byte short, and just not short: six ones are one command of three bytes. -/
theorem witness_ResetTlrReachesTestLogicReset :
    StateInv filled = true ∧ Ready filled = true ∧ filled.tx.answer = .full [] ∧
      StateInv (session .shiftDr [.short 2]) = true ∧ Ready (session .shiftDr [.short 2]) = true ∧
      (session .shiftDr [.short 2]).tx.answer = .short 2 ∧
      endsIn (exec .resetTlr (session .shiftDr [.short 2]))
        (fun t => decide (t.response = some (.error (.transport .flush 3 2)))) = true ∧
      endsIn (exec .resetTlr (session .shiftDr [.short 3]))
        (fun t => decide (t.response = some (.result .none))) = true := by decide +kernel

theorem witness_ResetTlrResynchronisesEveryTarget :
    StateInv waiting = true ∧ Ready waiting = true ∧ waiting.tx.answer = .full [] := by decide +kernel

theorem witness_MoveToStateKeepsTargetInStep :
    StateInv (session .runTestIdle []) = true ∧ Ready (session .runTestIdle []) = true ∧
      (session .runTestIdle []).tx.answer = .full [] ∧ (session .runTestIdle []).sess.tmsCount = 0 ∧
      ({ tap := .runTestIdle, level := true } : Target).tap = (session .runTestIdle []).sess.tap ∧
      (TapState.shiftIr = .shiftDr ∨ TapState.shiftIr = .shiftIr) := by decide +kernel

theorem witness_PushTmsAppendsOneBit :
    StateInv waiting = true ∧ Ready waiting = true ∧ waiting.sess.tmsCount < waiting.params.tmsCapacity := by decide +kernel

theorem witness_PushTmsAutoFlushesAFullBuffer :
    StateInv filled = true ∧ Ready filled = true ∧ filled.sess.tmsCount = filled.params.tmsCapacity := by decide +kernel

theorem witness_FlushOfEmptyBufferAnswersZero :
    Ready (session .shiftDr []) = true ∧ (session .shiftDr []).sess.tmsCount = 0 := by decide +kernel

/-- Forced under a full answer; unforced whatever the answer to come. -/
theorem witness_FlushSendsEveryPendingBit :
    StateInv waiting = true ∧ Ready waiting = true ∧ waiting.sess.tmsCount ≠ 0 ∧ waiting.tx.answer = .full [] ∧
      StateInv (pendingBits [true] (session .shiftDr [.stall])) = true ∧
      Ready (pendingBits [true] (session .shiftDr [.stall])) = true ∧
      (pendingBits [true] (session .shiftDr [.stall])).sess.tmsCount ≠ 0 := by decide +kernel

theorem witness_FlushShortRaisesTransportError :
    StateInv (pendingBits [true] (session .shiftDr [.short 2])) = true ∧
      Ready (pendingBits [true] (session .shiftDr [.short 2])) = true ∧
      (pendingBits [true] (session .shiftDr [.short 2])).tx.answer = .short 2 ∧
      2 < (queued (pendingBits [true] (session .shiftDr [.short 2])).trace
        ++ (tmsCommands Opc.default (pendingBits [true] (session .shiftDr [.short 2])).pending).flatten).length := by
  decide +kernel

theorem witness_TmsCommandLayout :
    1 ≤ [true].length ∧ [true].length ≤ 6 ∧ [true, true, true, true, true, true].length ≤ 6 := by decide

theorem witness_PackerRequestsFrame :
    Ready waiting = true ∧ endsIn (exec (.moveToState .pauseIr) waiting) (fun _ => true) = true ∧
      endsIn (exec .resetTlr waiting) (fun _ => true) = true ∧ endsIn (exec (.pushTms true) waiting) (fun _ => true) = true ∧
      endsIn (exec (.flush true) waiting) (fun _ => true) = true := by decide +kernel

/-- The four clauses: length 0 with isLast; a state next to SHIFT_DR; a vector one byte short; the same vector twice. -/
theorem witness_ShiftRefusalsInOrder :
    Ready (session .shiftDr []) = true ∧ Ready (session .exit1Dr []) = true ∧
      ¬((session .exit1Dr []).sess.tap = .shiftDr ∨ (session .exit1Dr []).sess.tap = .shiftIr) ∧
      tooShort ((session .shiftDr []).input (some (.bytes [0x05]))) 9 = true ∧
      tooShort ((session .shiftDr []).input (some (.bytes [0x05]))) 8 = false ∧
      Ready (holding [0x00] (session .shiftIr [])) = true ∧
      tooShort ((holding [0x00] (session .shiftIr [])).output (some 1)) 8 = false := by decide +kernel

/-- Both bounds: 3 and 65540. -/
theorem witness_ShiftBufferSizeRefusal :
    Ready (sized 3 waiting) = true ∧ ShiftChecked (sized 3 waiting) (some (.bytes [0x05])) none 8 false ∧
      bufSizeNow (sized 3 waiting) < 4 ∧
      Ready (sized 65540 waiting) = true ∧ ShiftChecked (sized 65540 waiting) none none 1 true ∧
      65539 < bufSizeNow (sized 65540 waiting) :=
  ⟨by decide +kernel, (shiftCheck_none_iff _ _ _ _ _).1 (by decide +kernel), by decide +kernel, by decide +kernel,
    (shiftCheck_none_iff _ _ _ _ _).1 (by decide +kernel), by decide +kernel⟩

/-- The least buffer size, and a length of one byte and one bit. -/
theorem witness_ShiftCompletes :
    Ready (sized 4 waiting) = true ∧ Cooperative (sized 4 waiting).tx = true ∧
      ShiftAdmitted (sized 4 waiting) (some (.bytes [0x05, 0x01])) none 9 true :=
  ⟨by decide +kernel, by decide +kernel, admitted (by decide +kernel) (by decide +kernel)⟩

/-- The opening flush does not answer in full. -/
theorem witness_ShiftFlushesPackerFirst :
    Ready (pendingBits [true] (session .shiftDr [.short 0])) = true ∧
      ShiftAdmitted (pendingBits [true] (session .shiftDr [.short 0])) none none 8 false ∧
      (pendingBits [true] (session .shiftDr [.short 0])).sess.tmsCount ≠ 0 ∧
      flushAnswer (sendPending (bufSizeAsked (pendingBits [true] (session .shiftDr [.short 0])))) ≠ .full [] ∧
      endsIn (exec (.shift none none 8 false) (pendingBits [true] (session .shiftDr [.short 0]))) (fun _ => true) = true :=
  ⟨by decide +kernel, admitted (by decide +kernel) (by decide +kernel), by decide +kernel, by decide +kernel,
    by decide +kernel⟩

theorem witness_ShiftWithoutOutputTrace :
    Ready (quirky waiting) = true ∧ Cooperative (quirky waiting).tx = true ∧
      ShiftAdmitted (quirky waiting) (some (.bytes [0xFF, 0x0F])) none 12 true :=
  ⟨by decide +kernel, by decide +kernel, admitted (by decide +kernel) (by decide +kernel)⟩

theorem witness_ShiftWithOutputTrace :
    Ready (holding [0x00, 0x00] waiting) = true ∧ Cooperative (holding [0x00, 0x00] waiting).tx = true ∧
      ShiftAdmitted (holding [0x00, 0x00] waiting) (some (.buffer 2)) (some 1) 0 false ∧
      ShiftAdmitted (holding [0x00, 0x00] waiting) none (some 1) 12 true :=
  ⟨by decide +kernel, by decide +kernel, admitted (by decide +kernel) (by decide +kernel),
    admitted (by decide +kernel) (by decide +kernel)⟩

/-- The start of the capture witness: all three phases answer. -/
def answering : State :=
  holding [0xFF, 0xFF, 0xFF] (session .shiftDr [.full [], .full [0x34], .full [], .full [0x24], .full [], .full [0x80]])

theorem witness_ShiftCapturesIntoOutput :
    StateInv answering = true ∧ Ready answering = true ∧ ShiftAdmitted answering none (some 1) 16 true ∧
      [[(0x34 : Byte)]].map List.length = (List.range (chunkCount (nbByte 16 true) (bufSizeNow answering - 3))).map
        (chunkSize (nbByte 16 true) (bufSizeNow answering - 3)) ∧
      answering.tx.script = (if answering.sess.tmsCount = 0 then [] else [.full []])
        ++ readScript ([[0x34]] ++ (if nbBit 16 true = 0 then [] else [[0x24]]) ++ (if true then [[0x80]] else [])) ++ [] :=
  ⟨by decide +kernel, by decide +kernel, admitted (by decide +kernel) (by decide +kernel), by decide +kernel,
    by decide +kernel⟩

/-- The target echoes vector E5's three bits, the last of them in the final bit. -/
def echoing : State := holding [0x00] (session .shiftDr [.full [], .full [0x40], .full [], .full [0x80]])

theorem witness_ShiftLoopbackReturnsTheInput :
    StateInv echoing = true ∧ Ready echoing = true ∧ ShiftAdmitted echoing (some (.bytes [0x05])) (some 1) 3 true ∧
      (∀ i : Nat, i < 3 → vecBit (echoing.mem.get 1) i = false) ∧
      echoing.tx.script = (if echoing.sess.tmsCount = 0 then [] else [.full []])
        ++ readScript
          (((List.range (chunkCount (nbByte 3 true) (bufSizeNow echoing - 3))).map fun j =>
              memRead [0x05] (j * (bufSizeNow echoing - 3)) (chunkSize (nbByte 3 true) (bufSizeNow echoing - 3) j))
            ++ (if nbBit 3 true = 0 then [] else [[vecByte [0x05] (nbByte 3 true) <<< (8 - nbBit 3 true)]])
            ++ (if true then [[if vecBit [0x05] (3 - 1) then 0x80 else 0x00]] else [])) ++ [] :=
  ⟨by decide +kernel, by decide +kernel, admitted (by decide +kernel) (by decide +kernel), by decide +kernel,
    by decide +kernel⟩

theorem witness_ShiftErrorLeavesTap :
    Ready (session .shiftDr [.full [], .full [0x34], .short 0]) = true ∧
      endsIn (exec (.shift (some (.bytes [0x34, 0x12])) (some 1) 16 true)
        (holding [0x00, 0x00] (session .shiftDr [.full [], .full [0x34], .short 0])))
        (fun t => decide (t.response = some (.error (.transport .flush 3 0)))) = true := by decide +kernel

/-- A target whose third read, that of the final bit, is short: a byte and a residual byte came before it. -/
def broken : State :=
  holding [0xFF, 0xFF, 0xFF] (session .shiftDr [.full [], .full [0x34], .full [], .full [0x24], .full [], .short 0])

/-- The read of the final bit, and the first read of all. -/
theorem witness_ShiftShortReadIsDiscarded :
    StateInv broken = true ∧ Ready broken = true ∧ ShiftAdmitted broken none (some 1) 16 true ∧
      shiftPlan Opc.default none true 16 true (bufSizeNow broken - 3)
        = [([0x29, 0x00, 0x00], 1), ([0x2B, 0x06], 1)] ++ ([0x6B, 0x00, 0x01], 1) :: [] ∧
      [[(0x34 : Byte)], [0x24]].map List.length = [1, 1] ∧ 0 < 1 ∧
      broken.tx.script = [] ++ readScript [[0x34], [0x24]] ++ [.full [], .short 0] ++ [] ∧
      endsIn (exec (.shift none (some 1) 16 true) broken) (fun t => decide (t.mem = [(1, [0x34, 0x12, 0xFF])])) = true ∧
      (session .shiftDr [.full [], .short 1]).tx.script = [] ++ readScript [] ++ [.full [], .short 1] ++ [] :=
  ⟨by decide +kernel, by decide +kernel, admitted (by decide +kernel) (by decide +kernel), by decide +kernel,
    by decide +kernel, by decide, by decide +kernel, by decide +kernel, by decide +kernel⟩

/-- The first byte past nine bits is byte 2. -/
theorem witness_ShiftRequestsFrame :
    StateInv (holding [0x00, 0x00, 0x77] waiting) = true ∧ Ready (holding [0x00, 0x00, 0x77] waiting) = true ∧
      endsIn (exec (.shift none (some 1) 9 false) (holding [0x00, 0x00, 0x77] waiting)) (fun _ => true) = true ∧
      outputOf (.shift none (some 1) 9 false) = some (1, 9) ∧ (9 + 7) / 8 ≤ 2 ∧
      (holding [0x00, 0x00, 0x77] waiting).readByte 1 2 = some 0x77 := by decide +kernel

theorem witness_ShiftIrAndShiftDrComplete :
    StateInv (session .pauseIr []) = true ∧ Ready (session .pauseIr []) = true ∧
      Cooperative (session .pauseIr []).tx = true ∧
      ShiftAdmitted ((session .pauseIr []).setTap .shiftDr) (some (.bytes [0x05])) none 8 true :=
  ⟨by decide +kernel, by decide +kernel, by decide +kernel, admitted (by decide +kernel) (by decide +kernel)⟩

/-- The three clauses: the first move ends short; the shift is refused for its buffer size; all three complete. -/
theorem witness_ShiftRegisterIsTheThreeRequests :
    Ready (session .runTestIdle [.short 0]) = true ∧
      ShiftChecked ((session .runTestIdle [.short 0]).setTap .shiftDr) none none 1 true ∧
      endsIn (exec (.moveToState .shiftDr) (session .runTestIdle [.short 0]))
        (fun a => decide (a.response ≠ some (.result .none))) = true ∧
      endsIn (exec (.moveToState .shiftDr) (sized 3 (session .runTestIdle []))) (fun a =>
        decide (a.response = some (.result .none)) && endsIn (exec (.shift none none 1 true) a) (fun b =>
          decide (b.response ≠ some (.result .none)) && endsIn (exec (.moveToState .runTestIdle) b) (fun _ => true))) = true ∧
      endsIn (exec (.moveToState .shiftDr) (session .runTestIdle [])) (fun a =>
        decide (a.response = some (.result .none)) && endsIn (exec (.shift none none 1 true) a) (fun b =>
          decide (b.response = some (.result .none)) && endsIn (exec (.moveToState .runTestIdle) b) (fun _ => true))) = true :=
  ⟨by decide +kernel, (shiftCheck_none_iff _ _ _ _ _).1 (by decide +kernel), by decide +kernel, by decide +kernel,
    by decide +kernel⟩

/-- The three clauses: length 0, a vector one byte short, the same vector twice. -/
theorem witness_ShiftRegisterRefusals :
    Ready (holding [0x00] (session .runTestIdle [])) = true ∧
      tooShort ((holding [0x00] (session .runTestIdle [])).output (some 1)) 9 = true ∧
      tooShort ((holding [0x00] (session .runTestIdle [])).input (some (.buffer 1))) 8 = false ∧
      tooShort ((holding [0x00] (session .runTestIdle [])).output (some 1)) 8 = false := by decide +kernel

/-- The boundary: 9 bits are too many. -/
theorem witness_InvalidArgumentIsShiftIrByteAlone :
    Ready waiting = true ∧ 8 < 9 ∧ endsIn (exec (.shiftIrByte 0x06 9 .runTestIdle) waiting)
      (fun t => decide (t.response = some (.error (.invalidArgument 9)))) = true := by decide +kernel

theorem witness_ShiftIrByteIsShiftIrOfOneByte :
    1 ≤ 8 ∧ 8 ≤ 8 ∧ StateInv (sized 65539 waiting) = true ∧ Ready (sized 65539 waiting) = true ∧
      Cooperative (sized 65539 waiting).tx = true ∧ 4 ≤ bufSizeNow (sized 65539 waiting) ∧
      bufSizeNow (sized 65539 waiting) ≤ 65539 := by decide +kernel

theorem witness_ShiftIrToExit1LeavesCommandsQueued :
    StateInv waiting = true ∧ Ready waiting = true ∧ Cooperative waiting.tx = true ∧ waiting.sess.quirk = false ∧
      ShiftAdmitted (waiting.setTap .shiftDr) (some (.bytes [0x05])) none 4 true ∧
      endsIn (exec (.shiftDr (some (.bytes [0x05])) none 4 .exit1Dr) waiting)
        (fun t => decide (queued t.trace = [0x1B, 0x02, 0x05, 0x4B, 0x00, 0x01])) = true :=
  ⟨by decide +kernel, by decide +kernel, by decide +kernel, by decide +kernel,
    admitted (by decide +kernel) (by decide +kernel), by decide +kernel⟩

/-- It completes; a short read in its window ends it; a buffer size of 3 is refused. -/
theorem witness_DetectChainCompletes :
    StateInv waiting = true ∧ Ready waiting = true ∧ Cooperative waiting.tx = true ∧ SizesOk waiting.tx = true ∧
      endsIn (exec (.detectChain 1) (session .pauseDr [.full [], .full [], .full [], .short 2]))
        (fun t => decide (.read 3 (.short 2) ∈ eventsSince (session .pauseDr [.full [], .full [], .full [], .short 2]) t ∧
          Event.cutShort (.read 3 (.short 2)) = true)) = true ∧
      endsIn (exec (.detectChain 1) (sized 3 waiting)) (fun t => decide (.bufSize 3 ∈ eventsSince (sized 3 waiting) t)) = true := by
  decide +kernel

/-- A chain of two words, of which the first is no device, read with the least and with the greatest buffer size. -/
def chain : State :=
  { session .pauseDr ([.full [], .full []] ++ readScript (windowsAnswers [(0xFFFFFFFF, 4), (0x4BA00477, 65539)]) ++ [.full []])
    with tx := { link ([.full [], .full []] ++ readScript (windowsAnswers [(0xFFFFFFFF, 4), (0x4BA00477, 65539)]) ++ [.full []])
      with bufSizes := [4], bufSize := 65539 } }

theorem witness_DetectChainReturnsTheRecordedWords :
    StateInv chain = true ∧ Ready chain = true ∧
      ([(0xFFFFFFFF, 4), (0x4BA00477, 65539)] : List (Word32 × Nat)).map Prod.snd
        = (List.range 2).map (fun k => chain.tx.bufSizes.getD k chain.tx.bufSize) ∧
      (∀ p ∈ ([(0xFFFFFFFF, 4), (0x4BA00477, 65539)] : List (Word32 × Nat)), 4 ≤ p.2 ∧ p.2 ≤ 65539) ∧
      chain.tx.script = [.full [], .full []] ++ readScript (windowsAnswers [(0xFFFFFFFF, 4), (0x4BA00477, 65539)])
        ++ [.full []] ++ [] := by decide +kernel

theorem witness_DetectChainOfNoWindows :
    StateInv (session .pauseDr []) = true ∧ Ready (session .pauseDr []) = true ∧
      Cooperative (session .pauseDr []).tx = true ∧ (session .pauseDr []).sess.tmsCount = 0 ∧
      6 ≤ (session .pauseDr []).params.tmsCapacity := by decide +kernel

theorem witness_SessionCreateWritesEveryField : closed.busy = false := by decide +kernel

/-- A short flush and a short read: two warnings. -/
theorem witness_SessionReleaseCompletesRegardless :
    Ready (session .shiftDr [.short 0, .short 3]) = true ∧ NeverStalls (session .shiftDr [.short 0, .short 3]).tx = true := by
  decide +kernel

theorem witness_QuirkAndParametersNeverChange :
    endsIn (exec .resetTlr (quirky waiting)) (fun t => t.sess.quirk) = true ∧ Instr.resetTlr ≠ .sessionCreate := by
  decide +kernel

/-- The three clauses: marks kept through a release, an error, a refusal. -/
theorem witness_FaultAndRefusedAreSticky :
    Instr.sessionRelease ≠ .sessionCreate ∧
      endsIn (exec .sessionRelease waiting.setFault.setRefused) (fun t => t.sess.fault && t.sess.refused) = true ∧
      endsIn (exec .resetTlr (session .shiftDr [.short 0]))
        (fun t => decide (t.response = some (.error (.transport .flush 3 0)))) = true ∧
      endsIn (exec .reservedB waiting) (fun t => decide (t.response = some (.refused .reservedRequest))) = true := by
  decide +kernel

theorem witness_ReleasedSessionRefusesEveryRequest :
    Instr.sessionRelease ≠ .sessionCreate ∧ closed.busy = false ∧ closed.sess.life = .released := by decide +kernel

theorem witness_BusyPortRefusesEveryRequest : ({ waiting with busy := true } : State).busy = true := by decide

theorem witness_ReservedCodesAreRefused :
    Instr.reservedF ∈ ([.reservedB, .reservedC, .reservedD, .reservedE, .reservedF] : List Instr) ∧ Ready waiting = true := by
  decide +kernel

theorem witness_StalledRequestNeverCompletes :
    (session .shiftDr [.stall]).busy = false ∧
      endsIn (exec .resetTlr (session .shiftDr [.stall])) (fun t => t.busy && decide (t.port = [] ∧
        .flush .stall ∈ eventsSince (session .shiftDr [.stall]) t ∧ Event.stalled (.flush .stall) = true)) = true := by
  decide +kernel

theorem witness_TmsCommandIsSent :
    StateInv waiting = true ∧ Ready waiting = true ∧ (Instr.tms 0x05 0xBF).wf = true := by decide +kernel

theorem witness_WritingCommandsComplete :
    isWriteCommand (.finalBit 0x00 0x81) = true ∧ (Instr.finalBit 0x00 0x81).wf = true ∧
      isWriteCommand (.bytesWrite 0 [0xA5]) = true ∧ (Instr.bytesWrite 0 [0xA5]).wf = true ∧
      isWriteCommand (.bits 0x06) = true ∧ (Instr.bits 0x06).wf = true ∧
      Ready (quirky (sized 4 waiting)) = true ∧ Cooperative (quirky (sized 4 waiting)).tx = true ∧
      ((quirky (sized 4 waiting)).sess.tap = .shiftDr ∨ (quirky (sized 4 waiting)).sess.tap = .shiftIr) ∧
      FitsBuffer (.bytesWrite 0 [0xA5]) (quirky (sized 4 waiting)) ∧ FitsBuffer (.bits 0x06) (quirky (sized 4 waiting)) := by
  unfold FitsBuffer
  decide +kernel

theorem witness_ReadingCommandsComplete :
    isReadCommand (.finalBitRead 0x00 0x01) = true ∧ (Instr.finalBitRead 0x00 0x01).wf = true ∧
      isReadCommand (.bytesRead 0xFFFF) = true ∧ isReadCommand (.bitsWriteRead 0x00 0x01) = true ∧
      (Instr.bitsWriteRead 0x00 0x01).wf = true ∧ Ready (sized 65539 waiting) = true ∧
      Cooperative (sized 65539 waiting).tx = true ∧
      ((sized 65539 waiting).sess.tap = .shiftDr ∨ (sized 65539 waiting).sess.tap = .shiftIr) ∧
      FitsBuffer (.bytesRead 0xFFFF) (sized 65539 waiting) ∧ FitsBuffer (.finalBitRead 0x00 0x01) (sized 65539 waiting) := by
  unfold FitsBuffer
  decide +kernel

theorem witness_MalformedCommandsAreRefused :
    (Instr.tms 0x06 0x80).wf = false ∧ (Instr.bits 0x07).wf = false ∧ Ready waiting = true ∧
      (isWriteCommand (.bits 0x06) = true ∧ (Instr.bits 0x06).wf = true ∧ Ready (session .exit1Dr []) = true ∧
        ¬((session .exit1Dr []).sess.tap = .shiftDr ∨ (session .exit1Dr []).sess.tap = .shiftIr)) ∧
      (isByteCommand (.bytesRead 1) = true ∧ (Instr.bytesRead 1).wf = true ∧ Ready (sized 3 waiting) = true ∧
        bufSizeNow (sized 3 waiting) < 4 ∧ 65539 < bufSizeNow (sized 65540 waiting)) ∧
      bufSizeNow (sized 4 waiting) - 3 < responseBytes (.bytesRead 1) := by decide +kernel

theorem witness_CommandsFrame :
    encode waiting.params.opc (.bits 0x00) = .command .shifter [0x0B, 0x00] ∧
      endsIn (exec (.bits 0x00) waiting) (fun _ => true) = true ∧ isFinalCommand (.bits 0x00) = false := by decide +kernel

/-- The four clauses: an item that decodes, one that does not, nothing waiting, and nothing waiting after a stall. -/
theorem witness_StepRunsTheDecodedInstruction :
    decode (waiting.withFetchWord 8 0x4).params.opc (.request 0x4 [.bit false]) = .ok (.flush false) ∧
      (waiting.withFetchWord 8 0x4).port = [.request 0x4 [.bit false]] ∧
      decode waiting.params.opc (.command .packer [0x4A]) = .error (.unknownOpcode 0x4A) ∧
      waiting.port = [] ∧ waiting.busy = false ∧ ({ waiting with busy := true } : State).busy = true := by decide +kernel

theorem witness_ResetIsSessionCreation :
    waiting.busy = false ∧ endsIn (exec .sessionCreate waiting) (fun _ => true) = true := by decide +kernel

theorem witness_StepKeepsTheInvariant :
    StateInv (filled.withFetchWord 8 0x2) = true ∧ endsIn (step (filled.withFetchWord 8 0x2)) (fun _ => true) = true := by
  decide +kernel

theorem witness_EveryReadAndDrainFollowsAFlush :
    endsIn (exec (.bitsRead 0x02) waiting) (fun t => decide (t.trace.length = 5)) = true := by decide +kernel

theorem witness_CompositeRequestsEndWithAnEmptyBuffer :
    endsIn (exec (.shiftDr none none 1 .pauseDr) waiting) (fun t => decide (t.response = some (.result .none))) = true := by
  decide +kernel

/-- The boundary: bit 31. -/
theorem witness_WindowWordIsLittleEndian :
    31 < 32 ∧ (wordOf [0x77, 0x04, 0xA0, 0x4B]) = 0x4BA00477 ∧ vecBit [0x00, 0x00, 0x00, 0x80] 31 = true := by decide

end Sys2Proof.Tests
end

section
/-! The invariant of the machine, its parameters and its quirk flag through every instruction and every step
(10_state.md R20, R23, R24). -/

namespace Sys2Proof.Machine

open Sys2Proof

/-- What exec can answer: the conclusion of a session just created, or the conclusion of a run that made progress. -/
theorem exec_cases {i : Instr} {s t : State} (h : exec i s = .next t) :
    (i = .sessionCreate ∧ t = concluded (.done .none (createSession s))) ∨
      ∃ x : Run State Result, t = concluded x ∧ Progress s x.final := by
  rw [exec_eq] at h
  injection h with h
  split at h
  · exact .inr ⟨_, h.symm, .refl s⟩
  · by_cases hi : i = .sessionCreate
    · subst hi
      exact .inl ⟨rfl, h.symm⟩
    · exact .inr ⟨_, h.symm, body_progress i hi s⟩

/-! ### The invariant -/

/-- The invariant looks at the parameters, the two buffer fields and the caller's memory alone. -/
theorem stateInv_congr {s t : State} (hp : t.params = s.params) (hb : t.sess.tmsBuf = s.sess.tmsBuf)
    (hc : t.sess.tmsCount = s.sess.tmsCount) (hm : t.mem = s.mem) : StateInv t = StateInv s := by
  simp [StateInv, bufferOk_congr hp hb hc, hp, hm]

/-- The answer to the caller is outside the invariant. -/
theorem concluded_stateInv (x : Run State Result) : StateInv (concluded x) = StateInv x.final :=
  stateInv_congr (concluded_params x) (concluded_tmsBuf x) (concluded_tmsCount x) (concluded_mem x)

/-- Creation writes a whole buffer of zeros with none of them valid (R210). -/
theorem createSession_bufferOk (s : State) : bufferOk (createSession s) = true := by
  rw [bufferOk_iff]
  simp [Session.created]

theorem createSession_stateInv {s : State} (h : StateInv s = true) : StateInv (createSession s) = true := by
  obtain ⟨hparams, -, hmem⟩ := (stateInv_iff s).1 h
  exact (stateInv_iff _).2 ⟨hparams, createSession_bufferOk s, hmem⟩

theorem Progress.stateInv {s t : State} (p : Progress s t) (h : StateInv s = true) : StateInv t = true := by
  obtain ⟨hparams, hbuffer, hmem⟩ := (stateInv_iff s).1 h
  have hcapacity : 1 ≤ s.params.tmsCapacity := ((paramsOk_iff _).1 hparams).1
  exact (stateInv_iff t).2 ⟨by rw [p.params]; exact hparams, p.buffer hcapacity hbuffer, p.memory hmem⟩

theorem exec_stateInv {i : Instr} {s t : State} (hI : StateInv s = true) (h : exec i s = .next t) :
    StateInv t = true := by
  obtain ⟨-, rfl⟩ | ⟨x, rfl, p⟩ := exec_cases h
  · rw [concluded_stateInv]
    exact createSession_stateInv hI
  · rw [concluded_stateInv]
    exact p.stateInv hI

/-- Taking an item off the port is outside the invariant. -/
theorem takeItem_stateInv {s : State} (rest : List PortItem) (h : StateInv s = true) :
    StateInv { s with port := rest } = true :=
  (stateInv_congr rfl rfl rfl rfl).trans h

/-- A step to a next state is idle, or it runs the instruction decoded from the port's first item, now taken off. -/
theorem step_cases {s t : State} (h : step s = .next t) :
    t = s ∨ ∃ item rest i, s.port = item :: rest ∧ decode s.params.opc item = .ok i ∧
      exec i { s with port := rest } = .next t := by
  unfold step at h
  split at h
  · split at h
    · cases h
    · injection h with h
      exact .inl h.symm
  · next item rest hport =>
    split at h
    · next i hdecode => exact .inr ⟨item, rest, i, hport, hdecode, h⟩
    · cases h

/-- Settles O57: exec keeps the invariant by its frame, and taking the item off the port touches none of it. -/
theorem stepKeepsTheInvariant : Obligations.StepKeepsTheInvariant := by
  intro s t hI h
  obtain rfl | ⟨item, rest, i, -, -, hexec⟩ := step_cases h
  · exact hI
  · exact exec_stateInv (takeItem_stateInv rest hI) hexec

/-! ### The parameters and the quirk flag -/

/-- Settles O43: creation keeps the parameters, and every other run keeps the quirk flag as well. -/
theorem quirkAndParametersNeverChange : Obligations.QuirkAndParametersNeverChange := by
  intro i s t h
  obtain ⟨hi, rfl⟩ | ⟨x, rfl, p⟩ := exec_cases h
  · exact ⟨rfl, fun hne => absurd hi hne⟩
  · exact ⟨(concluded_params x).trans p.params, fun _ => (concluded_quirk x).trans p.quirk⟩

end Sys2Proof.Machine
end

section
/-! How a request of a ready session is answered, and what ends it: the marks of S (10_state.md R25), the requests refused
before any effect (42_data_shifter.md R150, R161, R163), and reset (70_reset_and_hazards.md R260). -/

namespace Sys2Proof.Machine

open Sys2Proof

/-! ### Answers and marks -/

theorem exec_ready (i : Instr) {s : State} (h : Ready s = true) : exec i s = .next (concluded (body i s)) :=
  exec_idle i s ((ready_iff s).1 h).1

theorem live_ready {α : Type} (b : State → Run State α) {s : State} (h : Ready s = true) : live b s = b s :=
  live_eq ((ready_iff s).1 h).2

/-- Only a run that ended in an error is answered with one. -/
theorem eq_error_of_concluded {x : Run State Result} {e : Error} (h : (concluded x).response = some (.error e)) :
    ∃ u, x = .ended (.error e) u ∧ (concluded x).sess = u.sess := by
  cases x with
  | done r u => simp at h
  | ended w u =>
    cases w with
    | error e' =>
      obtain rfl : e' = e := by simpa using h
      exact ⟨u, rfl, rfl⟩
    | refused r => simp at h
    | stuck => simp at h

/-- R27: the answer to a refused run comes with the mark. -/
theorem concluded_refused_of_response {x : Run State Result} {r : Reason}
    (h : (concluded x).response = some (.refused r)) : (concluded x).sess.refused = true := by
  cases x with
  | done a u => simp at h
  | ended w u =>
    cases w with
    | error e => simp at h
    | refused r' => rfl
    | stuck => simp at h

/-- An error that exec answers is the one its body ended with. -/
theorem exec_error {i : Instr} {s t : State} {e : Error} (h : exec i s = .next t)
    (he : t.response = some (.error e)) : ∃ u, body i s = .ended (.error e) u ∧ t.sess = u.sess := by
  rw [exec_eq] at h
  injection h with h
  subst h
  split at he
  · simp [refuse] at he
  · next hbusy =>
    rw [if_neg hbusy]
    exact eq_error_of_concluded he

theorem live_stops {α : Type} (b : State → Run State α) (s : State) (h : ∀ u, StopsAt True (b u)) :
    StopsAt True (live b s) := by
  unfold live
  split
  · exact h s
  · trivial

theorem guarded_stops (c : Bool) {s : State} {x : Run State Result} (hx : StopsAt True x) :
    StopsAt True (if c then x else refuse .malformedCommand s) := by
  cases c
  · trivial
  · exact hx

theorem releaseFlush_stops (m : Prop) (s : State) : StopsAt m (releaseFlush s) := by
  unfold releaseFlush
  split
  · trivial
  · trivial
  · next h => exact .inl (by simp [h])

theorem releaseRead_stops (m : Prop) (n : Nat) (s : State) : StopsAt m (releaseRead n s) := by
  unfold releaseRead
  split
  · trivial
  · split
    · trivial
    · trivial
    · next h => exact .inr (.inl ⟨n, by simp [h]⟩)

theorem releaseSession_stops (m : Prop) (s : State) : StopsAt m (releaseSession s) :=
  .bind (releaseFlush_stops m _) fun _ _ _ => .bind (releaseRead_stops m _ _) fun _ _ _ => trivial

/-- R231, R232: every body stops at a short answer, at a stall or at a refusal, but for SHIFT_IR_BYTE of more than 8 bits,
which ends with InvalidArgument and has written nothing. -/
theorem body_stops (i : Instr) (s : State) : StopsAt True (body i s) ∨
    ∃ tdi n e, i = .shiftIrByte tdi n e ∧ 8 < n ∧ body i s = .ended (.error (.invalidArgument n)) s := by
  cases i
  case shiftIrByte tdi n e =>
    by_cases hlive : s.sess.life = .live
    · by_cases hn : n > 8
      · exact .inr ⟨tdi, n, e, rfl, hn, by simp [body, live, hlive, hn, raise]⟩
      · left
        simp only [body, live, hlive, if_true, hn, if_false]
        exact (shiftRegister_stops _ _ _ _ _ _).map _
    · left
      simp only [body, live, hlive, if_false]
      trivial
  all_goals
    left
    dsimp only [body]
  case sessionCreate => trivial
  case moveToState => exact live_stops _ s fun u => (moveTo_stops _ _ u).map _
  case resetTlr => exact live_stops _ s fun u => (resetTap_stops _ u).map _
  case pushTms => exact live_stops _ s fun _ => trivial
  case flush => exact live_stops _ s fun u => (flushTms_stops _ _ u).map _
  case shift => exact live_stops _ s fun u => (shiftVectors_stops _ _ _ _ u).map _
  case shiftIr | shiftDr => exact live_stops _ s fun u => (shiftRegister_stops _ _ _ _ _ u).map _
  case detectChain => exact live_stops _ s fun u => (detect_stops _ u).map _
  case sessionRelease => exact live_stops _ s fun u => (releaseSession_stops _ u).map _
  case reservedB | reservedC | reservedD | reservedE | reservedF => exact live_stops _ s fun _ => trivial
  case tms => exact live_stops _ s fun _ => guarded_stops _ trivial
  case bytes | bytesRead => exact live_stops _ s fun u => byteDataCommand_stops _ _ _ u
  case bytesWrite | bytesWriteRead => exact live_stops _ s fun u => guarded_stops _ (byteDataCommand_stops _ _ _ u)
  case finalBit | finalBitRead | bits | bitsWrite | bitsRead | bitsWriteRead =>
    exact live_stops _ s fun u => guarded_stops _ (dataCommand_stops _ _ _ _ u)

/-- R232: a TransportError comes with `S.fault`. -/
theorem exec_transport_fault {i : Instr} {s t : State} {p : Primitive} {asked n : Nat} (h : exec i s = .next t)
    (he : t.response = some (.error (.transport p asked n))) : t.sess.fault = true := by
  obtain ⟨u, hbody, hsess⟩ := exec_error h he
  rw [hsess]
  rcases body_stops i s with hstop | ⟨_, _, _, -, -, hinvalid⟩
  · rw [hbody] at hstop
    exact hstop.1
  · rw [hbody] at hinvalid
    simp at hinvalid

/-- Settles O44: every run but creation's keeps the marks by its frame, and the answer of an error or a refusal sets one. -/
theorem faultAndRefusedAreSticky : Obligations.FaultAndRefusedAreSticky := by
  intro i s t h
  have hfault : ∀ p asked n, t.response = some (.error (.transport p asked n)) → t.sess.fault = true :=
    fun _ _ _ he => exec_transport_fault h he
  obtain ⟨hi, rfl⟩ | ⟨x, rfl, hx⟩ := exec_cases h
  · exact ⟨fun hne => absurd hi hne, hfault, fun _ hr => concluded_refused_of_response hr⟩
  · exact ⟨fun _ => ⟨fun hf => (concluded_fault x).trans (hx.fault hf),
      fun hm => concluded_refused_mono x (hx.refused.trans hm)⟩, hfault, fun _ hr => concluded_refused_of_response hr⟩

/-! ### Refusals of the shifts -/

/-- R27: a body that refuses at once sets `S.refused` and changes nothing else but the answer. -/
theorem exec_refused {i : Instr} {s : State} {r : Reason} (h : Ready s = true) (hb : body i s = refuse r s) :
    exec i s = .next { s with sess := { s.sess with refused := true }, response := some (.refused r) } := by
  rw [exec_ready i h, hb]
  rfl

/-- Writing back the vector that was read leaves the caller's memory alone. -/
theorem putOutput_unchanged {s u : State} (output : Option Nat) (h : u.mem = s.mem) :
    u.putOutput output (s.output output) = u := by
  cases output with
  | none => rfl
  | some n => simp [State.putOutput, State.output, h]

section
variable {s : State} {input : Option VecArg} {output : Option Nat} {len : Nat}

/-- R150, check 4. -/
theorem vectorCheck_short
    (h : (∃ bs, s.input input = some bs ∧ bs.length < (len + 7) / 8) ∨
      ∃ bs, s.output output = some bs ∧ bs.length < (len + 7) / 8) :
    vectorCheck (s.input input) (s.output output) (sameStorage input output) len = some .shortVector := by
  rw [← tooShort_iff, ← tooShort_iff] at h
  rw [vectorCheck, if_pos h]

/-- R150, check 5. -/
theorem vectorCheck_aliased
    (h : ¬((∃ bs, s.input input = some bs ∧ bs.length < (len + 7) / 8) ∨
      ∃ bs, s.output output = some bs ∧ bs.length < (len + 7) / 8))
    (ha : ∃ n, input = some (.buffer n) ∧ output = some n) :
    vectorCheck (s.input input) (s.output output) (sameStorage input output) len = some .aliasedVectors := by
  rw [← tooShort_iff, ← tooShort_iff] at h
  rw [← sameStorage_iff] at ha
  rw [vectorCheck, if_neg h, if_pos ha]

/-- A shift that one of the checks 2 to 5 finds fault with is refused as it stands. -/
theorem shift_refused {isLast : Bool} {r : Reason} (h : Ready s = true)
    (hc : shiftCheck (s.input input) (s.output output) (sameStorage input output) len isLast s = some r) :
    exec (.shift input output len isLast) s =
      .next { s with sess := { s.sess with refused := true }, response := some (.refused r) } := by
  refine exec_refused h ?_
  rw [body, live_ready _ h, shiftVectors, shiftValues, hc, Run.mapState_ended, putOutput_unchanged output rfl]
  rfl

/-- SHIFT_IR and SHIFT_DR are refused as their expansion is. -/
theorem shiftRegister_refused {i : Instr} {endState : TapState} {r : Reason}
    (hi : i = .shiftIr input output len endState ∨ i = .shiftDr input output len endState) (h : Ready s = true)
    (hr : ∀ x, shiftRegister x input output len endState s = refuse r s) :
    exec i s = .next { s with sess := { s.sess with refused := true }, response := some (.refused r) } := by
  refine exec_refused h ?_
  rcases hi with rfl | rfl
  · rw [body, live_ready _ h, hr]
    rfl
  · rw [body, live_ready _ h, hr]
    rfl

end

/-- Settles O21, each reason by the check that gives it. -/
theorem shiftRefusalsInOrder : Obligations.ShiftRefusalsInOrder := by
  intro s input output len isLast h
  dsimp only
  simp only [← isShiftState_iff]
  refine ⟨fun hz => shift_refused h ?_, fun hz ht => shift_refused h ?_, fun hz ht hv => shift_refused h ?_,
    fun hz ht hv ha => shift_refused h ?_⟩
  · rw [shiftCheck, if_pos hz]
  · rw [shiftCheck, if_neg hz, if_neg ht]
  · rw [shiftCheck, if_neg hz, if_pos ht, vectorCheck_short hv]
  · rw [shiftCheck, if_neg hz, if_pos ht, vectorCheck_aliased hv ha]

/-- Settles O22: the checks pass, so the query is made, and its answer is refused. -/
theorem shiftBufferSizeRefusal : Obligations.ShiftBufferSizeRefusal := by
  intro s input output len isLast h hc hB
  have hsize : ¬bufSizeOk (bufSizeNow s) = true := by
    rw [bufSizeOk_iff]
    omega
  rw [exec_ready _ h, body, live_ready _ h, shiftVectors, shiftValues, (shiftCheck_none_iff s input output len isLast).2 hc]
  simp only [if_neg hsize, Run.mapState_ended, putOutput_unchanged (s := s) (u := bufSizeAsked s) output rfl]
  rfl

/-- Settles O34: the expansion checks the length and the vectors before its first move. -/
theorem shiftRegisterRefusals : Obligations.ShiftRegisterRefusals := by
  intro i s input output len endState hi h
  refine ⟨fun hz => shiftRegister_refused hi h fun x => ?_, fun hz hv => shiftRegister_refused hi h fun x => ?_,
    fun hz hv ha => shiftRegister_refused hi h fun x => ?_⟩
  · rw [shiftRegister, if_pos hz]
  · rw [shiftRegister, if_neg hz, vectorCheck_short hv]
  · rw [shiftRegister, if_neg hz, vectorCheck_aliased hv ha]

/-! ### Reset -/

theorem created_stateInv {p : Params} (tx : Transport) (h : paramsOk p = true) :
    StateInv (State.created p tx) = true := by
  refine (stateInv_iff _).2 ⟨h, (bufferOk_iff _).2 ?_, rfl⟩
  simp [State.created, Session.created]

/-- Settles O56: what creation writes is legal wherever the parameters are. -/
theorem invariantAtReset : Obligations.InvariantAtReset :=
  created_stateInv Transport.reset (by decide)

/-- Settles O55: reset is creation by definition, and SESSION_CREATE writes the same record. -/
theorem resetIsSessionCreation : Obligations.ResetIsSessionCreation := by
  refine ⟨fun p tx => rfl, ⟨Config.resetParams, Transport.reset, rfl, rfl, rfl⟩, fun s t hbusy h => ?_⟩
  rw [exec_idle _ _ hbusy] at h
  injection h with h
  rw [← h]
  rfl

end Sys2Proof.Machine
end

section
/-! The packer's commands on the stream and the target that follows them (10_state.md R22, 41_tms_packer.md R133, R134,
70_reset_and_hazards.md R264, R265). -/

namespace Sys2Proof.Machine

open Sys2Proof

/-! ### A short flush -/

/-- R28: commands sent join the queue. -/
theorem queued_sends (trace : List Event) (cmds : List (List Byte)) :
    queued (trace ++ cmds.map Event.send) = queued trace ++ cmds.flatten := by
  induction cmds generalizing trace with
  | nil => simp
  | cons c cs ih =>
    have hone : queued (trace ++ [.send c]) = queued trace ++ c := by simp [queued, queueAfter]
    rw [List.map_cons, List.append_cons, ih, hone, List.flatten_cons, List.append_assoc]

theorem flushAsked_sendPending (s : State) : flushAsked (sendPending s) =
    (queued s.trace ++ (tmsCommands s.params.opc s.pending).flatten).length := by
  rw [flushAsked, sendPending_trace, queued_sends]

/-- Settles O17: the pending bits go out and the buffer is emptied before the `Flush` that answers short. -/
theorem flushShortRaisesTransportError : Obligations.FlushShortRaisesTransportError := by
  intro s n _ h hcount hanswer hshort
  rw [← flushAsked_sendPending] at hshort ⊢
  obtain ⟨hflush, hrun⟩ := txFlush_short (s := sendPending s) hanswer hshort
  have hbody : body (.flush true) s =
      .ended (.error (.transport .flush (flushAsked (sendPending s)) n)) (flushed (sendPending s)).setFault := by
    rw [body, live_ready _ h, flushTms, if_neg hcount, if_pos rfl, hrun]
    rfl
  refine ⟨_, exec_ready _ h, ?_⟩
  rw [hbody]
  exact ⟨rfl, rfl, rfl, rfl, rfl, by simp [hflush]⟩

/-! ### A TMS command on the port -/

/-- R132: what the auto-flush sends, in an empty buffer too, where there is nothing to send. -/
theorem autoFlush_trace (s : State) :
    (autoFlush s).trace = s.trace ++ (tmsCommands s.params.opc s.pending).map Event.send := by
  unfold autoFlush
  split
  · next hcount => simp [pending_of_zero hcount, tmsCommands, chunks]
  · rfl

theorem autoFlush_tmsCount (s : State) : (autoFlush s).sess.tmsCount = 0 := by
  unfold autoFlush
  split
  · assumption
  · rfl

theorem autoFlush_tap (s : State) : (autoFlush s).sess.tap = s.sess.tap := by
  unfold autoFlush
  split <;> rfl

theorem autoFlush_fault (s : State) : (autoFlush s).sess.fault = s.sess.fault := by
  unfold autoFlush
  split <;> rfl

/-- Settles O49: the auto-flush, then one `Send`. -/
theorem tmsCommandIsSent : Obligations.TmsCommandIsSent := by
  intro s len data _ h hwf
  refine ⟨_, exec_ready _ h, ?_⟩
  rw [body, live_ready _ h, if_pos hwf, concluded_done]
  refine ⟨rfl, ?_, autoFlush_tap s, autoFlush_tmsCount s, (autoFlush_extends s).mem, autoFlush_fault s⟩
  rw [txSend_trace, autoFlush_trace]
  rfl

/-! ### A target in step -/

theorem eventsSince_of_trace {s t : State} {es : List Event} (h : t.trace = s.trace ++ es) : eventsSince s t = es := by
  rw [eventsSince, h, List.drop_left]

/-- R264: a target clocks the bits that were moved through the packer, and nothing else. -/
theorem Moved.target {bits : List Bool} {tap : TapState} {s t : State} (m : Moved bits tap s t)
    (ho : s.params.opc.wf = true) (x : Target) : x.run s.params.opc (streamOf (eventsSince s t)) =
      { tap := walk x.tap bits, level := bits.getLastD x.level } := by
  obtain ⟨cs, hsize, hbits, htrace⟩ := m.trace
  have hstream : streamOf (eventsSince s t) = (cs.map (tmsCommand s.params.opc)).flatten ++ [] := by
    rw [eventsSince_of_trace htrace, streamOf, List.flatMap_append, ← streamOf, streamOf_tms]
    split <;> rfl
  rw [hstream, target_tms ho cs hsize, hbits]
  rfl

/-- R265: the path to a shift state ends in a TMS bit of 0, the self-loop's where the state is the current one. -/
theorem path_getLastD_shift (current : TapState) {target : TapState} (h : target = .shiftDr ∨ target = .shiftIr)
    (level : Bool) : (path current target).getLastD level = false := by
  rcases h with rfl | rfl
  · cases current <;> rfl
  · cases current <;> rfl

/-- Settles O12: with nothing pending the target clocks the path from the state the core tracks. -/
theorem moveToStateKeepsTargetInStep : Obligations.MoveToStateKeepsTargetInStep := by
  intro s d dest target hI h hanswer hcount htap
  obtain ⟨hparams, -, -⟩ := (stateInv_iff s).1 hI
  obtain ⟨-, hopc⟩ := (paramsOk_iff _).1 hparams
  obtain ⟨t, hmove, m⟩ := moveTo_moved dest hI hanswer
  rw [pending_of_zero hcount, List.nil_append] at m
  refine ⟨{ t with response := some (.result .none) }, ?_, ?_⟩
  · rw [exec_ready _ h, body, live_ready _ h, hmove]
    rfl
  · have hrun := m.target hopc target
    rw [htap, walk_path] at hrun
    have hsince : eventsSince s { t with response := some (.result .none) } = eventsSince s t := rfl
    rw [hsince, hrun]
    exact ⟨m.tap.symm, fun hd => path_getLastD_shift _ hd _⟩

end Sys2Proof.Machine
end

section
/-! What every request leaves on the trace: a flush before each read and drain (20_memory.md R48), the stall that keeps a
request in progress (60_exceptions.md R235), and the word of a window (20_memory.md R42). -/

namespace Sys2Proof.Machine

open Sys2Proof

/-- Settles O46: the port answers before the body of any instruction runs. -/
theorem busyPortRefusesEveryRequest : Obligations.BusyPortRefusesEveryRequest := by
  intro i s hbusy
  rw [exec_eq, if_pos hbusy]
  rfl

/-- Settles O58: creation adds its query, and every other run adds what its frame says. -/
theorem everyReadAndDrainFollowsAFlush : Obligations.EveryReadAndDrainFollowsAFlush := by
  intro i s t h
  obtain ⟨-, rfl⟩ | ⟨x, rfl, p⟩ := exec_cases h
  · exact ⟨[.product s.tx.product], rfl, rfl⟩
  · rw [concluded_trace]
    exact p.trace

/-! ### The word of a window -/

/-- R40, R42: bit `j` of the word is bit `j mod 8` of byte `j div 8`. -/
theorem wordOf_getLsbD (v : List Byte) {j : Nat} (h : j < 32) : (wordOf v).getLsbD j = vecBit v j := by
  simp only [wordOf, vecBit, BitVec.getLsbD_append]
  obtain hj | hj | hj | hj : j / 8 = 0 ∨ j / 8 = 1 ∨ j / 8 = 2 ∨ j / 8 = 3 := by omega
  · rw [hj, if_pos (by omega), show j % 8 = j by omega]
  · rw [hj, if_neg (by omega), if_pos (by omega), show j % 8 = j - 8 by omega]
  · rw [hj, if_neg (by omega), if_neg (by omega), if_pos (by omega), show j % 8 = j - 8 - 8 by omega]
  · rw [hj, if_neg (by omega), if_neg (by omega), if_neg (by omega), show j % 8 = j - 8 - 8 - 8 by omega]

/-- A byte moved up by `q` bytes in a word: bit `j` of the word is the byte's where byte `q` of the word holds it. -/
theorem getLsbD_byte_shiftLeft (b : Byte) (q : Nat) {j : Nat} (h : j < 32) :
    (b.setWidth 32 <<< (8 * q)).getLsbD j = (decide (j / 8 = q) && b.getLsbD (j % 8)) := by
  rw [BitVec.getLsbD_shiftLeft, BitVec.getLsbD_setWidth]
  by_cases hq : j / 8 = q
  · simp [hq, h, show ¬j < 8 * q by omega, show j - 8 * q = j % 8 by omega, show j % 8 < 32 by omega]
  · obtain hlt | hge : j < 8 * q ∨ 8 ≤ j - 8 * q := by omega
    · simp [hq, hlt]
    · simp [hq, BitVec.getLsbD_of_ge b _ hge]

/-- R42: the four bytes, each at its place, OR'd together. -/
theorem wordOf_eq_or (v : List Byte) : wordOf v = (vecByte v 0).setWidth 32 ||| ((vecByte v 1).setWidth 32 <<< 8)
    ||| ((vecByte v 2).setWidth 32 <<< 16) ||| ((vecByte v 3).setWidth 32 <<< 24) := by
  apply BitVec.eq_of_getLsbD_eq
  intro j hj
  have h0 := getLsbD_byte_shiftLeft (vecByte v 0) 0 hj
  rw [Nat.mul_zero, BitVec.shiftLeft_zero] at h0
  rw [wordOf_getLsbD v hj, vecBit, BitVec.getLsbD_or, BitVec.getLsbD_or, BitVec.getLsbD_or, h0,
    getLsbD_byte_shiftLeft _ 1 hj, getLsbD_byte_shiftLeft _ 2 hj, getLsbD_byte_shiftLeft _ 3 hj]
  obtain hq | hq | hq | hq : j / 8 = 0 ∨ j / 8 = 1 ∨ j / 8 = 2 ∨ j / 8 = 3 := by omega
  · simp [hq]
  · simp [hq]
  · simp [hq]
  · simp [hq]

/-- Settles O60, bit by bit. -/
theorem windowWordIsLittleEndian : Obligations.WindowWordIsLittleEndian :=
  ⟨wordOf_eq_or, fun v _ h => wordOf_getLsbD v h⟩

/-! ### Where a stall stands among the events of a request -/

section
variable {p : Event → Bool}

theorem QuietUntil.live {α : Type} {b : State → Run State α} {s : State} (h : QuietUntil p s (b s)) :
    QuietUntil p s (live b s) := by
  unfold Machine.live
  split
  · exact h
  · exact .refl p s

theorem QuietUntil.guarded {c : Bool} {s : State} {x : Run State Result} (h : QuietUntil p s x) :
    QuietUntil p s (if c then x else refuse .malformedCommand s) := by
  cases c
  · exact .refl p s
  · exact h

theorem releaseFlush_quiet (hp : ∀ n, p (.flush (.short n)) = false) (hl : Loud p) (s : State) :
    QuietUntil p s (releaseFlush s) := by
  unfold releaseFlush
  split
  · next d h => exact .one (flushed_trace s) (by rw [h]; exact hl.flush d)
  · next n h => exact .one (flushed_trace s) (by rw [h]; exact hp n)
  · exact ⟨s, _, .refl p s, flushed_trace s⟩

theorem releaseRead_quiet (hp : ∀ n k, p (.read n (.short k)) = false) (hl : Loud p) (n : Nat) (s : State) :
    QuietUntil p s (releaseRead n s) := by
  unfold releaseRead
  split
  · exact .refl p s
  · split
    · next d h => exact .one (readDone_trace n s) (by rw [h]; exact hl.read n d)
    · next k h => exact .one (readDone_trace n s) (by rw [h]; exact hp n k)
    · exact ⟨s, _, .refl p s, readDone_trace n s⟩

end

/-- The release goes on after a short answer (R233), so only a stall ends it. -/
theorem releaseSession_quiet (s : State) : QuietUntil Event.stalled s (releaseSession s) :=
  (txSend_quiet loud_stalled s.params.teardownCmds s).until <|
    .bind (releaseFlush_quiet (fun _ => rfl) loud_stalled _) fun _ _ _ =>
      .bind (releaseRead_quiet (fun _ _ => rfl) loud_stalled _ _) fun _ u _ => .same (State.release_trace u)

/-- R235: no event of a body but the one that ends it is a stall. A body that ends with InvalidArgument has no event that ends
it; `StopsAt` leaves that one out. -/
theorem body_quiet (i : Instr) (s : State) (hstop : StopsAt True (body i s)) :
    QuietUntil Event.stalled s (body i s) := by
  have hp := loud_stalled
  cases i
  case shiftIrByte tdi n e =>
    dsimp only [body] at hstop ⊢
    by_cases hn : n > 8
    · simp only [hn, if_true] at hstop ⊢
      unfold live at hstop ⊢
      split at hstop
      · obtain ⟨-, _, _, _, he, -⟩ := hstop
        simp at he
      · next hlive =>
        rw [if_neg hlive]
        exact .refl _ s
    · simp only [hn, if_false]
      exact .live (.map _ (shiftRegister_quiet hp _ _ _ _ _ _))
  all_goals dsimp only [body]
  case sessionCreate => exact .one (createSession_trace s) (hp.product _)
  case moveToState => exact .live (.map _ (moveTo_quiet hp _ s))
  case resetTlr => exact .live (.map _ (resetTap_quiet hp s))
  case pushTms => exact .live (pushTms_quiet hp _ s)
  case flush => exact .live (.map _ (flushTms_quiet hp _ s))
  case shift => exact .live (.map _ (shiftVectors_quiet hp _ _ _ _ s))
  case shiftIr | shiftDr => exact .live (.map _ (shiftRegister_quiet hp _ _ _ _ _ s))
  case detectChain => exact .live (.map _ (detect_quiet hp _ s))
  case sessionRelease => exact .live (.map _ (releaseSession_quiet s))
  case reservedB | reservedC | reservedD | reservedE | reservedF => exact .live (.refl _ s)
  case tms => exact .live (.guarded ((autoFlush_quiet hp s).trans (txSend_quiet hp _ _)))
  case bytes | bytesRead => exact .live (byteDataCommand_quiet hp _ _ _ s)
  case bytesWrite | bytesWriteRead => exact .live (.guarded (byteDataCommand_quiet hp _ _ _ s))
  case finalBit | finalBitRead =>
    exact .live (.guarded (dataCommand_quiet hp _ _ _ leaveShift (fun u => State.setTap_trace _ u) s))
  case bits | bitsWrite | bitsRead | bitsWriteRead =>
    exact .live (.guarded (dataCommand_quiet hp _ _ _ id (fun _ => rfl) s))

/-- What the mark `busy` tells of a request: with it there is no answer and one stall, the last of the events; without it no
event is a stall. -/
def StallMarked (s t : State) : Prop :=
  if t.busy = true then t.response = none ∧ LastStall t ∧
    ∃ es e, t.trace = s.trace ++ (es ++ [e]) ∧ e.stalled = true ∧ ∀ a ∈ es, a.stalled = false
  else QuietTo Event.stalled s t

theorem QuietTo.unmarked {s t : State} (hbusy : t.busy = false) (h : QuietTo Event.stalled s t) : StallMarked s t := by
  rw [StallMarked, hbusy]
  exact h

/-- The events up to the one that ends a run, and that one. -/
theorem QuietTo.snoc {p : Event → Bool} {s v u : State} {e : Event} (h : QuietTo p s v) (hu : u.trace = v.trace ++ [e]) :
    ∃ es, u.trace = s.trace ++ (es ++ [e]) ∧ ∀ a ∈ es, p a = false := by
  obtain ⟨es, hv, hq⟩ := h
  exact ⟨es, by rw [hu, hv, List.append_assoc], hq⟩

/-- A stall is not a short answer. -/
theorem LastShort.not_stalled {x : Error} {u : State} {tr : List Event} {e : Event} (h : LastShort x u)
    (hu : u.trace = tr ++ [e]) : e.stalled = false := by
  obtain ⟨_, _, _, -, -, hl⟩ := h
  rw [hu, List.getLast?_append, List.getLast?_singleton, Option.some_or] at hl
  rcases hl with hl | hl | hl <;> (injection hl with hl; subst hl; rfl)

theorem LastStall.stalled {u : State} {tr : List Event} {e : Event} (h : LastStall u) (hu : u.trace = tr ++ [e]) :
    e.stalled = true := by
  rw [LastStall, hu, List.getLast?_append, List.getLast?_singleton, Option.some_or] at h
  rcases h with hl | ⟨_, hl⟩ | ⟨_, hl⟩ <;> (injection hl with hl; subst hl; rfl)

/-- A run that stops at a short answer or at a stall, the first such event it records, marks the request accordingly. -/
theorem concluded_stallMarked {s : State} {x : Run State Result} (hbusy : x.final.busy = false)
    (hstop : StopsAt True x) (hquiet : QuietUntil Event.stalled s x) : StallMarked s (concluded x) := by
  cases x with
  | done r u => exact QuietTo.unmarked hbusy hquiet
  | ended w u =>
    cases w with
    | refused r => exact QuietTo.unmarked hbusy hquiet
    | error e =>
      obtain ⟨v, a, hv, hu⟩ := hquiet
      exact QuietTo.unmarked hbusy (hv.trans (.one hu (hstop.2.not_stalled hu)))
    | stuck =>
      obtain ⟨v, a, hv, hu⟩ := hquiet
      obtain ⟨es, htrace, hes⟩ := hv.snoc hu
      exact ⟨rfl, hstop, es, a, htrace, LastStall.stalled hstop hu, hes⟩

theorem exec_stallMarked {i : Instr} {s t : State} (hbusy : s.busy = false) (h : exec i s = .next t) :
    StallMarked s t := by
  rw [exec_idle i s hbusy] at h
  injection h with h
  subst h
  have hb : (body i s).final.busy = false := by
    by_cases hi : i = .sessionCreate
    · subst hi
      exact hbusy
    · exact (body_progress i hi s).busy.trans hbusy
  rcases body_stops i s with hstop | ⟨_, n, _, -, -, hinvalid⟩
  · exact concluded_stallMarked hb hstop (body_quiet i s hstop)
  · rw [hinvalid]
    exact QuietTo.unmarked hbusy (.same rfl)

/-- Settles O48: the mark, the stall and the missing answer come together, and a step with the mark and an empty port is
stuck. -/
theorem stalledRequestNeverCompletes : Obligations.StalledRequestNeverCompletes := by
  intro i s t hbusy h
  have hmark := exec_stallMarked hbusy h
  unfold StallMarked at hmark
  split at hmark
  · next hb =>
    obtain ⟨hresponse, hlast, es, e, htrace, he, hes⟩ := hmark
    rw [eventsSince_of_trace htrace]
    refine ⟨fun a ha hstalled => ⟨hb, hresponse, ?_⟩, fun _ => ⟨hresponse, ⟨e, by simp, he⟩, hlast, fun hport => ?_⟩⟩
    · obtain hm | rfl : a ∈ es ∨ a = e := by simpa using ha
      · rw [hes a hm] at hstalled
        cases hstalled
      · simp
    · simp [step, hport, hb]
  · next hb =>
    obtain ⟨es, htrace, hes⟩ := hmark
    rw [eventsSince_of_trace htrace]
    refine ⟨fun a ha hstalled => ?_, fun hb' => absurd hb' hb⟩
    rw [hes a ha] at hstalled
    cases hstalled

end Sys2Proof.Machine
end

section
/-! What every `Send` carries: one whole command with the fields its unit gives it (30_encoding.md R64 to R71), and where the
packer is flushed before a shift's commands (00_scope.md R52). -/

namespace Sys2Proof.Machine

open Sys2Proof

/-! ### The commands the core makes are well-formed instructions -/

/-- The bytes are those of a command that the unit emits. -/
def IsCommand (o : Opc) (iss : Issuer) (bs : List Byte) : Prop := ∃ c : Instr, c.wf = true ∧ encode o c = .command iss bs

/-- R69: the bits of a chunk fill the low end of the byte. -/
theorem packBits_lt {bits : List Bool} (h : bits.length ≤ 8) : (packBits bits).toNat < 2 ^ bits.length := by
  refine Nat.lt_pow_two_of_testBit _ fun i hi => ?_
  rw [BitVec.testBit_toNat, packBits_getLsbD bits h, List.getD_eq_default _ _ hi]

/-- R64: bit 7 stands above the bits of a chunk. -/
theorem tmsData_toNat {chunk : List Bool} (h : chunk.length ≤ 6) :
    (0x80 ||| packBits chunk).toNat = 0x80 + (packBits chunk).toNat := by
  have hlt : (packBits chunk).toNat < 2 ^ 7 :=
    (packBits_lt (by omega)).trans_le (Nat.pow_le_pow_right (by decide) (by omega))
  rw [BitVec.toNat_or]
  exact (Nat.two_pow_add_eq_or_of_lt hlt 1).symm

/-- R64, R134: a chunk of one to six bits. -/
theorem tmsCommand_isCommand (o : Opc) {chunk : List Bool} (h1 : 1 ≤ chunk.length) (h6 : chunk.length ≤ 6) :
    IsCommand o .packer (tmsCommand o chunk) := by
  refine ⟨.tms (BitVec.ofNat 8 (chunk.length - 1)) (0x80 ||| packBits chunk), ?_, rfl⟩
  have hlen : (BitVec.ofNat 8 (chunk.length - 1)).toNat = chunk.length - 1 := by
    rw [BitVec.toNat_ofNat, Nat.mod_eq_of_lt (by omega)]
  have hbits := packBits_lt (bits := chunk) (by omega)
  simp only [Instr.wf, WellFormed.tmsFields, hlen, tmsData_toNat h6, Nat.sub_add_cancel h1, Bool.and_eq_true,
    decide_eq_true_eq]
  omega

/-- R65: the two length bytes of `n` bytes. -/
theorem byteCommand_eq (o : Opc) (payload : Option (List Byte)) (read : Bool) (len : BitVec 16) :
    byteCommand o payload read (len.toNat + 1) =
      byteOp o payload.isSome read :: lenBytes len ++ payload.getD [] := by
  have h0 : BitVec.ofNat 8 (len.toNat + 1 - 1) = len.extractLsb' 0 8 := by
    apply BitVec.eq_of_toNat_eq
    simp
  have h8 : BitVec.ofNat 8 ((len.toNat + 1 - 1) / 256) = len.extractLsb' 8 8 := by
    apply BitVec.eq_of_toNat_eq
    simp [Nat.shiftRight_eq_div_pow]
  rw [byteCommand, h0, h8]
  rfl

/-- R65, R154: a chunk of 1 to 65536 bytes, with as many bytes of payload where it writes. -/
theorem byteCommand_isCommand (o : Opc) {payload : Option (List Byte)} (read : Bool) {n : Nat} (h1 : 1 ≤ n)
    (h2 : n ≤ 65536) (hp : ∀ p, payload = some p → p.length = n) : IsCommand o .shifter (byteCommand o payload read n) := by
  obtain ⟨len, rfl⟩ : ∃ len : BitVec 16, n = len.toNat + 1 := by
    refine ⟨BitVec.ofNat 16 (n - 1), ?_⟩
    rw [BitVec.toNat_ofNat]
    omega
  rw [byteCommand_eq]
  cases payload with
  | none =>
    cases read
    · exact ⟨.bytes len, rfl, rfl⟩
    · exact ⟨.bytesRead len, rfl, rfl⟩
  | some p =>
    have hwf : WellFormed.bytePayload len p = true := decide_eq_true (hp p rfl)
    cases read
    · exact ⟨.bytesWrite len p, hwf, rfl⟩
    · exact ⟨.bytesWriteRead len p, hwf, rfl⟩

/-- R67: the length byte of `n` bits. -/
theorem bitCommand_eq (o : Opc) (payload : Option Byte) (read : Bool) (len : Byte) :
    bitCommand o payload read (len.toNat + 1) = bitOp o payload.isSome read :: len :: payload.toList := by
  simp [bitCommand]

/-- R67, R155: 1 to 7 bits. -/
theorem bitCommand_isCommand (o : Opc) (payload : Option Byte) (read : Bool) {n : Nat} (h1 : 1 ≤ n) (h7 : n ≤ 7) :
    IsCommand o .shifter (bitCommand o payload read n) := by
  obtain ⟨len, rfl⟩ : ∃ len : Byte, n = len.toNat + 1 := by
    refine ⟨BitVec.ofNat 8 (n - 1), ?_⟩
    rw [BitVec.toNat_ofNat]
    omega
  have hwf : WellFormed.bitLength len = true := decide_eq_true (by omega)
  rw [bitCommand_eq]
  cases payload with
  | none =>
    cases read
    · exact ⟨.bits len, hwf, rfl⟩
    · exact ⟨.bitsRead len, hwf, rfl⟩
  | some p =>
    cases read
    · exact ⟨.bitsWrite len p, hwf, rfl⟩
    · exact ⟨.bitsWriteRead len p, hwf, rfl⟩

/-- R68, R156: both values of the TDI bit. -/
theorem finalCommand_isCommand (o : Opc) (read tdi : Bool) : IsCommand o .shifter (finalCommand o read tdi) := by
  have hwf : WellFormed.finalFields 0x00 (0x01 ||| ((if tdi then (1 : Byte) else 0) <<< 7)) = true := by
    cases tdi <;> decide
  cases read
  · exact ⟨.finalBit _ _, hwf, rfl⟩
  · exact ⟨.finalBitRead _ _, hwf, rfl⟩

/-! ### Work that sends commands only -/

/-- From `s` to `t` the trace grew, each `Send` of it with bytes that are `ok` under the flags of `s`. -/
structure Sends (ok : Opc → List Byte → Prop) (s t : State) : Prop where
  params : t.params = s.params
  trace : ∃ es, t.trace = s.trace ++ es ∧ ∀ bs, .send bs ∈ es → ok s.params.opc bs

/-- A command of either unit. -/
def AnyCommand (o : Opc) (bs : List Byte) : Prop := ∃ iss, IsCommand o iss bs

/-- A command of the shifter. -/
def ShifterCommand (o : Opc) (bs : List Byte) : Prop := IsCommand o .shifter bs

section
variable {ok : Opc → List Byte → Prop}

theorem Sends.refl (s : State) : Sends ok s s := ⟨rfl, [], by simp, by simp⟩

theorem Sends.trans {s t u : State} (h : Sends ok s t) (k : Sends ok t u) : Sends ok s u := by
  obtain ⟨es, he, oe⟩ := h.trace
  obtain ⟨fs, hf, of⟩ := k.trace
  rw [h.params] at of
  exact ⟨k.params.trans h.params, es ++ fs, by rw [hf, he, List.append_assoc],
    fun bs m => (List.mem_append.1 m).elim (oe bs) (of bs)⟩

theorem Sends.mono {ok' : Opc → List Byte → Prop} (hok : ∀ o bs, ok o bs → ok' o bs) {s t : State} (h : Sends ok s t) :
    Sends ok' s t := by
  obtain ⟨es, he, oe⟩ := h.trace
  exact ⟨h.params, es, he, fun bs m => hok _ _ (oe bs m)⟩

theorem Sends.same {s t : State} (hp : t.params = s.params) (ht : t.trace = s.trace) : Sends ok s t :=
  ⟨hp, [], by simp [ht], by simp⟩

/-- An event that is no `Send`. -/
theorem Sends.other {s t : State} {e : Event} (hp : t.params = s.params) (ht : t.trace = s.trace ++ [e])
    (he : ∀ bs, e ≠ .send bs) : Sends ok s t :=
  ⟨hp, [e], ht, fun bs m => absurd (List.mem_singleton.1 m).symm (he bs)⟩

theorem Sends.bind {α β : Type} {s : State} {x : Run State α} {f : α → State → Run State β}
    (hx : Sends ok s x.final) (hf : ∀ a u, x = .done a u → Sends ok u (f a u).final) : Sends ok s (x.bind f).final := by
  cases x with
  | done a u => exact hx.trans (hf a u rfl)
  | ended w u => exact hx

theorem Sends.map {α β : Type} {s : State} {x : Run State α} (f : α → β) (h : Sends ok s x.final) :
    Sends ok s (x.map f).final := by
  rw [Run.final_map]
  exact h

theorem Sends.live {α : Type} {b : State → Run State α} {s : State} (h : Sends ok s (b s).final) :
    Sends ok s (live b s).final := by
  unfold Machine.live
  split
  · exact h
  · exact .refl s

theorem txSend_sends {s : State} {bs : List Byte} (h : ok s.params.opc bs) : Sends ok s (txSend bs s) := by
  refine ⟨rfl, [.send bs], rfl, fun b m => ?_⟩
  obtain rfl : b = bs := by simpa using m
  exact h

theorem txFlush_sends (s : State) : Sends ok s (txFlush s).final := by
  have hf : Sends ok s (flushed s) := .other rfl (flushed_trace s) (by simp)
  unfold txFlush
  split
  · exact hf
  · exact hf.trans (.same rfl rfl)
  · exact hf

theorem txRead_sends (n : Nat) (s : State) : Sends ok s (txRead n s).final := by
  have hr : Sends ok s (readDone n s) := .other rfl (readDone_trace n s) (by simp)
  rcases txRead_final n s with h | h
  · rw [h]
    exact hr
  · rw [h]
    exact hr.trans (.same rfl rfl)

theorem txDrain_sends (n : Nat) (s : State) : Sends ok s (txDrain n s).final := by
  have hd : Sends ok s (drained n s) := .other rfl (drained_trace n s) (by simp)
  rcases txDrain_final n s with h | h
  · rw [h]
    exact hd
  · rw [h]
    exact hd.trans (.same rfl rfl)

theorem bufSizeAsked_sends (s : State) : Sends ok s (bufSizeAsked s) := .other rfl (bufSizeAsked_trace s) (by simp)

/-- The multiplexer sends its command and nothing else. -/
theorem issue_sends {cmd : List Byte} {s : State} (n : Nat) (read : Bool) (h : ok s.params.opc cmd) :
    Sends ok s (issue cmd n read s).final := by
  have hcmd := txSend_sends h
  unfold issue
  split
  · exact hcmd.trans (.bind (txFlush_sends _) fun _ u _ => .map _ (txRead_sends n u))
  · split
    · exact hcmd.trans (.bind (txFlush_sends _) fun _ u _ => .map _ (txDrain_sends n u))
    · exact hcmd

/-! ### The shifter -/

/-- The same of a run inside a shift. -/
theorem Sends.workBind {α β : Type} {s : State} {x : Run Work α} {f : α → Work → Run Work β}
    (hx : Sends ok s x.final.s) (hf : ∀ a w, x = .done a w → Sends ok w.s (f a w).final.s) :
    Sends ok s (x.bind f).final.s := by
  cases x with
  | done a u => exact hx.trans (hf a u rfl)
  | ended w u => exact hx

theorem lift_issue_sends {cmd : List Byte} {w : Work} (n : Nat) (read : Bool) (h : ok w.s.params.opc cmd) :
    Sends ok w.s (w.lift (issue cmd n read w.s)).final.s := by
  rw [lift_final]
  exact issue_sends n read h

end

/-- R154: every chunk is one of 1 to 65536 bytes, its payload cut from the input. -/
theorem bytePhase_sends {inp : Option (List Byte)} {xfer : Nat} (h1 : 1 ≤ xfer) (h2 : xfer ≤ 65536) (fuel k rem : Nat)
    (hinp : ∀ v, inp = some v → k + rem ≤ v.length) (w : Work) :
    Sends ShifterCommand w.s (bytePhase inp xfer fuel k rem w).final.s := by
  induction fuel generalizing k rem w with
  | zero => exact .refl _
  | succ fuel ih =>
    unfold bytePhase
    split
    · exact .refl _
    · next hrem =>
      refine .workBind (lift_issue_sends _ _ (byteCommand_isCommand _ _ (by omega) (by omega) fun p hp => ?_))
        fun r u _ => ?_
      · obtain ⟨v, rfl, rfl⟩ := Option.map_eq_some_iff.1 hp
        have := hinp v rfl
        rw [memRead, List.length_take, List.length_drop]
        omega
      · rw [← Work.capture_s u (fun v bs => memWrite v k bs) r]
        exact ih _ _ (fun v hv => by have := hinp v hv; omega) _

theorem residualPhase_sends (inp : Option (List Byte)) (nb_byte : Nat) {nb_bit : Nat} (h : nb_bit ≤ 7) (w : Work) :
    Sends ShifterCommand w.s (residualPhase inp nb_byte nb_bit w).final.s := by
  unfold residualPhase
  split
  · exact .refl _
  · refine .workBind (lift_issue_sends _ _ (bitCommand_isCommand _ _ _ (by omega) h)) fun r u _ => ?_
    rw [Run.final_done, Work.capture_s]
    exact .refl _

theorem finalPhase_sends (inp : Option (List Byte)) (nb_byte nb_bit : Nat) (isLast : Bool) (w : Work) :
    Sends ShifterCommand w.s (finalPhase inp nb_byte nb_bit isLast w).final.s := by
  unfold finalPhase
  split
  · refine .workBind (lift_issue_sends _ _ (finalCommand_isCommand _ _ _)) fun r u _ => ?_
    simp only [Run.final_done, Work.capture_s]
    exact .same rfl rfl
  · exact .refl _

/-- R154 to R156: the phases of an admitted shift send the shifter's commands only. -/
theorem shiftPhases_sends {inp : Option (List Byte)} {len : Nat} {isLast : Bool} {xfer : Nat} (h1 : 1 ≤ xfer)
    (h2 : xfer ≤ 65536) (hinp : tooShort inp len = false) (w : Work) :
    Sends ShifterCommand w.s (shiftPhases inp len isLast xfer w).final.s := by
  have hlen : ∀ v, inp = some v → 0 + nbByte len isLast ≤ v.length := by
    rintro v rfl
    have hv : vecBytes len ≤ v.length := by simpa [tooShort] using hinp
    unfold vecBytes at hv
    unfold nbByte effLength
    split <;> omega
  have hbit : nbBit len isLast ≤ 7 := Nat.le_of_lt_succ (Nat.mod_lt _ (by decide))
  exact .workBind (bytePhase_sends h1 h2 _ _ _ hlen w) fun _ u _ => .workBind (residualPhase_sends _ _ hbit u)
    fun _ z _ => finalPhase_sends _ _ _ _ z

/-! ### The packer first, then the shift -/

/-- R52, R133: what a forced flush records, however it ends. -/
theorem flushTms_trace (s : State) : (flushTms true s).final.trace = s.trace ++ openingEvents s := by
  unfold flushTms openingEvents
  split
  · simp
  · rw [if_pos rfl, Run.final_map]
    unfold txFlush
    split <;> simp [raise]

theorem flushAnswer_eq_full {s : State} {d : List Byte} (h : flushAnswer s = .full d) : flushAnswer s = .full [] := by
  unfold flushAnswer at h ⊢
  split
  · rfl
  · next heq => simp [heq] at h
  · next heq => simp [heq] at h

/-- R232: a forced flush of pending bits completes only where its `Flush` is answered in full. -/
theorem flushTms_done {s u : State} {n : Nat} (h : flushTms true s = .done n u) :
    s.sess.tmsCount ≠ 0 → flushAnswer (sendPending s) = .full [] := by
  intro hcount
  rw [flushTms, if_neg hcount, if_pos rfl, txFlush] at h
  split at h
  · next hd => exact flushAnswer_eq_full hd
  · cases h
  · cases h

/-- R150, check 4: a shift that passes the checks has an input that is long enough. -/
theorem shiftCheck_none_input {inp out : Option (List Byte)} {al : Bool} {len : Nat} {isLast : Bool} {s : State}
    (h : shiftCheck inp out al len isLast s = none) : tooShort inp len = false := by
  rw [← Bool.not_eq_true]
  intro hshort
  unfold shiftCheck vectorCheck at h
  rw [if_pos (Or.inl hshort)] at h
  split at h
  · cases h
  · split at h <;> cases h

/-- An admitted shift is its query, the opening flush and the phases (R160). -/
theorem shiftValues_admitted {input : Option VecArg} {output : Option Nat} {len : Nat} {isLast : Bool} {s : State}
    (h : ShiftAdmitted s input output len isLast) :
    shiftValues (s.input input) (s.output output) (sameStorage input output) len isLast s =
      (Work.lift { s := s, out := s.output output } (flushTms true (bufSizeAsked s))).bind fun _ w =>
        shiftPhases (s.input input) len isLast (bufSizeNow s - 3) w := by
  obtain ⟨hcheck, hsize⟩ := (shiftAdmitted_iff s input output len isLast).1 h
  rw [shiftValues, hcheck]
  exact if_pos hsize

/-- A shift on a ready session writes what its values' shift writes, and the caller's vector. -/
theorem exec_shift_trace {s t : State} {input : Option VecArg} {output : Option Nat} {len : Nat} {isLast : Bool}
    (hr : Ready s = true) (h : exec (.shift input output len isLast) s = .next t) : t.trace =
      (shiftValues (s.input input) (s.output output) (sameStorage input output) len isLast s).final.s.trace := by
  rw [exec_ready _ hr, body, live_ready _ hr] at h
  injection h with h
  rw [← h, concluded_trace, Run.final_map, shiftVectors, Run.final_mapState, putOutput_trace]

/-- Settles O24: a flush that is not full ends the shift; after a full one the phases send the shifter's commands. -/
theorem shiftFlushesPackerFirst : Obligations.ShiftFlushesPackerFirst := by
  intro s t input output len isLast hr hadm h
  obtain ⟨-, hmin, hmax⟩ := id hadm
  have hshort := shiftCheck_none_input ((shiftAdmitted_iff s input output len isLast).1 hadm).1
  have hopen := flushTms_trace (bufSizeAsked s)
  rw [bufSizeAsked_trace] at hopen
  rw [exec_shift_trace hr h, shiftValues_admitted hadm]
  cases hflush : flushTms true (bufSizeAsked s) with
  | ended e u =>
    rw [hflush] at hopen
    exact ⟨[], by simpa [Work.lift] using hopen, by simp, fun _ _ => rfl⟩
  | done n u =>
    rw [hflush] at hopen
    have hparams : u.params = s.params := by
      have := (flushTms_extends true (bufSizeAsked s)).params
      rwa [hflush] at this
    obtain ⟨es, htrace, hes⟩ := (shiftPhases_sends (isLast := isLast) (xfer := bufSizeNow s - 3) (by omega) (by omega)
      hshort { s := u, out := s.output output }).trace
    refine ⟨es, ?_, fun bs m => ?_, fun hcount hfull => absurd (flushTms_done hflush hcount) hfull⟩
    · rw [← hopen]
      exact htrace
    · have := hes bs m
      rwa [hparams] at this

end Sys2Proof.Machine
end

section
/-! Every `Send` of every instruction but the release carries one whole command (30_encoding.md R63, R64 to R71). -/

namespace Sys2Proof.Machine

open Sys2Proof

/-! ### The packer and the walker -/

/-- R133: pending bits go out as TMS commands. -/
theorem sendPending_sends (s : State) : Sends AnyCommand s (sendPending s) := by
  obtain ⟨cs, hsize, htrace, -⟩ := sendPending_packed s
  refine ⟨rfl, _, htrace, fun bs m => ?_⟩
  obtain ⟨c, hc, hbs⟩ := List.mem_map.1 m
  injection hbs with hbs
  rw [← hbs]
  exact ⟨.packer, tmsCommand_isCommand _ (hsize c hc).1 (hsize c hc).2⟩

theorem autoFlush_sends (s : State) : Sends AnyCommand s (autoFlush s) := by
  unfold autoFlush
  split
  · exact .refl s
  · exact sendPending_sends s

theorem pushTms_sends (b : Bool) (s : State) : Sends AnyCommand s (pushTms b s) := by
  unfold pushTms
  split
  · exact (autoFlush_sends s).trans (.same rfl rfl)
  · exact .same rfl rfl

theorem pushAll_sends (bits : List Bool) (s : State) : Sends AnyCommand s (pushAll bits s) := by
  induction bits generalizing s with
  | nil => exact .refl s
  | cons b bits ih => exact (pushTms_sends b s).trans (ih _)

theorem setTap_sends (t : TapState) (s : State) : Sends AnyCommand s (s.setTap t) := .same rfl rfl

theorem queuePath_sends (bits : List Bool) (s : State) : Sends AnyCommand s (queuePath bits s) := by
  induction bits generalizing s with
  | nil => exact .refl s
  | cons b bits ih => exact ((pushTms_sends b s).trans (setTap_sends _ _)).trans (ih _)

theorem flushTms_sends (force : Bool) (s : State) : Sends AnyCommand s (flushTms force s).final := by
  unfold flushTms
  split
  · exact .refl s
  · split
    · exact .map _ ((sendPending_sends s).trans (txFlush_sends _))
    · exact sendPending_sends s

theorem moveTo_sends (t : TapState) (s : State) : Sends AnyCommand s (moveTo t s).final :=
  .map _ ((queuePath_sends _ s).trans (flushTms_sends true _))

theorem resetTap_sends (s : State) : Sends AnyCommand s (resetTap s).final := by
  unfold resetTap
  exact .map _ (((pushAll_sends _ s).trans (setTap_sends _ _)).trans (flushTms_sends true _))

/-! ### Whole shifts and the enumerator -/

theorem shiftValues_sends (inp out : Option (List Byte)) (al : Bool) (len : Nat) (isLast : Bool) (s : State) :
    Sends AnyCommand s (shiftValues inp out al len isLast s).final.s := by
  unfold shiftValues
  split
  · exact .refl s
  · next hcheck =>
    split
    · next hsize =>
      obtain ⟨hmin, hmax⟩ := (bufSizeOk_iff _).1 hsize
      refine .workBind ?_ fun _ w _ => (shiftPhases_sends (by omega) (by omega) (shiftCheck_none_input hcheck) w).mono
        fun _ _ h => ⟨.shifter, h⟩
      rw [lift_final]
      exact (bufSizeAsked_sends s).trans (flushTms_sends true _)
    · exact bufSizeAsked_sends s

theorem shiftVectors_sends (input : Option VecArg) (output : Option Nat) (len : Nat) (isLast : Bool) (s : State) :
    Sends AnyCommand s (shiftVectors input output len isLast s).final := by
  rw [shiftVectors, Run.final_mapState]
  exact (shiftValues_sends _ _ _ _ _ s).trans (.same (putOutput_params _ _ _) (putOutput_trace _ _ _))

theorem shiftRegister_sends (x : TapState) (input : Option VecArg) (output : Option Nat) (len : Nat) (e : TapState)
    (s : State) : Sends AnyCommand s (shiftRegister x input output len e s).final := by
  unfold shiftRegister
  split
  · exact .refl s
  · split
    · exact .refl s
    · exact .bind (moveTo_sends x s) fun _ u _ => .bind (shiftVectors_sends _ _ _ _ u) fun _ v _ => moveTo_sends e v

theorem windows_sends (m : Nat) (s : State) : Sends AnyCommand s (windows m s).final := by
  induction m generalizing s with
  | zero => exact .refl s
  | succ m ih =>
    have hx := shiftValues_sends (some windowOnes) (some windowZeros) false Config.idcodeWidth (decide (m = 0)) s
    unfold windows
    split
    · next h =>
      rw [h] at hx
      exact hx
    · next h =>
      rw [h] at hx
      exact hx.trans (.map _ (ih _))

theorem detect_sends (m : Nat) (s : State) : Sends AnyCommand s (detect m s).final :=
  .bind (resetTap_sends s) fun _ u _ => .bind (moveTo_sends _ u) fun _ v _ => .bind (windows_sends m v) fun _ w _ =>
    .map _ (resetTap_sends w)

/-! ### Single commands -/

theorem Sends.guarded {wf : Bool} {s : State} {x : Run State Result} (h : wf = true → Sends AnyCommand s x.final) :
    Sends AnyCommand s (if wf then x else refuse .malformedCommand s).final := by
  cases wf
  · exact .refl s
  · exact h rfl

/-- A data command's bytes are its own, after the packer's. -/
theorem dataCommand_sends {cmd : List Byte} {s : State} (n : Nat) (read : Bool) {after : State → State}
    (hafter : ∀ u, Sends AnyCommand u (after u)) (h : IsCommand s.params.opc .shifter cmd) :
    Sends AnyCommand s (dataCommand cmd n read after s).final := by
  unfold dataCommand
  split
  · refine .bind (flushTms_sends true s) fun k u hu => .bind (issue_sends n read ⟨.shifter, ?_⟩) fun _ v _ => hafter v
    have hparams := (flushTms_sends true s).params
    rw [hu, Run.final_done] at hparams
    rw [hparams]
    exact h
  · exact .refl s

theorem byteDataCommand_sends {payload : Option (List Byte)} (read : Bool) {len : BitVec 16} {s : State}
    (hp : ∀ p, payload = some p → p.length = len.toNat + 1) :
    Sends AnyCommand s (byteDataCommand payload (len.toNat + 1) read s).final := by
  have hcmd : IsCommand s.params.opc .shifter (byteCommand s.params.opc payload read (len.toNat + 1)) :=
    byteCommand_isCommand _ read (by omega) (by omega) hp
  have hq := bufSizeAsked_sends (ok := AnyCommand) s
  unfold byteDataCommand
  split
  · split
    · split
      · exact hq.trans (dataCommand_sends _ read .refl hcmd)
      · exact hq
    · exact hq
  · exact .refl s

theorem leaveShift_sends (s : State) : Sends AnyCommand s (leaveShift s) := .same rfl rfl

/-- R65: as many bytes of payload as the length field says. -/
theorem bytePayload_length {len : BitVec 16} {payload : List Byte} (h : WellFormed.bytePayload len payload = true) :
    payload.length = len.toNat + 1 := of_decide_eq_true h

/-- R67: the bit-mode command of a length byte the core emits. -/
theorem bitDataCommand_sends (payload : Option Byte) (read : Bool) {len : Byte} {s : State}
    (h : WellFormed.bitLength len = true) : Sends AnyCommand s
      (dataCommand (bitCommand s.params.opc payload read (len.toNat + 1)) 1 read id s).final := by
  have hlen : len.toNat ≤ 6 := of_decide_eq_true h
  exact dataCommand_sends 1 read .refl (bitCommand_isCommand _ _ _ (by omega) (by omega))

/-- The one body that sends bytes which are no command is the release's (R214). -/
theorem body_sends (i : Instr) (h : i ≠ .sessionRelease) (s : State) : Sends AnyCommand s (body i s).final := by
  cases i
  case sessionRelease => exact absurd rfl h
  all_goals dsimp only [body]
  case sessionCreate => exact .other rfl (createSession_trace s) (by simp)
  case moveToState t => exact .live (.map _ (moveTo_sends t s))
  case resetTlr => exact .live (.map _ (resetTap_sends s))
  case pushTms b => exact .live (pushTms_sends b s)
  case flush f => exact .live (.map _ (flushTms_sends f s))
  case shift => exact .live (.map _ (shiftVectors_sends _ _ _ _ s))
  case shiftIr | shiftDr => exact .live (.map _ (shiftRegister_sends _ _ _ _ _ s))
  case shiftIrByte =>
    refine .live ?_
    split
    · exact .refl s
    · exact .map _ (shiftRegister_sends _ _ _ _ _ s)
  case detectChain m => exact .live (.map _ (detect_sends m s))
  case reservedB | reservedC | reservedD | reservedE | reservedF => exact .live (.refl s)
  case tms len data =>
    refine .live (.guarded fun hwf => (autoFlush_sends s).trans (txSend_sends ⟨.packer, .tms len data, hwf, ?_⟩))
    rw [(autoFlush_extends s).params]
    rfl
  case finalBit len data =>
    exact .live (.guarded fun hwf => dataCommand_sends 1 false leaveShift_sends ⟨.finalBit len data, hwf, rfl⟩)
  case finalBitRead len data =>
    exact .live (.guarded fun hwf => dataCommand_sends 1 true leaveShift_sends ⟨.finalBitRead len data, hwf, rfl⟩)
  case bytes len => exact .live (byteDataCommand_sends false (by simp))
  case bytesRead len => exact .live (byteDataCommand_sends true (by simp))
  case bytesWrite len payload =>
    exact .live (.guarded fun hwf => byteDataCommand_sends false (by simpa using bytePayload_length hwf))
  case bytesWriteRead len payload =>
    exact .live (.guarded fun hwf => byteDataCommand_sends true (by simpa using bytePayload_length hwf))
  case bits | bitsWrite | bitsRead | bitsWriteRead => exact .live (.guarded (bitDataCommand_sends _ _))

/-- Settles O4: every body but the release's sends whole commands only, and the port adds no event. -/
theorem everySendIsOneWellFormedCommand : Obligations.EverySendIsOneWellFormedCommand := by
  intro i s t bs hi h hmem
  rw [exec_eq] at h
  injection h with h
  subst h
  have hsends : Sends AnyCommand s
      (if s.busy then concluded (refuse .concurrentRequest s) else concluded (body i s)) := by
    split
    · exact .same rfl rfl
    · exact (body_sends i hi s).trans (.same (concluded_params _) (concluded_trace _))
  obtain ⟨es, htrace, hes⟩ := hsends.trace
  rw [eventsSince_of_trace htrace] at hmem
  obtain ⟨iss, c, hwf, hcode⟩ := hes bs hmem
  exact ⟨iss, c, hwf, hcode⟩

end Sys2Proof.Machine
end

section
/-! Data commands and shifts while every answer is full: the opening flush, then each command with its flush and its read or
drain (42_data_shifter.md R151 to R158, R160). -/

namespace Sys2Proof.Machine

open Sys2Proof

/-! ### The opening flush -/

/-- The opening flush, answered in full, recorded its events and emptied the packer; of `S` nothing else changed. -/
structure Opened (s u : State) : Prop where
  trace : u.trace = s.trace ++ openingEvents s
  tap : u.sess.tap = s.sess.tap
  quirk : u.sess.quirk = s.sess.quirk
  fault : u.sess.fault = s.sess.fault
  tmsCount : u.sess.tmsCount = 0
  params : u.params = s.params
  cooperative : Cooperative u.tx = true
  drawn : u.tx.drawn = s.tx.drawn

theorem flushTms_opened {s : State} (h : Cooperative s.tx = true) :
    ∃ u, flushTms true s = .done s.sess.tmsCount u ∧ Opened s u := by
  obtain ⟨d, hd⟩ := cooperative_answer h
  have hflush := flushTms_full (s := s) hd
  have htrace := flushTms_trace s
  rw [hflush] at htrace
  refine ⟨_, hflush, ?_⟩
  by_cases hcount : s.sess.tmsCount = 0
  · rw [if_pos hcount] at htrace ⊢
    exact ⟨htrace, rfl, rfl, rfl, hcount, rfl, h, rfl⟩
  · rw [if_neg hcount] at htrace ⊢
    exact ⟨htrace, rfl, rfl, rfl, rfl, rfl, cooperative_answered h, rfl⟩

/-- The opening's flush is full while every answer is. -/
theorem openingEvents_cooperative {s : State} (h : Cooperative s.tx = true) : openingEvents s =
    if s.sess.tmsCount = 0 then []
    else (tmsCommands s.params.opc s.pending).map Event.send ++ [.flush (.full [])] := by
  obtain ⟨d, hd⟩ := cooperative_answer h
  rw [openingEvents, flushAnswer_full (s := sendPending s) hd]

/-! ### A SHIFT with an output -/

/-- The transport has an answer for a read of one byte, where there is such a read. -/
theorem serves_byte {t : Transport} (h : Cooperative t = true) (c : Prop) [Decidable c] :
    ∃ (r : Byte) (u : Transport), Serves t (if c then [[r]] else []) u ∧ Cooperative u = true := by
  by_cases hc : c
  · obtain ⟨answers, u, hlen, hserves, hu⟩ := serves_cooperative h [1]
    obtain ⟨bs, rfl, hbs⟩ : ∃ bs, answers = [bs] ∧ bs.length = 1 := by simpa [List.map_eq_singleton_iff] using hlen
    obtain ⟨r, rfl⟩ := List.length_eq_one_iff.1 hbs
    exact ⟨r, u, by rw [if_pos hc]; exact hserves, hu⟩
  · exact ⟨0, t, by rw [if_neg hc]; exact rfl, h⟩

/-- The transport has answers for all the reads of a shift, phase by phase. -/
theorem serves_shift {t : Transport} (h : Cooperative t = true) (sizes : List Nat) (len : Nat) (isLast : Bool) :
    ∃ (cap : List (List Byte)) (r f : Byte) (z : Transport), cap.map List.length = sizes ∧
      Serves t (cap ++ ((if nbBit len isLast = 0 then [] else [[r]]) ++ ((if isLast then [[f]] else []) ++ []))) z := by
  obtain ⟨cap, u, hcap, hu, hC⟩ := serves_cooperative h sizes
  obtain ⟨r, v, hv, hC⟩ := serves_byte hC (¬nbBit len isLast = 0)
  obtain ⟨f, z, hz, -⟩ := serves_byte hC (isLast = true)
  rw [ite_not] at hv
  exact ⟨cap, r, f, z, hcap, hu.append (hv.append (hz.append rfl))⟩

/-- The bytes that the commands of a shift return, phase by phase. -/
theorem shiftPlan_sizes {xfer : Nat} (h : 1 ≤ xfer) (o : Opc) (inp : Option (List Byte)) (read : Bool) (len : Nat)
    (isLast : Bool) : (shiftPlan o inp read len isLast xfer).map Prod.snd =
      (cut xfer (nbByte len isLast) 0 (nbByte len isLast)).map Prod.snd
        ++ ((if nbBit len isLast = 0 then [] else [1]) ++ (if isLast then [1] else [])) := by
  have hbit : (residualCmds o inp read (nbByte len isLast) (nbBit len isLast)).map Prod.snd
      = if nbBit len isLast = 0 then [] else [1] := by
    unfold residualCmds
    split <;> rfl
  have hfinal : (finalCmds o inp read (nbByte len isLast) (nbBit len isLast) isLast).map Prod.snd
      = if isLast then [1] else [] := by
    unfold finalCmds
    split <;> rfl
  rw [shiftPlan_eq h, List.map_append, List.map_append, hbit, hfinal, byteCmds, List.map_map, List.append_assoc]
  rfl

/-- The three phases with an output, every answer full: the plan's commands, each read. -/
theorem shiftPhases_read_trace (inp : Option (List Byte)) {len : Nat} {isLast : Bool} {xfer : Nat} (hx : 1 ≤ xfer)
    {u : State} {v : List Byte} (hC : Cooperative u.tx = true) (hv : nbByte len isLast ≤ v.length) :
    ∃ answers : List (List Byte),
      answers.map List.length = (shiftPlan u.params.opc inp true len isLast xfer).map Prod.snd ∧
      (shiftPhases inp len isLast xfer { s := u, out := some v }).final.s.trace =
        u.trace ++ ((shiftPlan u.params.opc inp true len isLast xfer).zip answers).flatMap readEvents := by
  obtain ⟨cap, r, f, z, hcap, hserves⟩ := serves_shift hC
    ((cut xfer (nbByte len isLast) 0 (nbByte len isLast)).map Prod.snd) len isLast
  refine ⟨cap ++ ((if nbBit len isLast = 0 then [] else [[r]]) ++ (if isLast then [[f]] else [])), ?_, ?_⟩
  · rw [shiftPlan_sizes hx, List.map_append, List.map_append, hcap]
    congr 2
    · split <;> rfl
    · split <;> rfl
  · rw [shiftPhases_read inp len isLast hx hserves hcap hv]
    cases isLast <;> rfl

/-- Settles O26: after the opening flush the phases issue the plan, and the transport serves each read. -/
theorem shiftWithOutputTrace : Obligations.ShiftWithOutputTrace := by
  intro s input name len isLast hr hC hadm
  obtain ⟨⟨-, -, -, hout, -⟩, hmin, hmax⟩ := id hadm
  obtain ⟨u, hflush, o⟩ := flushTms_opened (s := bufSizeAsked s) hC
  have hlen : nbByte len isLast ≤ (s.mem.get name).length := by
    have hbytes := hout _ rfl
    unfold nbByte effLength
    split <;> omega
  obtain ⟨answers, hsizes, htrace⟩ := shiftPhases_read_trace (s.input input) (xfer := bufSizeNow s - 3) (by omega)
    o.cooperative hlen
  rw [o.params, bufSizeAsked_params] at hsizes htrace
  refine ⟨_, answers, exec_ready _ hr, hsizes, ?_⟩
  rw [exec_shift_trace hr (exec_ready _ hr), shiftValues_admitted hadm, hflush]
  exact htrace.trans (by rw [o.trace, bufSizeAsked_trace]; rfl)

/-! ### A single data command -/

/-- From `s` to `u` a data command ran: the opening flush, then its events `es`, with `taken` bytes of the receive stream
consumed; the tracked state and the fault mark stay. -/
structure Commanded (es : List Event) (taken : Nat) (s u : State) : Prop where
  trace : u.trace = s.trace ++ openingEvents s ++ es
  drawn : u.tx.drawn = s.tx.drawn + taken
  tap : u.sess.tap = s.sess.tap
  tmsCount : u.sess.tmsCount = 0
  fault : u.sess.fault = s.sess.fault

section
variable {s : State} (cmd : List Byte) (n : Nat) (after : State → State)

theorem dataCommand_write (ht : isShiftState s.sess.tap = true) (h : Cooperative s.tx = true) :
    ∃ u, dataCommand cmd n false after s = .done .none (after u) ∧
      Commanded (writeEvents s.sess.quirk (cmd, n)) (if s.sess.quirk then n else 0) s u := by
  obtain ⟨v, hv, o⟩ := flushTms_opened h
  obtain ⟨u, hu, hsess, -, -, htrace, -, -, -, hdrawn⟩ := issue_write cmd n o.cooperative
  refine ⟨u, ?_, ?_, ?_, ?_, ?_, ?_⟩
  · rw [dataCommand, if_pos ht, hv, Run.bind_done, hu, Run.bind_done]
    rfl
  · rw [htrace, o.trace, o.quirk]
  · rw [hdrawn, o.drawn, o.quirk]
  · rw [hsess, o.tap]
  · rw [hsess, o.tmsCount]
  · rw [hsess, o.fault]

theorem dataCommand_read (ht : isShiftState s.sess.tap = true) (h : Cooperative s.tx = true) :
    ∃ u bs, dataCommand cmd n true after s = .done (.bytes bs) (after u) ∧ bs.length = n ∧
      Commanded [.send cmd, .flush (.full []), .read n (.full bs)] n s u := by
  obtain ⟨v, hv, o⟩ := flushTms_opened h
  obtain ⟨u, bs, hu, hlen, hsess, -, -, htrace, -, -, -, hdrawn⟩ := issue_read cmd n o.cooperative
  refine ⟨u, bs, ?_, hlen, ?_, ?_, ?_, ?_, ?_⟩
  · rw [dataCommand, if_pos ht, hv, Run.bind_done, hu, Run.bind_done]
    rfl
  · rw [htrace, o.trace]
  · rw [hdrawn, o.drawn]
  · rw [hsess, o.tap]
  · rw [hsess, o.tmsCount]
  · rw [hsess, o.fault]

end

/-- What a data command does to the record after its response: the final bit leaves the shift state (R157). -/
def afterCommand (i : Instr) : State → State := if isFinalCommand i then leaveShift else id

/-- The state after the query that a byte-mode command makes (R152; log 5). -/
def queried (i : Instr) (s : State) : State := if isByteCommand i then bufSizeAsked s else s

theorem queried_sess (i : Instr) (s : State) : (queried i s).sess = s.sess := by
  unfold queried
  split <;> rfl

theorem queried_params (i : Instr) (s : State) : (queried i s).params = s.params := by
  unfold queried
  split <;> rfl

theorem queried_drawn (i : Instr) (s : State) : (queried i s).tx.drawn = s.tx.drawn := by
  unfold queried
  split <;> rfl

theorem queried_trace (i : Instr) (s : State) : (queried i s).trace = s.trace ++ sizeQuery i s := by
  unfold queried sizeQuery
  split <;> simp

theorem queried_cooperative (i : Instr) (s : State) : Cooperative (queried i s).tx = Cooperative s.tx := by
  unfold queried
  split <;> rfl

/-- The query does not change what the opening flush sends. -/
theorem queried_openingEvents (i : Instr) {s : State} (h : Cooperative s.tx = true) :
    openingEvents (queried i s) = openingEvents s := by
  rw [openingEvents_cooperative ((queried_cooperative i s).trans h), openingEvents_cooperative h, State.pending,
    queried_sess, queried_params]
  rfl

theorem afterCommand_leaves (i : Instr) (u : State) : (afterCommand i u).trace = u.trace ∧
    (afterCommand i u).tx = u.tx ∧ (afterCommand i u).sess.tmsCount = u.sess.tmsCount ∧
    (afterCommand i u).sess.fault = u.sess.fault := by
  unfold afterCommand
  split <;> exact ⟨rfl, rfl, rfl, rfl⟩

/-- R157: the final bit's edge from a shift state. -/
theorem afterCommand_tap (i : Instr) {u : State} (h : u.sess.tap = .shiftDr ∨ u.sess.tap = .shiftIr) :
    (afterCommand i u).sess.tap =
      if isFinalCommand i then (if u.sess.tap = .shiftDr then .exit1Dr else .exit1Ir) else u.sess.tap := by
  unfold afterCommand
  split
  · rcases h with h | h <;> simp [leaveShift, h, delta]
  · rfl

/-- A well-formed data command that its checks admit is its bytes, issued as `dataCommand` has it. -/
theorem body_data_command {i : Instr} {s : State} (hi : isWriteCommand i = true ∨ isReadCommand i = true)
    (hwf : i.wf = true) (hr : Ready s = true) (ht : isShiftState s.sess.tap = true) (hfit : FitsBuffer i s) :
    body i s = dataCommand (commandBytes s.params.opc i) (responseBytes i) (isReadCommand i) (afterCommand i)
      (queried i s) := by
  have hbyte : ∀ payload read (len : BitVec 16), isByteCommand i = true → responseBytes i = len.toNat + 1 →
      byteDataCommand payload (len.toNat + 1) read s =
        dataCommand (byteOp s.params.opc payload.isSome read :: lenBytes len ++ payload.getD []) (len.toNat + 1) read id
          (bufSizeAsked s) := by
    intro payload read len hb hn
    obtain ⟨hmin, hmax, hsize⟩ := hfit hb
    rw [hn] at hsize
    rw [byteDataCommand_fits ht ((bufSizeOk_iff _).2 ⟨hmin, hmax⟩) hsize, byteCommand_eq]
  cases i <;> simp only [isWriteCommand, isReadCommand, Bool.false_eq_true, or_self, or_true, true_or] at hi
  all_goals rw [body, live_ready _ hr]
  case bytes len => exact hbyte none false len rfl rfl
  case bytesRead len => exact hbyte none true len rfl rfl
  case bytesWrite len payload => exact (if_pos hwf).trans (hbyte (some payload) false len rfl rfl)
  case bytesWriteRead len payload => exact (if_pos hwf).trans (hbyte (some payload) true len rfl rfl)
  case finalBit | finalBitRead => exact if_pos hwf
  case bits len | bitsRead len | bitsWrite len payload | bitsWriteRead len payload =>
    rw [if_pos hwf, bitCommand_eq]
    rfl

/-- What a data command that completes leaves: the model's state `concluded` after `Commanded` work from `queried`. -/
theorem Commanded.concluded {i : Instr} {es : List Event} {taken : Nat} {s u : State} (r : Result)
    (h : Commanded es taken (queried i s) u) (hC : Cooperative s.tx = true)
    (ht : s.sess.tap = .shiftDr ∨ s.sess.tap = .shiftIr) :
    let t := Machine.concluded (.done r (afterCommand i u))
    t.response = some (.result r) ∧ t.tx.drawn = s.tx.drawn + taken ∧
      t.trace = s.trace ++ sizeQuery i s ++ openingEvents s ++ es ∧
      t.sess.tap = (if isFinalCommand i then (if s.sess.tap = .shiftDr then .exit1Dr else .exit1Ir) else s.sess.tap) ∧
      t.sess.tmsCount = 0 ∧ t.sess.fault = s.sess.fault := by
  intro t
  obtain ⟨htrace, htx, hcount, hfault⟩ := afterCommand_leaves i u
  have htap : u.sess.tap = s.sess.tap := by rw [h.tap, queried_sess]
  refine ⟨rfl, ?_, ?_, ?_, hcount.trans h.tmsCount, ?_⟩
  · rw [show t.tx = u.tx from htx, h.drawn, queried_drawn]
  · rw [show t.trace = u.trace from htrace, h.trace, queried_openingEvents i hC, queried_trace]
  · rw [← htap] at ht ⊢
    exact afterCommand_tap i ht
  · rw [show t.sess.fault = u.sess.fault from hfault, h.fault, queried_sess]

/-- A command that does not read is none that reads. -/
theorem isReadCommand_of_isWriteCommand {i : Instr} (h : isWriteCommand i = true) : isReadCommand i = false := by
  revert h
  cases i <;> simp [isWriteCommand, isReadCommand]

/-- Settles O50: the command's body is `dataCommand`, which without a read drains where the quirk flag is set. -/
theorem writingCommandsComplete : Obligations.WritingCommandsComplete := by
  intro i s hi hwf hr hC ht hfit
  have hshift := (isShiftState_iff _).2 ht
  obtain ⟨u, hu, hcommanded⟩ := dataCommand_write (s := queried i s) (commandBytes s.params.opc i) (responseBytes i)
    (afterCommand i) (by rw [queried_sess]; exact hshift) ((queried_cooperative i s).trans hC)
  rw [queried_sess] at hcommanded
  refine ⟨_, ?_, hcommanded.concluded .none hC ht⟩
  rw [exec_ready i hr, body_data_command (.inl hi) hwf hr hshift hfit, isReadCommand_of_isWriteCommand hi, hu]

/-- Settles O51: the same with a read, whose bytes are the answer. -/
theorem readingCommandsComplete : Obligations.ReadingCommandsComplete := by
  intro i s hi hwf hr hC ht hfit
  have hshift := (isShiftState_iff _).2 ht
  obtain ⟨u, bs, hu, hlen, hcommanded⟩ := dataCommand_read (s := queried i s) (commandBytes s.params.opc i)
    (responseBytes i) (afterCommand i) (by rw [queried_sess]; exact hshift) ((queried_cooperative i s).trans hC)
  obtain ⟨hresponse, hrest⟩ := hcommanded.concluded (.bytes bs) hC ht
  refine ⟨_, bs, ?_, hresponse, hlen, hrest⟩
  rw [exec_ready i hr, body_data_command (.inr hi) hwf hr hshift hfit, hi, hu]

end Sys2Proof.Machine
end

section
/-! The decoder and the encoder are each other's inverse (30_encoding.md R60 to R72), and the layout of a TMS command. -/

namespace Sys2Proof

/-! ### What is encoded decodes -/

/-- R65: the byte-mode command of each setting of the two flags; one that does not write has no payload. -/
def byteModeInstr (write read : Bool) (len : BitVec 16) (payload : List Byte) : Instr :=
  match write, read with
  | false, false => .bytes len
  | true, false => .bytesWrite len payload
  | false, true => .bytesRead len
  | true, true => .bytesWriteRead len payload

theorem commandOf_byteMode (w r : Bool) (op : Byte) (rest : List Byte) :
    commandOf (.byteMode w r) .shifter op rest =
      if rest.length + 1 = CommandKind.length rest (.byteMode w r) then
        .ok (byteModeInstr w r (lenField rest) (rest.drop 2))
      else .error (.badLength op) := rfl

theorem encode_byteModeInstr (o : Opc) (w r : Bool) (len : BitVec 16) {p : List Byte} (hp : w = false → p = []) :
    encode o (byteModeInstr w r len p) =
      .command .shifter (CommandKind.opcode o (.byteMode w r) :: (lenBytes len ++ p)) := by
  cases w with
  | false =>
    obtain rfl := hp rfl
    cases r <;> rfl
  | true => cases r <;> rfl

/-- R65: a payload of the length that the length field says, where the command writes. -/
theorem decode_encode_byteModeInstr {o : Opc} (ho : o.wf = true) (w r : Bool) (len : BitVec 16) {p : List Byte}
    (hp : p.length = if w then len.toNat + 1 else 0) :
    decode o (encode o (byteModeInstr w r len p)) = .ok (byteModeInstr w r len p) := by
  have hempty : w = false → p = [] := by
    rintro rfl
    exact List.length_eq_zero_iff.1 hp
  have hlen : (lenBytes len ++ p).length + 1 = CommandKind.length (lenBytes len ++ p) (.byteMode w r) := by
    rw [CommandKind.length, lenField_lenBytes, List.length_append, hp]
    cases w
    · rfl
    · simp [lenBytes]
      omega
  rw [encode_byteModeInstr o w r len hempty, decode_command ho, commandOf_byteMode, if_pos hlen, lenField_lenBytes]
  rfl

/-- R62, R65: the operands of a vector shift, its end state given. -/
theorem decodeShiftX_operands (i : Option VecArg) (u : Option Nat) (n : Nat) (e : TapState)
    (k : Option VecArg → Option Nat → Nat → TapState → Instr) :
    decodeShiftX [VecArg.operand i, outputOperand u, .nat n, .state e.code] k = some (k i u n e) := by
  simp [decodeShiftX, decodeEndState]

/-- Settles O1: a request's operands are read back each by its kind, and a command's opcode tells its kind, which says how the
bytes after it are read. -/
theorem decodeEncodeRoundTrip : Obligations.DecodeEncodeRoundTrip := by
  intro o i ho hwf
  cases i
  case sessionCreate | resetTlr | pushTms | flush | detectChain | sessionRelease | reservedB | reservedC | reservedD
      | reservedE | reservedF => rfl
  case moveToState t => simp [encode, decode, requestOf]
  case shift i u n l => simp [encode, decode, requestOf]
  case shiftIr i u n e => simp [encode, decode, requestOf, decodeShiftX_operands]
  case shiftIrByte b n e => simp [encode, decode, requestOf, decodeEndState]
  case shiftDr i u n e => simp [encode, decode, requestOf, decodeShiftX_operands]
  case tms len data => exact decode_command ho .packer (.tmsLine false) [len, data]
  case finalBit len data => exact decode_command ho .shifter (.tmsLine false) [len, data]
  case finalBitRead len data => exact decode_command ho .shifter (.tmsLine true) [len, data]
  case bytes len => exact decode_encode_byteModeInstr ho false false len (p := []) rfl
  case bytesWrite len p => exact decode_encode_byteModeInstr ho true false len (of_decide_eq_true hwf)
  case bytesRead len => exact decode_encode_byteModeInstr ho false true len (p := []) rfl
  case bytesWriteRead len p => exact decode_encode_byteModeInstr ho true true len (of_decide_eq_true hwf)
  case bits len => exact decode_command ho .shifter (.bitMode false false) [len]
  case bitsWrite len p => exact decode_command ho .shifter (.bitMode true false) [len, p]
  case bitsRead len => exact decode_command ho .shifter (.bitMode false true) [len]
  case bitsWriteRead len p => exact decode_command ho .shifter (.bitMode true true) [len, p]

/-! ### What is decoded encodes -/

/-- The kind read from an opcode has that opcode (R63). -/
theorem CommandKind.opcode_of_ofOpcode {o : Opc} {op : Byte} {k : CommandKind}
    (h : CommandKind.ofOpcode o op = some k) : k.opcode o = op := by
  obtain ⟨hop, rfl⟩ := Option.ite_some_none_eq_some.1 h
  exact hop

/-- R41, R65: the length field keeps every bit of its two bytes. -/
theorem lenBytes_lenField (lo hi : Byte) (p : List Byte) : lenBytes (lenField (lo :: hi :: p)) = [lo, hi] := by
  have hlo : (lenField (lo :: hi :: p)).extractLsb' 0 8 = lo := by
    apply BitVec.eq_of_getLsbD_eq
    intro j hj
    rw [BitVec.getLsbD_extractLsb', lenField, BitVec.getLsbD_append]
    simp [hj]
  have hhi : (lenField (lo :: hi :: p)).extractLsb' 8 8 = hi := by
    apply BitVec.eq_of_getLsbD_eq
    intro j hj
    rw [BitVec.getLsbD_extractLsb', lenField, BitVec.getLsbD_append]
    simp [hj]
  rw [lenBytes, hlo, hhi]

/-- R63, R65: the bytes that a byte-mode command is read from are its length field and its payload. -/
theorem lenBytes_append_payload {w r : Bool} {rest : List Byte}
    (h : rest.length + 1 = CommandKind.length rest (.byteMode w r)) :
    lenBytes (lenField rest) ++ rest.drop 2 = rest ∧ (w = false → rest.drop 2 = []) := by
  constructor
  · have htwo : 2 ≤ rest.length := by cases w <;> simp [CommandKind.length] at h <;> omega
    match rest, htwo with
    | lo :: hi :: p, _ =>
      rw [lenBytes_lenField]
      rfl
  · rintro rfl
    exact List.drop_of_length_le (Nat.le_of_succ_le_succ h.le)

/-- Whatever a kind of command is decoded to, its encoding is the bytes that were read. -/
theorem encode_of_commandOf (o : Opc) {k : CommandKind} {iss : Issuer} {rest : List Byte} {i : Instr}
    (h : commandOf k iss (k.opcode o) rest = .ok i) : encode o i = .command iss (k.opcode o :: rest) := by
  unfold commandOf at h
  split at h
  case h_1 => -- TMS (R64)
    split at h
    · cases h
      rfl
    · cases h
  case h_2 r => -- a final bit (R68)
    split at h
    · cases h
      cases r <;> rfl
    · cases h
  case h_3 w r => -- byte mode (R65)
    split at h
    · next hlen =>
      obtain ⟨hrest, hpayload⟩ := lenBytes_append_payload hlen
      obtain rfl : byteModeInstr w r (lenField rest) (rest.drop 2) = i := Except.ok.inj h
      rw [encode_byteModeInstr o w r _ hpayload, hrest]
    · cases h
  case h_4 w r => -- bit mode (R67), without and with a payload byte
    split at h
    · cases h
      cases r <;> rfl
    · cases h
      cases r <;> rfl
    · cases h
  case h_5 => cases h -- a command that its unit never emits (R72)

/-- Settles O2: the opcode is that of the kind it was read as, and the bytes after it are the kind's fields. -/
theorem encodeGivesBackDecodedCommand : Obligations.EncodeGivesBackDecodedCommand := by
  intro o iss bs i h
  cases bs with
  | nil => cases h
  | cons op rest =>
    rw [decode] at h
    split at h
    · next k hk =>
      obtain rfl := CommandKind.opcode_of_ofOpcode hk
      exact encode_of_commandOf o h
    · cases h

/-! ### The TMS command -/

namespace Machine

/-- R64: bit 7 alone is set in the byte under the packed bits. -/
theorem getLsbD_0x80 (i : Nat) : (0x80 : Byte).getLsbD i = decide (i = 7) := by
  by_cases hi : i < 8
  · interval_cases i <;> rfl
  · rw [BitVec.getLsbD_of_ge _ _ (by omega), decide_eq_false (by omega)]

/-- Settles O19: the data byte is the packed bits under bit 7, and the opcode's flags are joined in another order. -/
theorem tmsCommandLayout : Obligations.TmsCommandLayout := by
  intro o bits _ hsize
  have hopcode : tmsOp o = o.writeTms ||| o.lsb ||| o.bitmode ||| o.writeNeg := by
    simp only [tmsOp, Opc.code, if_true, Bool.false_eq_true, if_false]
    ac_rfl
  have hdata : ∀ i, (0x80 ||| packBits bits).getLsbD i = (decide (i = 7) || bits.getD i false) := fun i => by
    rw [BitVec.getLsbD_or, getLsbD_0x80, packBits_getLsbD bits (by omega)]
  refine ⟨0x80 ||| packBits bits, by rw [tmsCommand, hopcode], fun i hi => ?_, fun i hi h6 => ?_, ?_⟩
  · rw [hdata, decide_eq_false (by omega), Bool.false_or, List.getD_eq_getElem _ _ hi, List.getElem?_eq_getElem hi]
  · rw [hdata, decide_eq_false (by omega), Bool.false_or, List.getD_eq_default _ _ hi]
  · rw [hdata]
    rfl

end Machine

/-! ### Items written out -/

/-- Settles O3 by running the decoder on each item. -/
theorem writtenOutItemsDecode : Obligations.WrittenOutItemsDecode := by
  unfold Obligations.WrittenOutItemsDecode
  decide

end Sys2Proof
end

section
/-! One step and the refusals of what it runs: items off the port (30_encoding.md R61), reserved codes (60_exceptions.md R234),
and commands the core never emits (30_encoding.md R65, R71). -/

namespace Sys2Proof.Machine

open Sys2Proof

/-- Settles O54: the four branches of `step`. -/
theorem stepRunsTheDecodedInstruction : Obligations.StepRunsTheDecodedInstruction := by
  refine ⟨fun s item rest i hport hdecode => ?_, fun s item rest e hport hdecode => ?_, fun s hport hbusy => ?_,
    fun s hport hbusy => ?_⟩
  · simp [step, hport, hdecode]
  · simp [step, hport, hdecode]
  · simp [step, hport, hbusy]
  · simp [step, hport, hbusy]

/-! ### Refusals -/

/-- Settles O47: the five bodies are the one refusal. -/
theorem reservedCodesAreRefused : Obligations.ReservedCodesAreRefused := by
  intro i s hi h
  have hbody : body i s = reservedRequest s := by
    simp only [List.mem_cons, List.not_mem_nil, or_false] at hi
    rcases hi with rfl | rfl | rfl | rfl | rfl <;> rfl
  exact exec_refused h (hbody.trans (live_ready _ h))

/-- R71: only a command can be ill-formed, and its body then refuses it. -/
theorem body_malformed {i : Instr} {s : State} (hwf : i.wf = false) (h : Ready s = true) :
    body i s = refuse .malformedCommand s := by
  have hguard {x : Run State Result} : (if i.wf then x else refuse .malformedCommand s) = refuse .malformedCommand s :=
    if_neg (by rw [hwf]; exact Bool.false_ne_true)
  cases i
  case tms | finalBit | finalBitRead | bytesWrite | bytesWriteRead | bits | bitsWrite | bitsRead | bitsWriteRead =>
    rw [body, live_ready _ h]
    exact hguard
  all_goals cases hwf

/-- A data command is `byteDataCommand` in byte mode and `dataCommand` in the other modes. -/
theorem body_data {i : Instr} {s : State} (hi : isWriteCommand i = true ∨ isReadCommand i = true) (hwf : i.wf = true)
    (h : Ready s = true) :
    (isByteCommand i = true ∧ ∃ payload read, body i s = byteDataCommand payload (responseBytes i) read s) ∨
      (isByteCommand i = false ∧ ∃ cmd n read after, body i s = dataCommand cmd n read after s) := by
  cases i <;> simp only [isWriteCommand, isReadCommand, Bool.false_eq_true, or_self, or_true, true_or] at hi
  all_goals rw [body, live_ready _ h]
  case bytes | bytesRead => exact .inl ⟨rfl, _, _, rfl⟩
  case bytesWrite | bytesWriteRead => exact .inl ⟨rfl, _, _, if_pos hwf⟩
  case finalBit | finalBitRead | bits | bitsWrite | bitsRead | bitsWriteRead =>
    exact .inr ⟨rfl, _, _, _, _, if_pos hwf⟩

/-- R150, check 3: a data command outside a shift state. -/
theorem body_not_in_shift {i : Instr} {s : State} (hi : isWriteCommand i = true ∨ isReadCommand i = true)
    (hwf : i.wf = true) (h : Ready s = true) (ht : ¬isShiftState s.sess.tap = true) :
    body i s = refuse .notInShiftState s := by
  obtain ⟨-, payload, read, hbody⟩ | ⟨-, cmd, n, read, after, hbody⟩ := body_data hi hwf h
  · rw [hbody, byteDataCommand, if_neg ht]
  · rw [hbody, dataCommand, if_neg ht]

theorem isData_of_isByteCommand {i : Instr} (h : isByteCommand i = true) :
    isWriteCommand i = true ∨ isReadCommand i = true := by
  cases i
  case bytes | bytesWrite => exact .inl rfl
  case bytesRead | bytesWriteRead => exact .inr rfl
  all_goals cases h

/-- R65, R152: a byte-mode command in a shift state is refused after its query. -/
theorem exec_byte_refused {i : Instr} {s : State} {r : Reason} (hi : isByteCommand i = true) (hwf : i.wf = true)
    (h : Ready s = true)
    (hr : ∀ payload read, byteDataCommand payload (responseBytes i) read s = refuse r (bufSizeAsked s)) :
    exec i s = .next { s with sess := { s.sess with refused := true }, trace := s.trace ++ [.bufSize (bufSizeNow s)],
                              tx := { s.tx with bufSizes := s.tx.bufSizes.tail }, response := some (.refused r) } := by
  obtain ⟨-, payload, read, hbody⟩ | ⟨hno, -⟩ := body_data (isData_of_isByteCommand hi) hwf h
  · rw [exec_ready i h, hbody, hr]
    rfl
  · rw [hi] at hno
    cases hno

/-- Settles O52, each refusal by the check that gives it. -/
theorem malformedCommandsAreRefused : Obligations.MalformedCommandsAreRefused := by
  refine ⟨fun i s hwf h => exec_refused h (body_malformed hwf h), fun i s hi hwf h ht => ?_, fun i s hi hwf h ht => ?_⟩
  · rw [← isShiftState_iff] at ht
    exact exec_refused h (body_not_in_shift hi hwf h ht)
  · rw [← isShiftState_iff] at ht
    refine ⟨fun hsize => exec_byte_refused hi hwf h fun payload read => ?_,
      fun hmin hmax hlong => exec_byte_refused hi hwf h fun payload read => ?_⟩
    · have hbad : ¬bufSizeOk (bufSizeNow s) = true := by
        rw [bufSizeOk_iff]
        omega
      rw [byteDataCommand, if_pos ht, if_neg hbad]
    · rw [byteDataCommand, if_pos ht, if_pos ((bufSizeOk_iff _).2 ⟨hmin, hmax⟩), if_neg (Nat.not_le.2 hlong)]

end Sys2Proof.Machine
end

section
/-! The expansions of SHIFT_IR, SHIFT_DR and SHIFT_IR_BYTE (42_data_shifter.md R161 to R163): no operation of the core looks at
the answer of an earlier request, so the operations of an expansion do what the requests they stand for do. -/

namespace Sys2Proof.Machine

open Sys2Proof

/-! ### The answer of an earlier request is never looked at -/

/-- A change of the working state passes through a sequence whose second part it passes through. -/
theorem Run.bind_mapState {σ α β : Type} {g : σ → σ} (x : Run σ α) {f : α → σ → Run σ β}
    (hf : ∀ a s, f a (g s) = (f a s).mapState g) : (x.mapState g).bind f = (x.bind f).mapState g := by
  cases x with
  | done a s => exact hf a s
  | ended w s => rfl

theorem Run.map_mapState {σ τ α β : Type} (g : σ → τ) (f : α → β) (x : Run σ α) :
    (x.mapState g).map f = (x.map f).mapState g := by
  cases x <;> rfl

/-- The state with another answer to the request before (R61; log 14). -/
def State.withResponse (r : Option Response) (s : State) : State := { s with response := r }

/-- The same of a shift at work. -/
def Work.withResponse (r : Option Response) (w : Work) : Work := { w with s := w.s.withResponse r }

section
variable (r : Option Response)

theorem autoFlush_withResponse (s : State) : autoFlush (s.withResponse r) = (autoFlush s).withResponse r := by
  have hcount : (s.withResponse r).sess.tmsCount = s.sess.tmsCount := rfl
  unfold autoFlush
  rw [hcount]
  split <;> rfl

theorem pushTms_withResponse (b : Bool) (s : State) : pushTms b (s.withResponse r) = (pushTms b s).withResponse r := by
  have hcount : (s.withResponse r).sess.tmsCount = s.sess.tmsCount := rfl
  have hcapacity : (s.withResponse r).params.tmsCapacity = s.params.tmsCapacity := rfl
  unfold pushTms
  rw [hcount, hcapacity, autoFlush_withResponse]
  split <;> rfl

theorem queuePath_withResponse (bits : List Bool) (s : State) :
    queuePath bits (s.withResponse r) = (queuePath bits s).withResponse r := by
  induction bits generalizing s with
  | nil => rfl
  | cons b bs ih =>
    have hedge : queueEdge b (s.withResponse r) = (queueEdge b s).withResponse r := by
      rw [queueEdge, pushTms_withResponse]
      rfl
    rw [queuePath, hedge, ih]
    rfl

theorem txFlush_withResponse (s : State) : txFlush (s.withResponse r) = (txFlush s).mapState (State.withResponse r) := by
  have h : flushAnswer (s.withResponse r) = flushAnswer s := rfl
  unfold txFlush
  rw [h]
  split <;> rfl

theorem txRead_withResponse (n : Nat) (s : State) :
    txRead n (s.withResponse r) = (txRead n s).mapState (State.withResponse r) := by
  have h : readAnswer n (s.withResponse r) = readAnswer n s := rfl
  unfold txRead
  rw [h]
  split <;> rfl

theorem txDrain_withResponse (n : Nat) (s : State) :
    txDrain n (s.withResponse r) = (txDrain n s).mapState (State.withResponse r) := by
  have h : drainAnswer n (s.withResponse r) = drainAnswer n s := rfl
  unfold txDrain
  rw [h]
  split <;> rfl

theorem flushTms_withResponse (force : Bool) (s : State) :
    flushTms force (s.withResponse r) = (flushTms force s).mapState (State.withResponse r) := by
  have hcount : (s.withResponse r).sess.tmsCount = s.sess.tmsCount := rfl
  have hsend : sendPending (s.withResponse r) = (sendPending s).withResponse r := rfl
  unfold flushTms
  rw [hcount, hsend, txFlush_withResponse, Run.map_mapState]
  split
  · rfl
  · split <;> rfl

theorem moveTo_withResponse (t : TapState) (s : State) :
    moveTo t (s.withResponse r) = (moveTo t s).mapState (State.withResponse r) := by
  have hpath : path (s.withResponse r).sess.tap t = path s.sess.tap t := rfl
  rw [moveTo, hpath, queuePath_withResponse, flushTms_withResponse, Run.map_mapState]
  rfl

theorem issue_withResponse (cmd : List Byte) (n : Nat) (read : Bool) (s : State) :
    issue cmd n read (s.withResponse r) = (issue cmd n read s).mapState (State.withResponse r) := by
  have hsend : txSend cmd (s.withResponse r) = (txSend cmd s).withResponse r := rfl
  have hquirk : (s.withResponse r).sess.quirk = s.sess.quirk := rfl
  unfold issue
  rw [hsend, hquirk, txFlush_withResponse, Run.bind_mapState, Run.bind_mapState]
  · split
    · rfl
    · split <;> rfl
  · intro _ u
    rw [txDrain_withResponse, Run.map_mapState]
  · intro _ u
    rw [txRead_withResponse, Run.map_mapState]

/-- An operation of the machine inside a shift, and what follows it. -/
theorem lift_bind_withResponse {α β : Type} (w : Work) {x y : Run State α} {f : α → Work → Run Work β}
    (hx : x = y.mapState (State.withResponse r))
    (hf : ∀ a u, f a (u.withResponse r) = (f a u).mapState (Work.withResponse r)) :
    ((w.withResponse r).lift x).bind f = ((w.lift y).bind f).mapState (Work.withResponse r) := by
  subst hx
  cases y with
  | done a s => exact hf a { s := s, out := w.out }
  | ended e s => rfl

theorem capture_withResponse (w : Work) (f : List Byte → List Byte → List Byte) (bs : Option (List Byte)) :
    (w.withResponse r).capture f bs = (w.capture f bs).withResponse r := by
  obtain ⟨s, out⟩ := w
  cases out <;> cases bs <;> rfl

theorem bytePhase_withResponse (inp : Option (List Byte)) (xfer fuel k rem : Nat) (w : Work) :
    bytePhase inp xfer fuel k rem (w.withResponse r) =
      (bytePhase inp xfer fuel k rem w).mapState (Work.withResponse r) := by
  induction fuel generalizing k rem w with
  | zero => rfl
  | succ fuel ih =>
    unfold bytePhase
    split
    · rfl
    · refine lift_bind_withResponse r w (issue_withResponse r _ _ _ _) fun bs u => ?_
      rw [capture_withResponse, ih]

theorem residualPhase_withResponse (inp : Option (List Byte)) (nb_byte nb_bit : Nat) (w : Work) :
    residualPhase inp nb_byte nb_bit (w.withResponse r) =
      (residualPhase inp nb_byte nb_bit w).mapState (Work.withResponse r) := by
  unfold residualPhase
  split
  · rfl
  · refine lift_bind_withResponse r w (issue_withResponse r _ _ _ _) fun bs u => ?_
    rw [capture_withResponse]
    rfl

theorem finalPhase_withResponse (inp : Option (List Byte)) (nb_byte nb_bit : Nat) (isLast : Bool) (w : Work) :
    finalPhase inp nb_byte nb_bit isLast (w.withResponse r) =
      (finalPhase inp nb_byte nb_bit isLast w).mapState (Work.withResponse r) := by
  unfold finalPhase
  split
  · refine lift_bind_withResponse r w (issue_withResponse r _ _ _ _) fun bs u => ?_
    rw [capture_withResponse]
    rfl
  · rfl

theorem shiftPhases_withResponse (inp : Option (List Byte)) (len : Nat) (isLast : Bool) (xfer : Nat) (w : Work) :
    shiftPhases inp len isLast xfer (w.withResponse r) =
      (shiftPhases inp len isLast xfer w).mapState (Work.withResponse r) := by
  rw [shiftPhases, bytePhase_withResponse]
  refine Run.bind_mapState _ fun _ u => ?_
  rw [residualPhase_withResponse]
  exact Run.bind_mapState _ fun _ v => finalPhase_withResponse r inp _ _ isLast v

theorem shiftValues_withResponse (inp out : Option (List Byte)) (al : Bool) (len : Nat) (isLast : Bool) (s : State) :
    shiftValues inp out al len isLast (s.withResponse r) =
      (shiftValues inp out al len isLast s).mapState (Work.withResponse r) := by
  have hcheck : shiftCheck inp out al len isLast (s.withResponse r) = shiftCheck inp out al len isLast s := rfl
  have hsize : bufSizeNow (s.withResponse r) = bufSizeNow s := rfl
  unfold shiftValues
  rw [hcheck, hsize]
  split
  · rfl
  · split
    · exact lift_bind_withResponse r { s := s, out := out } (flushTms_withResponse r true (bufSizeAsked s))
        fun _ u => shiftPhases_withResponse r inp len isLast _ u
    · rfl

theorem putOutput_withResponse (s : State) (name : Option Nat) (v : Option (List Byte)) :
    (s.withResponse r).putOutput name v = (s.putOutput name v).withResponse r := by
  have hmem : (s.withResponse r).mem = s.mem := rfl
  unfold State.putOutput
  rw [hmem]
  split
  · split <;> rfl
  · rfl

theorem shiftVectors_withResponse (input : Option VecArg) (output : Option Nat) (len : Nat) (isLast : Bool) (s : State) :
    shiftVectors input output len isLast (s.withResponse r) =
      (shiftVectors input output len isLast s).mapState (State.withResponse r) := by
  have hin : (s.withResponse r).input input = s.input input := rfl
  have hout : (s.withResponse r).output output = s.output output := rfl
  rw [shiftVectors, hin, hout, shiftValues_withResponse, shiftVectors]
  cases shiftValues (s.input input) (s.output output) (sameStorage input output) len isLast s with
  | done a w => exact congrArg (Run.done a) (putOutput_withResponse r w.s output w.out)
  | ended e w => exact congrArg (Run.ended e) (putOutput_withResponse r w.s output w.out)

end

/-! ### The three requests -/

theorem concluded_mapState_withResponse (r : Option Response) (x : Run State Result) :
    concluded (x.mapState (State.withResponse r)) = concluded x := by
  cases x with
  | done a s => rfl
  | ended w s => cases w <;> rfl

/-- The answer of a request before changes nothing of MOVE_TO_STATE. -/
theorem exec_moveToState_withResponse (t : TapState) (r : Option Response) {s : State} (h : Ready s = true) :
    exec (.moveToState t) (s.withResponse r) = .next (concluded ((moveTo t s).map fun _ => Result.none)) := by
  have hr : Ready (s.withResponse r) = true := h
  rw [exec_ready _ hr, body, live_ready _ hr, moveTo_withResponse, Run.map_mapState, concluded_mapState_withResponse]

/-- The answer of a request before changes nothing of SHIFT. -/
theorem exec_shift_withResponse (input : Option VecArg) (output : Option Nat) (len : Nat) (isLast : Bool)
    (r : Option Response) {s : State} (h : Ready s = true) :
    exec (.shift input output len isLast) (s.withResponse r) =
      .next (concluded ((shiftVectors input output len isLast s).map fun _ => Result.none)) := by
  have hr : Ready (s.withResponse r) = true := h
  rw [exec_ready _ hr, body, live_ready _ hr, shiftVectors_withResponse, Run.map_mapState,
    concluded_mapState_withResponse]

/-- A request without a result completes and is answered so, or it ends early and is answered otherwise; whatever was to
follow it is then left out. -/
theorem concluded_unit_cases (x : Run State Unit) :
    (∃ u, x = .done () u ∧
      concluded (x.map fun _ => Result.none) = u.withResponse (some (.result .none))) ∨
    ((concluded (x.map fun _ => Result.none)).response ≠ some (.result .none) ∧
      ∀ f : Unit → State → Run State Unit,
        concluded ((x.bind f).map fun _ => Result.none) = concluded (x.map fun _ => Result.none)) := by
  cases x with
  | done a u => exact .inl ⟨u, rfl, rfl⟩
  | ended w u =>
    right
    refine ⟨?_, fun _ => rfl⟩
    cases w <;> simp

theorem ready_congr {s t : State} (hbusy : t.busy = s.busy) (hlife : t.sess.life = s.sess.life) : Ready t = Ready s := by
  simp [Ready, hbusy, hlife]

theorem moveTo_ready {t : TapState} {s u : State} (h : moveTo t s = .done () u) (hr : Ready s = true) :
    Ready u = true := by
  have e := moveTo_extends t s
  rw [h] at e
  exact (ready_congr e.busy e.life).trans hr

theorem shiftVectors_ready {input : Option VecArg} {output : Option Nat} {len : Nat} {isLast : Bool} {s u : State}
    (h : shiftVectors input output len isLast s = .done () u) (hr : Ready s = true) : Ready u = true := by
  have e := shiftValues_extends (s.input input) (s.output output) (sameStorage input output) len isLast s
  have hu : (shiftVectors input output len isLast s).final = u := by rw [h]; rfl
  rw [shiftVectors, Run.final_mapState] at hu
  rw [← hu, ready_congr (putOutput_busy _ _ _) (congrArg Session.life (putOutput_sess _ _ _)),
    ready_congr e.busy e.life]
  exact hr

/-- The checks that SHIFT_IR and SHIFT_DR make of their own pass, so they are the three operations (R161, R163). -/
theorem shiftRegister_checked {input : Option VecArg} {output : Option Nat} {len : Nat} {s : State}
    (h : ShiftChecked (s.setTap .shiftDr) input output len true) (shiftState endState : TapState) :
    shiftRegister shiftState input output len endState s =
      (moveTo shiftState s).bind fun _ s =>
        (shiftVectors input output len true s).bind fun _ s => moveTo endState s := by
  obtain ⟨hlen, -, hvectors⟩ := h
  have hzero : len ≠ 0 := hlen.resolve_right (by decide)
  rw [shiftRegister, if_neg hzero, (vectorCheck_none_iff input output len s).2 hvectors]

/-- Settles O33: the run of the expansion stops where one of the three stops, and no request looks at the answer of the one
before it. -/
theorem shiftRegisterIsTheThreeRequests : Obligations.ShiftRegisterIsTheThreeRequests := by
  intro i shiftState s a b c input output len endState hi hr hchecked ha hb hc
  have hexec : exec i s = .next (concluded ((shiftRegister shiftState input output len endState s).map
      fun _ => Result.none)) := by
    rcases hi with ⟨rfl, rfl⟩ | ⟨rfl, rfl⟩ <;> rw [exec_ready _ hr, body, live_ready _ hr]
  rw [hexec, shiftRegister_checked hchecked]
  obtain rfl : concluded ((moveTo shiftState s).map fun _ => Result.none) = a := by
    rw [exec_ready _ hr, body, live_ready _ hr] at ha
    exact Host.Outcome.next.inj ha
  obtain ⟨u, hmove, ha⟩ | ⟨hstop, hskip⟩ := concluded_unit_cases (moveTo shiftState s)
  · have hu := moveTo_ready hmove hr
    rw [ha, exec_shift_withResponse _ _ _ _ _ hu] at hb
    obtain rfl := Host.Outcome.next.inj hb
    rw [ha, hmove, Run.bind_done]
    refine ⟨fun h => absurd rfl h, ?_⟩
    obtain ⟨v, hshift, hb⟩ | ⟨hstop, hskip⟩ := concluded_unit_cases (shiftVectors input output len true u)
    · have hv := shiftVectors_ready hshift hu
      rw [hb, exec_moveToState_withResponse _ _ hv] at hc
      rw [hb, hshift, Run.bind_done]
      exact ⟨fun _ h => absurd rfl h, fun _ _ => hc⟩
    · exact ⟨fun _ _ => congrArg _ (hskip _), fun _ h => absurd h hstop⟩
  · exact ⟨fun _ => congrArg _ (hskip _), fun h => absurd h hstop, fun h => absurd h hstop⟩

/-! ### A write-only SHIFT_IR or SHIFT_DR -/

/-- An admitted shift with no output completes while every answer is full, and no answer to come is less than full. -/
theorem shiftVectors_write {input : Option VecArg} {len : Nat} {isLast : Bool} {s : State}
    (hC : Cooperative s.tx = true) (h : ShiftAdmitted s input none len isLast) :
    ∃ t, shiftVectors input none len isLast s = .done () t ∧ Cooperative t.tx = true := by
  obtain ⟨-, hmin, -⟩ := id h
  obtain ⟨u, hflush, o⟩ := flushTms_opened (s := bufSizeAsked s) hC
  obtain ⟨t, ht, it⟩ := shiftPhases_write (s.input input) len isLast (xfer := bufSizeNow s - 3) (by omega) o.cooperative
  refine ⟨if isLast then t.setTap (delta u.sess.tap true) else t, ?_, ?_⟩
  · rw [shiftVectors, shiftValues_admitted h, hflush]
    exact congrArg (Run.mapState _) ht
  · cases isLast <;> exact it.cooperative

/-- What admits a shift looks at `S.tap`, the caller's vectors and the next buffer size alone. -/
theorem ShiftAdmitted.congr {input : Option VecArg} {output : Option Nat} {len : Nat} {isLast : Bool} {s t : State}
    (h : ShiftAdmitted s input output len isLast) (htap : t.sess.tap = s.sess.tap) (hmem : t.mem = s.mem)
    (hsize : bufSizeNow t = bufSizeNow s) : ShiftAdmitted t input output len isLast := by
  have hin : t.input input = s.input input := by simp only [State.input, hmem]
  have hout : t.output output = s.output output := by simp only [State.output, hmem]
  unfold ShiftAdmitted ShiftChecked at h ⊢
  rwa [htap, hin, hout, hsize]

theorem Moved.bufSizeNow {bits : List Bool} {tap : TapState} {s t : State} (m : Moved bits tap s t) :
    bufSizeNow t = bufSizeNow s := by
  unfold Machine.bufSizeNow
  rw [m.tx]
  split <;> rfl

/-- SHIFT_IR and SHIFT_DR with no output complete: each of the three operations does (R161, R163). -/
theorem shiftRegister_write {shiftState endState : TapState} {input : Option VecArg} {len : Nat} {s : State}
    (hI : StateInv s = true) (hC : Cooperative s.tx = true) (hstate : shiftState = .shiftDr ∨ shiftState = .shiftIr)
    (h : ShiftAdmitted (s.setTap .shiftDr) input none len true) :
    ∃ t, shiftRegister shiftState input none len endState s = .done () t ∧ t.sess.tap = endState ∧
      t.sess.tmsCount = 0 := by
  obtain ⟨⟨hlen, -, hvectors⟩, hsize⟩ := id h
  have hshift : ShiftAdmitted (s.setTap shiftState) input none len true := ⟨⟨hlen, hstate, hvectors⟩, hsize⟩
  obtain ⟨d, hd⟩ := cooperative_answer hC
  obtain ⟨u, hmove, m⟩ := moveTo_moved shiftState hI hd
  obtain ⟨v, hv, hCv⟩ := shiftVectors_write (m.cooperative hC) (hshift.congr m.tap m.mem m.bufSizeNow)
  have hIv : StateInv v = true := by
    have p := shiftVectors_progress input none len true u
    rw [hv] at p
    exact p.stateInv (m.inv hI)
  obtain ⟨e, he⟩ := cooperative_answer hCv
  obtain ⟨t, hend, n⟩ := moveTo_moved endState hIv he
  refine ⟨t, ?_, n.tap, n.tmsCount⟩
  rw [shiftRegister_checked h.1, hmove, Run.bind_done, hv, Run.bind_done, hend]

theorem exec_shiftIrByte {irlen : Nat} (h : irlen ≤ 8) (s : State) (tdi : Byte) (endState : TapState) :
    exec (.shiftIrByte tdi irlen endState) s = exec (.shiftIr (some (.bytes [tdi])) none irlen endState) s := by
  have hbody : body (.shiftIrByte tdi irlen endState) = body (.shiftIr (some (.bytes [tdi])) none irlen endState) := by
    simp only [body, gt_iff_lt, Nat.not_lt.2 h, if_false]
  rw [exec_eq, exec_eq, hbody]

/-- Settles O36: one byte is long enough for 8 bits and is no buffer of the caller's, so the shift is admitted. -/
theorem shiftIrByteIsShiftIrOfOneByte : Obligations.ShiftIrByteIsShiftIrOfOneByte := by
  refine ⟨fun s tdi irlen endState h8 => exec_shiftIrByte h8 s tdi endState,
    fun s tdi irlen endState h1 h8 hI hr hC hmin hmax => ?_⟩
  have hadmitted : ShiftAdmitted (s.setTap .shiftDr) (some (.bytes [tdi])) none irlen true := by
    refine ⟨⟨.inl (by omega), .inl rfl, fun v hv => ?_, fun v hv => ?_, fun n hn => ?_⟩, hmin, hmax⟩
    · obtain rfl : [tdi] = v := Option.some.inj hv
      rw [List.length_singleton]
      omega
    · cases hv
    · cases hn
  obtain ⟨t, ht, htap, hcount⟩ := shiftRegister_write (endState := endState) hI hC (.inr rfl) hadmitted
  refine ⟨t.withResponse (some (.result .none)), ?_, rfl, htap, hcount⟩
  rw [exec_shiftIrByte h8, exec_ready _ hr, body, live_ready _ hr, ht]
  rfl

end Sys2Proof.Machine
end

section
/-! The TAP graph: its self-loops and its shortest paths (40_tap_state_machine.md R100 to R104, R107). -/

namespace Sys2Proof.Machine

open Sys2Proof

/-- Settles O6: the table of `selfTms` against the two edges out of each state. -/
theorem selfLoopsAreThoseOfSelfTms : Obligations.SelfLoopsAreThoseOfSelfTms := by
  refine ⟨fun t b => ?_, fun t => ?_, rfl, rfl, rfl, rfl, rfl, rfl⟩
  · cases t <;> cases b <;> decide
  · cases t <;> decide

/-- Eight passes of R105's loop are enough: after the first edge the seven that are left are the whole way on. -/
theorem hops_step {c t : TapState} (h : c ≠ t) :
    hops 8 c t = nextTms c t :: hops 8 (delta c (nextTms c t)) t := by
  revert h
  cases c <;> cases t <;> decide

/-- R103: the edge that `nextTms` does not name leads to a state no nearer to the target. -/
theorem hops_off_path {c t : TapState} {b : Bool} (h : c ≠ t) (hb : b ≠ nextTms c t) :
    (hops 8 c t).length ≤ (hops 8 (delta c b) t).length := by
  obtain rfl : b = !nextTms c t := Bool.eq_not.2 hb
  revert h
  clear hb
  cases c <;> cases t <;> decide

/-- R103: bits that reach the target are no fewer than the hops, and as many only where they are the hops. -/
theorem hops_shortest {t : TapState} (bits : List Bool) {c : TapState} (h : walk c bits = t) :
    (hops 8 c t).length ≤ bits.length ∧ (bits.length = (hops 8 c t).length → bits = hops 8 c t) := by
  induction bits generalizing c with
  | nil =>
    obtain rfl : c = t := h
    simp [hops]
  | cons b bits ih =>
    obtain ⟨hle, heq⟩ := ih h
    by_cases hct : c = t
    · simp [hops, hct]
    · by_cases hb : b = nextTms c t
      · subst hb
        rw [hops_step hct]
        simpa using ⟨hle, heq⟩
      · have hoff := hops_off_path hct hb
        rw [List.length_cons]
        exact ⟨by omega, fun hlen => by omega⟩

/-- Settles O5: the path is the hops, whose first bit is `nextTms`. -/
theorem nextHopIsTheUniqueShortestPath : Obligations.NextHopIsTheUniqueShortestPath := by
  intro c t h
  have hpath : path c t = hops 8 c t := if_neg h
  refine ⟨walk_path c t, ?_, fun bits hbits => ?_⟩
  · rw [hpath, hops_step h, List.head?_cons]
  · rw [hpath]
    exact hops_shortest bits hbits

end Sys2Proof.Machine
end

section
/-! The requests of the packer and of the walker above it, however they end (40_tap_state_machine.md R105, R106,
41_tms_packer.md R131 to R134). -/

namespace Sys2Proof.Machine

open Sys2Proof

/-! ### Answers in full -/

/-- MOVE_TO_STATE completes where `moveToState` does (R105). -/
theorem exec_moveToState_done {target : TapState} {s t : State} (h : Ready s = true)
    (hmove : moveTo target s = .done () t) :
    exec (.moveToState target) s = .next (t.withResponse (some (.result .none))) := by
  rw [exec_ready _ h, body, live_ready _ h, hmove]
  rfl

/-- RESET_TLR completes where the reset fast path does (R106). -/
theorem exec_resetTlr_done {s t : State} (h : Ready s = true) (hreset : resetTap s = .done () t) :
    exec .resetTlr s = .next (t.withResponse (some (.result .none))) := by
  rw [exec_ready _ h, body, live_ready _ h, hreset]
  rfl

theorem stateInv_opc {s : State} (h : StateInv s = true) : s.params.opc.wf = true :=
  ((paramsOk_iff _).1 ((stateInv_iff s).1 h).1).2

theorem stateInv_capacity {s : State} (h : StateInv s = true) : 1 ≤ s.params.tmsCapacity :=
  ((paramsOk_iff _).1 ((stateInv_iff s).1 h).1).1

theorem stateInv_buffer {s : State} (h : StateInv s = true) : bufferOk s = true :=
  ((stateInv_iff s).1 h).2.1

/-- What a walk adds to the trace: commands that clock its bits and a `Flush`, and nothing where there is no bit. -/
theorem Moved.events {bits : List Bool} {tap : TapState} {s t : State} (m : Moved bits tap s t)
    (ho : s.params.opc.wf = true) : ∃ es, t.trace = s.trace ++ es ∧ streamTms s.params.opc es = bits ∧
      (bits = [] → es = []) ∧ (bits ≠ [] → es.getLast? = some (.flush (.full []))) := by
  obtain ⟨cs, hsize, hbits, htrace⟩ := m.trace
  refine ⟨_, htrace, ?_, fun hnil => ?_, fun hne => ?_⟩
  · rw [streamTms_tms ho cs hsize (by split <;> rfl), hbits]
  · have hcs : cs = [] := List.eq_nil_iff_forall_not_mem.2 fun c hc => by
      have hempty : c = [] := List.flatten_eq_nil_iff.1 (hbits.trans hnil) c hc
      simpa [hempty] using (hsize c hc).1
    rw [hcs, if_pos hnil]
    rfl
  · rw [if_neg hne, List.getLast?_concat]

/-- Settles O7: what was pending and then the path is moved through the packer. -/
theorem moveToStateReachesTarget : Obligations.MoveToStateReachesTarget := by
  intro s target d hI h hanswer
  obtain ⟨t, hmove, m⟩ := moveTo_moved target hI hanswer
  obtain ⟨es, htrace, hbits, hnone, hlast⟩ := m.events (stateInv_opc hI)
  refine ⟨_, es, exec_moveToState_done h hmove, m.tap, m.tmsCount, m.fault, m.refused, rfl, htrace, hbits, ?_⟩
  exact (em (s.pending ++ path s.sess.tap target = [])).imp hnone hlast

/-- R106: six ones lead from every state to TEST_LOGIC_RESET. -/
theorem walk_six_ones (t : TapState) :
    walk t (List.replicate Config.resetTmsCount true) = .testLogicReset := by
  cases t <;> rfl

/-- Settles O11: whatever the pending bits did to the target, the six ones after them take it to TEST_LOGIC_RESET. -/
theorem resetTlrResynchronisesEveryTarget : Obligations.ResetTlrResynchronisesEveryTarget := by
  intro s d target hI h hanswer
  obtain ⟨t, hreset, m⟩ := resetTap_moved hI hanswer
  refine ⟨_, exec_resetTlr_done h hreset, ?_⟩
  have hsince : eventsSince s (t.withResponse (some (.result .none))) = eventsSince s t := rfl
  rw [hsince, m.target (stateInv_opc hI), walk_append, walk_six_ones]
  exact m.tap.symm

/-! ### Room in the buffer -/

/-- With room a path is only queued: nothing is sent, and its bits stand behind the pending ones (R131). -/
theorem queuePath_room (bits : List Bool) {s : State} (hbuf : bufferOk s = true)
    (room : s.sess.tmsCount + bits.length ≤ s.params.tmsCapacity) :
    (queuePath bits s).trace = s.trace ∧ (queuePath bits s).pending = s.pending ++ bits := by
  induction bits generalizing s with
  | nil => exact ⟨rfl, (List.append_nil _).symm⟩
  | cons b bits ih =>
    rw [List.length_cons] at room
    have hlt : s.sess.tmsCount < s.params.tmsCapacity := by omega
    have hedge : queueEdge b s = (appendTms b s).setTap (delta s.sess.tap b) := by
      rw [queueEdge, pushTms, if_neg hlt.ne]
      rfl
    have hpending : ((appendTms b s).setTap (delta s.sess.tap b)).pending = s.pending ++ [b] :=
      pending_appendTms b hbuf hlt
    have hroom : (appendTms b s).sess.tmsCount + bits.length ≤ s.params.tmsCapacity := by
      rw [appendTms_tmsCount]
      omega
    obtain ⟨htrace, hqueue⟩ := ih (s := (appendTms b s).setTap (delta s.sess.tap b)) (appendTms_bufferOk b s hlt hbuf) hroom
    rw [queuePath, hedge, htrace, hqueue, hpending, List.append_assoc]
    exact ⟨rfl, rfl⟩

theorem queuePath_tx (bits : List Bool) (s : State) : (queuePath bits s).tx = s.tx := by
  obtain ⟨_, _, _, h⟩ := queuePath_writes bits s
  rw [h]

/-- The forced flush of a legal buffer under a full answer: the commands of the pending bits and one `Flush`, or nothing. -/
theorem openingEvents_full {s : State} {d : List Byte} (hbuf : bufferOk s = true) (h : s.tx.answer = .full d) :
    openingEvents s = if s.pending = [] then []
      else (tmsCommands s.params.opc s.pending).map Event.send ++ [.flush (.full [])] := by
  simp only [openingEvents, pending_nil_iff hbuf, flushAnswer_full (s := sendPending s) h]

/-- Settles O8: the path is queued whole, and one flush sends it with what was pending. -/
theorem moveToStateEvents : Obligations.MoveToStateEvents := by
  intro s target d hI h hanswer hroom
  have hbuf := stateInv_buffer hI
  have hext := queuePath_extends (path s.sess.tap target) s
  obtain ⟨htrace, hpending⟩ := queuePath_room (path s.sess.tap target) hbuf hroom
  refine ⟨_, exec_ready _ h, ?_⟩
  rw [concluded_trace, body, live_ready _ h, Run.final_map, moveTo, Run.final_map, flushTms_trace,
    openingEvents_full (hext.buffer (stateInv_capacity hI) hbuf) (by rw [queuePath_tx]; exact hanswer), htrace, hpending,
    hext.params]

/-! ### A closing flush that answers short -/

theorem flushTms_true_tmsCount (s : State) : (flushTms true s).final.sess.tmsCount = 0 := by
  unfold flushTms
  split
  · assumption
  · rw [if_pos rfl, Run.final_map]
    unfold txFlush raise
    split <;> rfl

/-- R27: only a refused run sets `S.refused`. -/
theorem concluded_refused_of_stops {x : Run State Result} (h : StopsAt False x) :
    (concluded x).sess.refused = x.final.sess.refused := by
  cases x with
  | done r u => rfl
  | ended w u =>
    cases w with
    | error e => rfl
    | refused r => exact h.elim
    | stuck => rfl

/-- The forced flush that ends a walk, told to write `n` bytes: `u` is `s` after `bits` went through the packer. -/
theorem flushTms_closesOnShort {s u : State} {bits : List Bool} {n : Nat} (hp : Packed bits s u)
    (hparams : u.params = s.params) (hfault : u.sess.fault = s.sess.fault) (ho : s.params.opc.wf = true)
    (hanswer : u.tx.answer = .short n) (hcount : u.sess.tmsCount ≠ 0) :
    ClosesOnShort (s.pending ++ bits) n s (concluded ((flushTms true u).map fun _ => Result.none)) := by
  obtain ⟨cs, hsize, htrace, hbits⟩ := Packed.trans (a := bits) hp hparams (sendPending_packed u)
  rw [pending_of_zero (s := sendPending u) rfl, List.append_nil, List.append_nil] at hbits
  have hsent : (cs.map (tmsCommand s.params.opc)).map Event.send =
      cs.map fun c => Event.send (tmsCommand s.params.opc c) := List.map_map
  rw [← hsent] at htrace
  have hasked : flushAsked (sendPending u) = (queued s.trace ++ (cs.map (tmsCommand s.params.opc)).flatten).length := by
    rw [flushAsked, htrace, queued_sends]
  have hflush : flushTms true u = (txFlush (sendPending u)).map fun _ => u.sess.tmsCount := by
    rw [flushTms, if_neg hcount, if_pos rfl]
  refine ⟨cs.map (tmsCommand s.params.opc), ?_, fun hshort => ?_, fun henough => ?_⟩
  · have hstream := streamTms_tms ho cs hsize (es := []) rfl
    rwa [List.append_nil, ← hsent, hbits] at hstream
  · rw [← hasked] at hshort ⊢
    obtain ⟨hans, hrun⟩ := txFlush_short (s := sendPending u) hanswer hshort
    rw [hflush, hrun]
    exact ⟨rfl, rfl, by rw [← htrace, ← hans]; rfl⟩
  · rw [← hasked] at henough
    obtain ⟨hans, hrun⟩ := txFlush_enough (s := sendPending u) hanswer henough
    rw [hflush, hrun]
    exact ⟨rfl, hfault, by rw [← htrace, ← hans]; rfl⟩

theorem Run.map_map {σ α β γ : Type} (f : α → β) (g : β → γ) (x : Run σ α) :
    (x.map f).map g = x.map (g ∘ f) := by
  cases x <;> rfl

/-- What the forced flush leaves of `S`, whatever the transport answers: the buffer is empty, `S.tap` and `S.refused` stay. -/
theorem concluded_flushTms (u : State) :
    (concluded ((flushTms true u).map fun _ => Result.none)).sess.tap = u.sess.tap ∧
      (concluded ((flushTms true u).map fun _ => Result.none)).sess.tmsCount = 0 ∧
      (concluded ((flushTms true u).map fun _ => Result.none)).sess.refused = u.sess.refused := by
  have hstop : StopsAt False ((flushTms true u).map fun _ => Result.none) := (flushTms_stops False true u).map _
  rw [concluded_tap, concluded_tmsCount, concluded_refused_of_stops hstop, Run.final_map]
  exact ⟨flushTms_tap true u, flushTms_true_tmsCount u, (flushTms_extends true u).refused⟩

theorem queuePath_count_of_bits {bits : List Bool} {s : State} (hbuf : bufferOk s = true) (h : s.pending ++ bits ≠ []) :
    (queuePath bits s).sess.tmsCount ≠ 0 := by
  by_cases hb : bits = []
  · subst hb
    rwa [List.append_nil, ne_eq, pending_nil_iff hbuf] at h
  · exact queuePath_count hb s

/-- Settles O9: `S.tap` followed the path before the closing flush, which sends the pending bits and the path. -/
theorem moveToStateShortFlush : Obligations.MoveToStateShortFlush := by
  intro s target n hI h hanswer hbits
  have hbuf := stateInv_buffer hI
  obtain ⟨buf, cnt, tr, hwrites⟩ := queuePath_writes (path s.sess.tap target) s
  have hcloses := flushTms_closesOnShort (queuePath_packed (path s.sess.tap target) (stateInv_capacity hI) hbuf)
    (by rw [hwrites]) (by rw [hwrites]) (stateInv_opc hI) (by rw [queuePath_tx]; exact hanswer)
    (queuePath_count_of_bits hbuf hbits)
  obtain ⟨htap, hcount, hrefused⟩ := concluded_flushTms (queuePath (path s.sess.tap target) s)
  refine ⟨_, exec_ready _ h, ?_⟩
  rw [body, live_ready _ h, moveTo, Run.map_map]
  refine ⟨hcloses, htap.trans ?_, hcount, hrefused.trans (queuePath_extends _ s).refused⟩
  rw [queuePath_tap, walk_path]

/-- The closing flush after bits pushed directly, `S.tap` then written. -/
theorem pushAll_closesOnShort {s : State} {bits : List Bool} {n : Nat} (tap : TapState) (hb : bits ≠ [])
    (hI : StateInv s = true) (hanswer : s.tx.answer = .short n) :
    ∃ t, concluded ((flushTms true ((pushAll bits s).setTap tap)).map fun _ => Result.none) = t ∧
      ClosesOnShort (s.pending ++ bits) n s t ∧ t.sess.tap = tap ∧ t.sess.tmsCount = 0 ∧
      t.sess.refused = s.sess.refused := by
  have hpacked : Packed bits s ((pushAll bits s).setTap tap) :=
    (pushAll_packed bits (stateInv_capacity hI) (stateInv_buffer hI)).congr rfl rfl rfl
  have hext := (pushAll_extends bits s).trans (setTap_extends tap _)
  obtain ⟨buf, cnt, tr, hwrites⟩ := pushAll_writes bits s
  obtain ⟨htap, hcount, hrefused⟩ := concluded_flushTms ((pushAll bits s).setTap tap)
  refine ⟨_, rfl, flushTms_closesOnShort hpacked hext.params ?_ (stateInv_opc hI) ?_ (pushAll_count hb s), htap, hcount,
    hrefused.trans hext.refused⟩
  · rw [hwrites]
    rfl
  · rw [hwrites]
    exact hanswer

/-- Settles O10: the six ones are never no bits, so the closing flush is always made. -/
theorem resetTlrReachesTestLogicReset : Obligations.ResetTlrReachesTestLogicReset := by
  refine ⟨fun s d hI h hanswer => ?_, fun s n hI h hanswer => ?_⟩
  · obtain ⟨t, hreset, m⟩ := resetTap_moved hI hanswer
    obtain ⟨es, htrace, hbits, -, hlast⟩ := m.events (stateInv_opc hI)
    exact ⟨_, es, exec_resetTlr_done h hreset, m.tap, m.tmsCount, m.fault, m.refused, rfl, htrace, hbits,
      hlast (by simp [Config.resetTmsCount])⟩
  · obtain ⟨t, hrun, hcloses⟩ := pushAll_closesOnShort (bits := List.replicate Config.resetTmsCount true)
      .testLogicReset (by simp [Config.resetTmsCount]) hI hanswer
    refine ⟨t, ?_, hcloses⟩
    rw [exec_ready _ h, body, live_ready _ h, resetTap, Run.map_map, ← hrun]
    rfl

/-! ### The frame -/

/-- The four requests work inside the core's frame, and none of them is refused on a live session. -/
theorem packerRequest_runs {i : Instr} {s : State} (h : Ready s = true)
    (hi : (∃ target, i = .moveToState target) ∨ i = .resetTlr ∨ (∃ b, i = .pushTms b) ∨ ∃ f, i = .flush f) :
    Extends s (body i s).final ∧ StopsAt False (body i s) := by
  obtain ⟨target, rfl⟩ | rfl | ⟨b, rfl⟩ | ⟨f, rfl⟩ := hi <;> rw [body, live_ready _ h]
  · rw [Run.final_map]
    exact ⟨moveTo_extends target s, (moveTo_stops False target s).map _⟩
  · rw [Run.final_map]
    exact ⟨resetTap_extends s, (resetTap_stops False s).map _⟩
  · exact ⟨pushTms_extends b s, trivial⟩
  · rw [Run.final_map]
    exact ⟨flushTms_extends f s, (flushTms_stops False f s).map _⟩

/-- Settles O20: the core's frame, and `S.tap` that only the walker writes. -/
theorem packerRequestsFrame : Obligations.PackerRequestsFrame := by
  intro i s t h hi hexec
  rw [exec_ready i h] at hexec
  obtain rfl := Host.Outcome.next.inj hexec
  obtain ⟨e, hstop⟩ := packerRequest_runs h hi
  have hmem := (concluded_mem (body i s)).trans e.mem
  refine ⟨fun name k => by rw [State.readByte, State.readByte, hmem], hmem, (concluded_params _).trans e.params,
    (concluded_port _).trans e.port, (concluded_warnings _).trans e.warnings, (concluded_life _).trans e.life,
    (concluded_quirk _).trans e.quirk, (concluded_refused_of_stops hstop).trans e.refused, ?_⟩
  rintro (⟨b, rfl⟩ | ⟨f, rfl⟩) <;> rw [concluded_tap, body, live_ready _ h]
  · exact pushTms_tap b s
  · rw [Run.final_map]
    exact flushTms_tap f s

end Sys2Proof.Machine
end

section
/-! Write-only SHIFT_IR and SHIFT_DR that end where the final bit leaves them: the move that follows has no bit to send, so
nothing flushes the data commands (40_tap_state_machine.md R104, 70_reset_and_hazards.md R267). -/

namespace Sys2Proof.Machine

open Sys2Proof

/-- R104: with nothing pending, a move to the current state that has no self-loop does nothing. -/
theorem moveTo_current {s : State} (hself : selfTms s.sess.tap = none) (hcount : s.sess.tmsCount = 0) :
    moveTo s.sess.tap s = .done () s := by
  have hpath : path s.sess.tap s.sess.tap = [] := by rw [path, if_pos rfl, hself, Option.toList_none]
  rw [moveTo, hpath, queuePath, flushTms, if_pos hcount, Run.map_done]

/-- R28: a `Flush` empties the queue, so a walk of at least one bit leaves nothing in it. -/
theorem Moved.queued_nil {bits : List Bool} {tap : TapState} {s t : State} (m : Moved bits tap s t) (h : bits ≠ []) :
    queued t.trace = [] := by
  obtain ⟨cs, -, -, htrace⟩ := m.trace
  rw [htrace, if_neg h, ← List.append_assoc, queued, List.foldl_concat]
  rfl

/-- R104: a move to a shift state has a bit from every state, the shift state itself too. -/
theorem path_shift_ne_nil (current : TapState) {target : TapState} (h : target = .shiftDr ∨ target = .shiftIr) :
    path current target ≠ [] := by
  intro hnil
  have hlast := path_getLastD_shift current h true
  rw [hnil] at hlast
  cases hlast

/-- With the quirk flag clear a write-only shift records its commands alone (R158). -/
theorem flatMap_writeEvents_false (plan : List (List Byte × Nat)) :
    plan.flatMap (writeEvents false) = (plan.map Prod.fst).map Event.send := by
  rw [List.map_map, List.map_eq_flatMap]
  rfl

/-- A write-only shift that leaves the shift state, with nothing pending and the quirk flag clear: the query, the plan's
commands, and the edge of the final bit. -/
theorem shiftVectors_queues {input : Option VecArg} {len : Nat} {s : State} (hC : Cooperative s.tx = true)
    (h : ShiftAdmitted s input none len true) (hcount : s.sess.tmsCount = 0) (hquirk : s.sess.quirk = false) :
    ∃ t, shiftVectors input none len true s = .done () t ∧ t.sess.tap = delta s.sess.tap true ∧ t.sess.tmsCount = 0 ∧
      queued t.trace = queued s.trace ++
        ((shiftPlan s.params.opc (s.input input) false len true (bufSizeNow s - 3)).map Prod.fst).flatten := by
  obtain ⟨-, hmin, -⟩ := id h
  have hflush : flushTms true (bufSizeAsked s) = .done 0 (bufSizeAsked s) := if_pos hcount
  obtain ⟨t, hphases, issued⟩ := shiftPhases_write (s := bufSizeAsked s) (s.input input) len true
    (xfer := bufSizeNow s - 3) (by omega) hC
  refine ⟨t.setTap (delta s.sess.tap true), ?_, rfl, ?_, ?_⟩
  · rw [shiftVectors, shiftValues_admitted h, hflush]
    exact congrArg (Run.mapState _) hphases
  · rw [issued.same]
    exact hcount
  · rw [State.setTap_trace, issued.same, bufSizeAsked_sess, hquirk, flatMap_writeEvents_false, queued_sends]
    simp [queued, queueAfter]

/-- The three operations of a write-only SHIFT_IR or SHIFT_DR whose end state is the one the final bit leads to: the first
flushes the queue and the last does nothing (R161, R163). -/
theorem shiftRegister_queues {shiftState endState : TapState} {input : Option VecArg} {len : Nat} {s : State}
    (hI : StateInv s = true) (hC : Cooperative s.tx = true) (hquirk : s.sess.quirk = false)
    (hstate : shiftState = .shiftDr ∨ shiftState = .shiftIr) (hend : delta shiftState true = endState)
    (hself : selfTms endState = none) (h : ShiftAdmitted (s.setTap .shiftDr) input none len true) :
    ∃ t, shiftRegister shiftState input none len endState s = .done () t ∧ queued t.trace =
      ((shiftPlan s.params.opc (s.input input) false len true (bufSizeNow s - 3)).map Prod.fst).flatten := by
  obtain ⟨⟨hlen, -, hvectors⟩, hsize⟩ := id h
  have hshift : ShiftAdmitted (s.setTap shiftState) input none len true := ⟨⟨hlen, hstate, hvectors⟩, hsize⟩
  obtain ⟨d, hd⟩ := cooperative_answer hC
  obtain ⟨u, hmove, m⟩ := moveTo_moved shiftState hI hd
  have hinput : u.input input = s.input input := by simp only [State.input, m.mem]
  obtain ⟨v, hv, htap, hcount, hqueue⟩ := shiftVectors_queues (m.cooperative hC)
    (hshift.congr m.tap m.mem m.bufSizeNow) m.tmsCount (m.quirk.trans hquirk)
  obtain rfl : v.sess.tap = endState := by rw [htap, m.tap, hend]
  have hbits : s.pending ++ path s.sess.tap shiftState ≠ [] :=
    List.append_ne_nil_of_right_ne_nil _ (path_shift_ne_nil _ hstate)
  refine ⟨v, ?_, ?_⟩
  · rw [shiftRegister_checked h.1, hmove, Run.bind_done, hv, Run.bind_done, moveTo_current hself hcount]
  · rw [hqueue, m.queued_nil hbits, List.nil_append, m.params, hinput, m.bufSizeNow]

/-- R156: a shift that leaves the shift state has its final-bit command to send. -/
theorem shiftPlan_last_bytes_ne_nil {xfer : Nat} (hx : 1 ≤ xfer) (o : Opc) (inp : Option (List Byte)) (read : Bool)
    (len : Nat) : ((shiftPlan o inp read len true xfer).map Prod.fst).flatten ≠ [] := by
  rw [shiftPlan_eq hx, List.map_append, List.flatten_append]
  refine List.append_ne_nil_of_right_ne_nil _ ?_
  simp [finalCmds, finalCommand]

/-- Settles O37: EXIT1_IR and EXIT1_DR are where the final bit leaves the shift, and neither has a self-loop. -/
theorem shiftIrToExit1LeavesCommandsQueued : Obligations.ShiftIrToExit1LeavesCommandsQueued := by
  intro i s input len hi hI h hC hquirk hadmitted
  obtain ⟨t, hbody, hqueue⟩ : ∃ t, body i s = .done Result.none t ∧ queued t.trace =
      ((shiftPlan s.params.opc (s.input input) false len true (bufSizeNow s - 3)).map Prod.fst).flatten := by
    rcases hi with rfl | rfl
    · obtain ⟨t, hrun, hqueue⟩ := shiftRegister_queues hI hC hquirk (.inr rfl) (endState := .exit1Ir) rfl rfl hadmitted
      exact ⟨t, by rw [body, live_ready _ h, hrun, Run.map_done], hqueue⟩
    · obtain ⟨t, hrun, hqueue⟩ := shiftRegister_queues hI hC hquirk (.inl rfl) (endState := .exit1Dr) rfl rfl hadmitted
      exact ⟨t, by rw [body, live_ready _ h, hrun, Run.map_done], hqueue⟩
  have hmin : 4 ≤ bufSizeNow s := hadmitted.2.1
  refine ⟨t.withResponse (some (.result .none)), by rw [exec_ready _ h, hbody]; rfl, rfl, hqueue, ?_⟩
  have hne := shiftPlan_last_bytes_ne_nil (xfer := bufSizeNow s - 3) (by omega) s.params.opc (s.input input) false len
  rwa [← hqueue] at hne

end Sys2Proof.Machine
end

section
/-! The packer's own requests and the chunks of a flush (41_tms_packer.md R131 to R134), and the buffer that the requests
above the packer leave empty (R135). -/

namespace Sys2Proof.Machine

open Sys2Proof

/-! ### The chunks of a flush -/

theorem chunks_nil (fuel : Nat) : chunks fuel [] = [] := by
  cases fuel <;> rfl

/-- R134: a chunk that another one follows is cut from more than six bits. -/
theorem chunks_dropLast_length (fuel : Nat) (bits : List Bool) :
    ∀ c ∈ (chunks fuel bits).dropLast, c.length = 6 := by
  induction fuel generalizing bits with
  | zero => simp [chunks]
  | succ fuel ih =>
    by_cases hb : bits = []
    · simp [hb, chunks_nil]
    · rw [chunks_cons fuel hb]
      intro c hc
      have hrest : chunks fuel (bits.drop 6) ≠ [] := by
        intro hnil
        simp [hnil] at hc
      rw [List.dropLast_cons_of_ne_nil hrest] at hc
      rcases List.mem_cons.1 hc with rfl | hc
      · have hdrop : bits.drop 6 ≠ [] := by
          intro hnil
          exact hrest (by rw [hnil, chunks_nil])
        have hlong : 6 < bits.length := by simpa using hdrop
        rw [List.length_take, Nat.min_eq_left hlong.le]
      · exact ih _ c hc

theorem chunks_length (fuel : Nat) (bits : List Bool) (h : bits.length ≤ fuel) :
    (chunks fuel bits).length = (bits.length + 5) / 6 := by
  induction fuel generalizing bits with
  | zero => simp [List.length_eq_zero_iff.1 (Nat.le_zero.1 h), chunks]
  | succ fuel ih =>
    by_cases hb : bits = []
    · simp [hb, chunks_nil]
    · have hpos : 0 < bits.length := List.length_pos_iff.2 hb
      have hdrop : (bits.drop 6).length = bits.length - 6 := List.length_drop
      rw [chunks_cons fuel hb, List.length_cons, ih _ (by omega), hdrop]
      omega

/-- Settles O18: the bits cut six at a time. -/
theorem flushChunksAreSixBitsButTheLast : Obligations.FlushChunksAreSixBitsButTheLast := fun bits =>
  ⟨chunks_flatten _ bits le_rfl, chunks_small _ bits, chunks_dropLast_length _ bits, chunks_length _ bits le_rfl⟩

/-! ### PUSH_TMS -/

/-- Settles O13: with room the auto-flush is not run. -/
theorem pushTmsAppendsOneBit : Obligations.PushTmsAppendsOneBit := by
  intro s b hI h hroom
  have hpush : pushTms b s = appendTms b s := if_neg hroom.ne
  refine ⟨_, exec_ready _ h, ?_⟩
  rw [body, live_ready _ h, concluded_done, hpush]
  exact ⟨rfl, pending_appendTms b (stateInv_buffer hI) hroom⟩

/-- R132: after the auto-flush the buffer holds the bit that is pushed and no other. -/
theorem pending_appendTms_autoFlush {s : State} (b : Bool) (hI : StateInv s = true) :
    (appendTms b (autoFlush s)).pending = [b] := by
  have hext := autoFlush_extends s
  have hcapacity := stateInv_capacity hI
  have hroom : (autoFlush s).sess.tmsCount < (autoFlush s).params.tmsCapacity := by
    rw [autoFlush_tmsCount, hext.params]
    exact hcapacity
  rw [pending_appendTms b (hext.buffer hcapacity (stateInv_buffer hI)) hroom, pending_of_zero (autoFlush_tmsCount s),
    List.nil_append]

/-- Settles O14: the auto-flush sends what was pending and leaves room for the bit. -/
theorem pushTmsAutoFlushesAFullBuffer : Obligations.PushTmsAutoFlushesAFullBuffer := by
  intro s b hI h hfull
  have hpush : pushTms b s = appendTms b (autoFlush s) := if_pos hfull
  refine ⟨_, exec_ready _ h, ?_⟩
  rw [body, live_ready _ h, concluded_done, hpush]
  refine ⟨pending_appendTms_autoFlush b hI, ?_, autoFlush_tap s, autoFlush_trace s, rfl⟩
  rw [appendTms_tmsCount, autoFlush_tmsCount]

/-! ### FLUSH -/

/-- FLUSH completes where `flush(force)` does, with the number of bits sent (R133). -/
theorem exec_flush_done {force : Bool} {n : Nat} {s t : State} (h : Ready s = true)
    (hflush : flushTms force s = .done n t) :
    exec (.flush force) s = .next (t.withResponse (some (.result (.nat n)))) := by
  rw [exec_ready _ h, body, live_ready _ h, hflush]
  rfl

/-- Settles O15: the flush sees the count 0 first. -/
theorem flushOfEmptyBufferAnswersZero : Obligations.FlushOfEmptyBufferAnswersZero := by
  intro s force h hcount
  exact exec_flush_done h (if_pos hcount)

/-- The state after `flush(force)` of pending bits where nothing goes wrong (R133). -/
def flushedPending (force : Bool) (s : State) : State :=
  if force then flushed (sendPending s) else sendPending s

/-- R133: an unforced flush asks the transport nothing, and a forced one completes under a full answer. -/
theorem flushTms_pending {force : Bool} {s : State} (hcount : s.sess.tmsCount ≠ 0)
    (hfull : force = true → ∃ d, s.tx.answer = .full d) :
    flushTms force s = .done s.sess.tmsCount (flushedPending force s) := by
  cases force with
  | false => exact if_neg hcount
  | true =>
    obtain ⟨d, hd⟩ := hfull rfl
    rw [flushTms_full hd, if_neg hcount]
    rfl

/-- R133: emptying the buffer is all that a flush does to `S`. -/
theorem flushedPending_sess (force : Bool) (s : State) : (flushedPending force s).sess = s.clearTms.sess := by
  cases force <;> rfl

theorem flushedPending_trace {force : Bool} {s : State} (hfull : force = true → ∃ d, s.tx.answer = .full d) :
    (flushedPending force s).trace = s.trace ++ ((tmsCommands s.params.opc s.pending).map Event.send
      ++ if force then [.flush (.full [])] else []) := by
  cases force with
  | false => exact congrArg _ (List.append_nil _).symm
  | true =>
    obtain ⟨d, hd⟩ := hfull rfl
    rw [flushedPending, if_pos rfl, flushed_trace, flushAnswer_full (s := sendPending s) hd, sendPending_trace,
      List.append_assoc]
    rfl

/-- R133, R134: the commands that carry these bits clock these bits, whatever follows that sends nothing. -/
theorem streamTms_tmsCommands {o : Opc} (ho : o.wf = true) (bits : List Bool) {es : List Event}
    (he : streamOf es = []) : streamTms o ((tmsCommands o bits).map Event.send ++ es) = bits := by
  have hsent : (tmsCommands o bits).map Event.send =
      (chunks bits.length bits).map fun c => Event.send (tmsCommand o c) := List.map_map
  rw [hsent, streamTms_tms ho _ (chunks_small _ _) he, chunks_flatten _ _ le_rfl]

/-- Settles O16: the pending bits go out as commands, and only the forced flush adds an event of its own. -/
theorem flushSendsEveryPendingBit : Obligations.FlushSendsEveryPendingBit := by
  intro s force hI h hcount hfull
  have htrace := flushedPending_trace hfull
  have hsess := flushedPending_sess force s
  have hquiet : streamOf (if force then [.flush (.full [])] else []) = [] := by
    cases force <;> rfl
  refine ⟨_, exec_flush_done h (flushTms_pending hcount hfull), htrace.trans (List.append_assoc _ _ _).symm, ?_,
    congrArg Session.tmsCount hsess, congrArg Session.tmsBuf hsess, (congrArg Session.tap hsess :),
    (congrArg Session.fault hsess :), rfl⟩
  exact (congrArg _ (eventsSince_of_trace htrace)).trans (streamTms_tmsCommands (stateInv_opc hI) _ hquiet)

/-! ### The buffer at the end of a request -/

/-- Where the run completes, its working state is as `P` says. -/
def Run.CompletesIn {σ α : Type} (P : σ → Prop) : Run σ α → Prop
  | .done _ s => P s
  | .ended _ _ => True

theorem Run.completesIn_of_final {σ α : Type} {P : σ → Prop} {x : Run σ α} (h : P x.final) : x.CompletesIn P := by
  cases x with
  | done a s => exact h
  | ended w s => trivial

/-- The last part of a sequence decides what it completes in. -/
theorem Run.CompletesIn.bind {σ α β : Type} {P : σ → Prop} {x : Run σ α} {f : α → σ → Run σ β}
    (h : ∀ a s, (f a s).CompletesIn P) : (x.bind f).CompletesIn P := by
  cases x with
  | done a s => exact h a s
  | ended w s => trivial

theorem Run.CompletesIn.map {σ α β : Type} {P : σ → Prop} {x : Run σ α} (f : α → β) (h : x.CompletesIn P) :
    (x.map f).CompletesIn P := by
  cases x with
  | done a s => exact h
  | ended w s => trivial

theorem Run.CompletesIn.mapState {σ τ α : Type} {P : σ → Prop} {Q : τ → Prop} {g : σ → τ} {x : Run σ α}
    (hx : x.CompletesIn P) (h : ∀ s, P s → Q (g s)) : (x.mapState g).CompletesIn Q := by
  cases x with
  | done a s => exact h s hx
  | ended w s => trivial

theorem Run.CompletesIn.live {α : Type} {P : State → Prop} {b : State → Run State α} {s : State}
    (h : (b s).CompletesIn P) : (live b s).CompletesIn P := by
  unfold Machine.live
  split
  · exact h
  · trivial

/-- What the first part of a sequence ends in and the second part keeps, the sequence ends in. -/
theorem Run.final_bind_of {σ α β : Type} {P : σ → Prop} {x : Run σ α} {f : α → σ → Run σ β} (hx : P x.final)
    (hf : ∀ a s, P s → P (f a s).final) : P (x.bind f).final := by
  cases x with
  | done a s => exact hf a s hx
  | ended w s => exact hx

/-- No TMS bit is pending. -/
def TmsEmpty (s : State) : Prop := s.sess.tmsCount = 0

/-- The same of a shift at work. -/
def Work.TmsEmpty (w : Work) : Prop := Machine.TmsEmpty w.s

theorem txFlush_tmsEmpty {s : State} (h : TmsEmpty s) : TmsEmpty (txFlush s).final := by
  unfold txFlush
  split <;> exact h

theorem txRead_tmsEmpty (n : Nat) {s : State} (h : TmsEmpty s) : TmsEmpty (txRead n s).final := by
  rcases txRead_final n s with hread | hread <;> rw [hread] <;> exact h

theorem txDrain_tmsEmpty (n : Nat) {s : State} (h : TmsEmpty s) : TmsEmpty (txDrain n s).final := by
  rcases txDrain_final n s with hdrain | hdrain <;> rw [hdrain] <;> exact h

/-- A command of the shifter does not go through the packer. -/
theorem issue_tmsEmpty (cmd : List Byte) (n : Nat) (read : Bool) {s : State} (h : TmsEmpty s) :
    TmsEmpty (issue cmd n read s).final := by
  have hflush : TmsEmpty (txFlush (txSend cmd s)).final := txFlush_tmsEmpty h
  unfold issue
  split
  · refine Run.final_bind_of hflush fun _ u hu => ?_
    rw [Run.final_map]
    exact txRead_tmsEmpty n hu
  · split
    · refine Run.final_bind_of hflush fun _ u hu => ?_
      rw [Run.final_map]
      exact txDrain_tmsEmpty n hu
    · exact h

theorem lift_issue_tmsEmpty (cmd : List Byte) (n : Nat) (read : Bool) {w : Work} (h : w.TmsEmpty) :
    (w.lift (issue cmd n read w.s)).final.TmsEmpty := by
  rw [Work.TmsEmpty, lift_final]
  exact issue_tmsEmpty cmd n read h

theorem capture_tmsEmpty {w : Work} (f : List Byte → List Byte → List Byte) (r : Option (List Byte))
    (h : w.TmsEmpty) : (w.capture f r).TmsEmpty := by
  rwa [Work.TmsEmpty, Work.capture_s]

theorem bytePhase_tmsEmpty (inp : Option (List Byte)) (xfer fuel k rem : Nat) {w : Work} (h : w.TmsEmpty) :
    (bytePhase inp xfer fuel k rem w).final.TmsEmpty := by
  induction fuel generalizing k rem w with
  | zero => exact h
  | succ fuel ih =>
    unfold bytePhase
    split
    · exact h
    · exact Run.final_bind_of (lift_issue_tmsEmpty _ _ _ h) fun r u hu => ih _ _ (capture_tmsEmpty _ r hu)

theorem residualPhase_tmsEmpty (inp : Option (List Byte)) (nb_byte nb_bit : Nat) {w : Work} (h : w.TmsEmpty) :
    (residualPhase inp nb_byte nb_bit w).final.TmsEmpty := by
  unfold residualPhase
  split
  · exact h
  · exact Run.final_bind_of (lift_issue_tmsEmpty _ _ _ h) fun r u hu => capture_tmsEmpty _ r hu

theorem finalPhase_tmsEmpty (inp : Option (List Byte)) (nb_byte nb_bit : Nat) (isLast : Bool) {w : Work}
    (h : w.TmsEmpty) : (finalPhase inp nb_byte nb_bit isLast w).final.TmsEmpty := by
  unfold finalPhase
  split
  · exact Run.final_bind_of (lift_issue_tmsEmpty _ _ _ h) fun r u hu => capture_tmsEmpty _ r hu
  · exact h

theorem shiftPhases_tmsEmpty (inp : Option (List Byte)) (len : Nat) (isLast : Bool) (xfer : Nat) {w : Work}
    (h : w.TmsEmpty) : (shiftPhases inp len isLast xfer w).final.TmsEmpty :=
  Run.final_bind_of (bytePhase_tmsEmpty _ _ _ _ _ h) fun _ _ hu =>
    Run.final_bind_of (residualPhase_tmsEmpty _ _ _ hu) fun _ _ hv => finalPhase_tmsEmpty _ _ _ _ hv

/-- R160: a shift that is not refused starts with a flush, after which no bit is queued. -/
theorem shiftValues_empties (inp out : Option (List Byte)) (al : Bool) (len : Nat) (isLast : Bool) (s : State) :
    (shiftValues inp out al len isLast s).CompletesIn Work.TmsEmpty := by
  unfold shiftValues
  split
  · trivial
  · split
    · refine Run.completesIn_of_final (Run.final_bind_of ?_ fun _ _ hu => shiftPhases_tmsEmpty _ _ _ _ hu)
      rw [Work.TmsEmpty, lift_final]
      exact flushTms_true_tmsCount (bufSizeAsked s)
    · trivial

theorem shiftVectors_empties (input : Option VecArg) (output : Option Nat) (len : Nat) (isLast : Bool) (s : State) :
    (shiftVectors input output len isLast s).CompletesIn TmsEmpty :=
  (shiftValues_empties _ _ _ _ _ s).mapState fun w hw => by rwa [TmsEmpty, putOutput_sess]

theorem flushTms_true_empties (s : State) : (flushTms true s).CompletesIn TmsEmpty :=
  Run.completesIn_of_final (flushTms_true_tmsCount s)

theorem moveTo_empties (t : TapState) (s : State) : (moveTo t s).CompletesIn TmsEmpty :=
  (flushTms_true_empties _).map _

theorem resetTap_empties (s : State) : (resetTap s).CompletesIn TmsEmpty :=
  (flushTms_true_empties _).map _

/-- R161, R163: the expansion ends with a move. -/
theorem shiftRegister_empties (x : TapState) (input : Option VecArg) (output : Option Nat) (len : Nat) (e : TapState)
    (s : State) : (shiftRegister x input output len e s).CompletesIn TmsEmpty := by
  unfold shiftRegister
  split
  · trivial
  · split
    · trivial
    · exact .bind fun _ _ => .bind fun _ u => moveTo_empties e u

/-- R194: the enumerator ends with a reset of the TAP. -/
theorem detect_empties (m : Nat) (s : State) : (detect m s).CompletesIn TmsEmpty :=
  .bind fun _ _ => .bind fun _ _ => .bind fun _ u => (resetTap_empties u).map _

/-- Only a run that completed is answered with a result. -/
theorem eq_done_of_concluded {x : Run State Result} {r : Result} (h : (concluded x).response = some (.result r)) :
    ∃ u, x = .done r u ∧ (concluded x).sess = u.sess := by
  cases x with
  | done r' u =>
    obtain rfl : r' = r := by simpa using h
    exact ⟨u, rfl, rfl⟩
  | ended w u =>
    cases w <;> simp at h

/-- A result that exec answers is the one its body completed with. -/
theorem exec_result {i : Instr} {s t : State} {r : Result} (h : exec i s = .next t)
    (hr : t.response = some (.result r)) : ∃ u, body i s = .done r u ∧ t.sess = u.sess := by
  rw [exec_eq] at h
  injection h with h
  subst h
  split at hr
  · simp [refuse] at hr
  · next hbusy =>
    rw [if_neg hbusy]
    exact eq_done_of_concluded hr

/-- Settles O59: each of the seven completes in a move, a reset or a shift, which leave no bit pending. -/
theorem compositeRequestsEndWithAnEmptyBuffer : Obligations.CompositeRequestsEndWithAnEmptyBuffer := by
  intro i s t r hi hexec hresult
  obtain ⟨u, hbody, hsess⟩ := exec_result hexec hresult
  have hempty : (body i s).CompletesIn TmsEmpty := by
    obtain ⟨x, rfl⟩ | rfl | ⟨a, b, n, l, rfl⟩ | ⟨a, b, n, e, rfl⟩ | ⟨a, n, e, rfl⟩ | ⟨a, b, n, e, rfl⟩ | ⟨m, rfl⟩ := hi
      <;> dsimp only [body]
    · exact .live ((moveTo_empties x s).map _)
    · exact .live ((resetTap_empties s).map _)
    · exact .live ((shiftVectors_empties a b n l s).map _)
    · exact .live ((shiftRegister_empties _ a b n e s).map _)
    · refine .live ?_
      split
      · trivial
      · exact (shiftRegister_empties _ _ _ n e s).map _
    · exact .live ((shiftRegister_empties _ a b n e s).map _)
    · exact .live ((detect_empties m s).map _)
  rw [hbody] at hempty
  rw [hsess]
  exact hempty

end Sys2Proof.Machine
end

section
/-! A shift while every answer is full: it completes, with and without an output (42_data_shifter.md R150 to R158, R160), and so
do SHIFT_IR and SHIFT_DR from every tracked state (R161, R163). -/

namespace Sys2Proof.Machine

open Sys2Proof

/-! ### The phases -/

/-- R150, check 4: a shift that passes the checks has an output that is long enough. -/
theorem shiftCheck_none_output {inp out : Option (List Byte)} {al : Bool} {len : Nat} {isLast : Bool} {s : State}
    (h : shiftCheck inp out al len isLast s = none) : tooShort out len = false := by
  rw [← Bool.not_eq_true]
  intro hshort
  unfold shiftCheck vectorCheck at h
  rw [if_pos (Or.inr hshort)] at h
  split at h
  · cases h
  · split at h <;> cases h

/-- R151: the whole bytes of a shift are bytes of any vector that is long enough for it. -/
theorem nbByte_le_vecBytes (len : Nat) (isLast : Bool) : nbByte len isLast ≤ vecBytes len := by
  unfold nbByte effLength vecBytes
  split <;> omega

/-- The whole bytes fit an output that passes check 4 of R150. -/
theorem nbByte_le_length {v : List Byte} {len : Nat} (h : tooShort (some v) len = false) (isLast : Bool) :
    nbByte len isLast ≤ v.length := by
  have hv : vecBytes len ≤ v.length := by simpa [tooShort] using h
  exact (nbByte_le_vecBytes len isLast).trans hv

/-- Reads answered in full leave the transport's other answers as full as they were. -/
theorem Serves.cooperative {t u : Transport} {answers : List (List Byte)} (h : Serves t answers u)
    (hC : Cooperative t = true) : Cooperative u = true := by
  induction answers generalizing t with
  | nil =>
    cases h
    exact hC
  | cons bs answers ih =>
    obtain ⟨d, e, -, -, -, hrest⟩ := h
    exact ih hrest ((cooperative_congr rfl rfl).trans (cooperative_answered (cooperative_answered hC)))

/-- R157: what the final bit does to the record; a shift that is not the last leaves it alone. -/
def leaveIfLast (isLast : Bool) (s : State) : State := if isLast then leaveShift s else s

/-- The three phases complete: beside the edge of the final bit they only record events and use up answers. -/
theorem shiftPhases_completes (inp : Option (List Byte)) {out : Option (List Byte)} {len : Nat} (isLast : Bool) {xfer : Nat}
    (hx : 1 ≤ xfer) {u : State} (hC : Cooperative u.tx = true) (hout : tooShort out len = false) :
    ∃ es tx out', shiftPhases inp len isLast xfer { s := u, out := out }
        = .done () { s := (leaveIfLast isLast u).read es tx, out := out' } ∧
      Cooperative tx = true ∧ tx.bufSizes = u.tx.bufSizes ∧ tx.bufSize = u.tx.bufSize := by
  cases out with
  | none =>
    obtain ⟨t, hphases, issued⟩ := shiftPhases_write inp len isLast hx hC
    refine ⟨(shiftPlan u.params.opc inp false len isLast xfer).flatMap (writeEvents u.sess.quirk), t.tx, none,
      hphases.trans ?_, issued.cooperative, issued.bufSizes, issued.bufSize⟩
    cases isLast
    · exact congrArg (fun s => Run.done () (Work.mk s none)) issued.same
    · exact congrArg (fun s => Run.done () (Work.mk (s.setTap (delta u.sess.tap true)) none)) issued.same
  | some v =>
    obtain ⟨cap, r, f, z, hcap, hserves⟩ := serves_shift hC
      ((cut xfer (nbByte len isLast) 0 (nbByte len isLast)).map Prod.snd) len isLast
    obtain ⟨hsizes, hsize, -, -⟩ := hserves.sizes
    exact ⟨_, z, _, shiftPhases_read inp len isLast hx hserves hcap (nbByte_le_length hout isLast),
      hserves.cooperative hC, hsizes, hsize⟩

/-! ### The whole shift -/

/-- From `s` to `t` a shift completed while every answer was full: the tracked state follows R157, the fault mark stays, and
of the buffer sizes to come one is used up. -/
structure Shifted (isLast : Bool) (s t : State) : Prop where
  tap : t.sess.tap = if isLast then delta s.sess.tap true else s.sess.tap
  tmsCount : t.sess.tmsCount = 0
  fault : t.sess.fault = s.sess.fault
  cooperative : Cooperative t.tx = true
  bufSizes : t.tx.bufSizes = s.tx.bufSizes.tail
  bufSize : t.tx.bufSize = s.tx.bufSize

/-- The opening flush leaves the buffer sizes to come alone. -/
theorem flushTms_sizes {force : Bool} {s u : State} {n : Nat} (h : flushTms force s = .done n u) :
    u.tx.bufSizes = s.tx.bufSizes ∧ u.tx.bufSize = s.tx.bufSize := by
  unfold flushTms txFlush at h
  split at h
  · cases h
    exact ⟨rfl, rfl⟩
  · split at h
    · split at h <;> cases h
      exact ⟨rfl, rfl⟩
    · cases h
      exact ⟨rfl, rfl⟩

/-- A shift that passes its checks completes (R160). -/
theorem shiftValues_completes {inp out : Option (List Byte)} {al : Bool} {len : Nat} {isLast : Bool} {s : State}
    (hC : Cooperative s.tx = true) (hcheck : shiftCheck inp out al len isLast s = none)
    (hsize : bufSizeOk (bufSizeNow s) = true) :
    ∃ w, shiftValues inp out al len isLast s = .done () w ∧ Shifted isLast s w.s := by
  have hmin := ((bufSizeOk_iff _).1 hsize).1
  obtain ⟨u, hflush, o⟩ := flushTms_opened (s := bufSizeAsked s) hC
  obtain ⟨hsizes, hdefault⟩ := flushTms_sizes hflush
  obtain ⟨es, tx, out', hphases, hCtx, htxSizes, htxSize⟩ := shiftPhases_completes inp isLast
    (xfer := bufSizeNow s - 3) (by omega) o.cooperative (shiftCheck_none_output hcheck)
  refine ⟨{ s := (leaveIfLast isLast u).read es tx, out := out' }, ?_, ?_, ?_, ?_, hCtx, htxSizes.trans hsizes,
    htxSize.trans hdefault⟩
  · rw [shiftValues, hcheck]
    dsimp only
    rw [if_pos hsize, hflush]
    exact hphases
  · cases isLast
    · exact o.tap
    · exact congrArg (delta · true) o.tap
  · cases isLast <;> exact o.tmsCount
  · cases isLast <;> exact o.fault

/-- An admitted shift completes (R160). -/
theorem shiftVectors_completes {input : Option VecArg} {output : Option Nat} {len : Nat} {isLast : Bool} {s : State}
    (hC : Cooperative s.tx = true) (h : ShiftAdmitted s input output len isLast) :
    ∃ t, shiftVectors input output len isLast s = .done () t ∧ Shifted isLast s t := by
  obtain ⟨hcheck, hsize⟩ := (shiftAdmitted_iff s input output len isLast).1 h
  obtain ⟨w, hw, c⟩ := shiftValues_completes hC hcheck hsize
  refine ⟨w.s.putOutput output w.out, by rw [shiftVectors, hw]; rfl, ?_⟩
  exact ⟨by simpa using c.tap, by simpa using c.tmsCount, by simpa using c.fault, by simpa using c.cooperative,
    by simpa using c.bufSizes, by simpa using c.bufSize⟩

/-- SHIFT is answered as its vectors' shift ends. -/
theorem exec_shift (input : Option VecArg) (output : Option Nat) (len : Nat) (isLast : Bool) {s : State}
    (h : Ready s = true) : exec (.shift input output len isLast) s =
      .next (concluded ((shiftVectors input output len isLast s).map fun _ => Result.none)) := by
  rw [exec_ready _ h, body, live_ready _ h]

/-- Settles O23: the phases complete, and the final bit's edge is the only write to `S.tap`. -/
theorem shiftCompletes : Obligations.ShiftCompletes := by
  intro s input output len isLast hr hC hadmitted
  obtain ⟨t, ht, c⟩ := shiftVectors_completes hC hadmitted
  have hrefused := (shiftVectors_progress input output len isLast s).refused
  rw [ht] at hrefused
  refine ⟨t.withResponse (some (.result .none)), by rw [exec_shift _ _ _ _ hr, ht]; rfl, rfl, ?_, c.tmsCount, c.fault,
    hrefused⟩
  refine c.tap.trans ?_
  rcases hadmitted.1.2.1 with hdr | hir
  · simp [hdr, delta]
  · simp [hir, delta]

/-- Settles O25: after the opening flush the phases issue the plan, and with no output nothing is written back. -/
theorem shiftWithoutOutputTrace : Obligations.ShiftWithoutOutputTrace := by
  intro s input len isLast hr hC hadmitted
  have hmin : 4 ≤ bufSizeNow s := hadmitted.2.1
  obtain ⟨u, hflush, o⟩ := flushTms_opened (s := bufSizeAsked s) hC
  obtain ⟨t, hphases, issued⟩ := shiftPhases_write (s.input input) len isLast (xfer := bufSizeNow s - 3) (by omega)
    o.cooperative
  have hmem := (shiftValues_extends (s.input input) (s.output none) (sameStorage input none) len isLast s).mem
  refine ⟨_, exec_shift _ _ _ _ hr, ?_, ?_⟩
  · rw [exec_shift_trace hr (exec_shift _ _ _ _ hr), shiftValues_admitted hadmitted, hflush]
    have htrace : (if isLast then t.setTap (delta u.sess.tap true) else t).trace = t.trace := by
      cases isLast <;> rfl
    have hfinal := congrArg (fun x => x.final.s.trace) hphases
    refine hfinal.trans (htrace.trans ?_)
    rw [issued.same, o.trace, o.params, o.quirk, bufSizeAsked_trace]
    rfl
  · rw [concluded_mem, Run.final_map, shiftVectors, Run.final_mapState, putOutput_none]
    exact hmem

/-! ### SHIFT_IR and SHIFT_DR -/

/-- The expansion of SHIFT_IR and SHIFT_DR completes: each of its three operations does (R161, R163). -/
theorem shiftRegister_completes {shiftState endState : TapState} {input : Option VecArg} {output : Option Nat} {len : Nat}
    {s : State} (hI : StateInv s = true) (hC : Cooperative s.tx = true)
    (hstate : shiftState = .shiftDr ∨ shiftState = .shiftIr)
    (h : ShiftAdmitted (s.setTap .shiftDr) input output len true) :
    ∃ t, shiftRegister shiftState input output len endState s = .done () t ∧ t.sess.tap = endState ∧
      t.sess.tmsCount = 0 ∧ t.sess.fault = s.sess.fault := by
  obtain ⟨⟨hlen, -, hvectors⟩, hsize⟩ := id h
  have hshift : ShiftAdmitted (s.setTap shiftState) input output len true := ⟨⟨hlen, hstate, hvectors⟩, hsize⟩
  obtain ⟨d, hd⟩ := cooperative_answer hC
  obtain ⟨u, hmove, m⟩ := moveTo_moved shiftState hI hd
  obtain ⟨v, hv, c⟩ := shiftVectors_completes (m.cooperative hC) (hshift.congr m.tap m.mem m.bufSizeNow)
  have hIv : StateInv v = true := by
    have p := shiftVectors_progress input output len true u
    rw [hv] at p
    exact p.stateInv (m.inv hI)
  obtain ⟨e, he⟩ := cooperative_answer c.cooperative
  obtain ⟨t, hend, n⟩ := moveTo_moved endState hIv he
  refine ⟨t, ?_, n.tap, n.tmsCount, n.fault.trans (c.fault.trans m.fault)⟩
  rw [shiftRegister_checked h.1, hmove, Run.bind_done, hv, Run.bind_done, hend]

/-- SHIFT_IR and SHIFT_DR are answered as their expansion ends. -/
theorem exec_shiftRegister {i : Instr} {input : Option VecArg} {output : Option Nat} {len : Nat} {endState : TapState}
    {s : State} (hi : i = .shiftIr input output len endState ∨ i = .shiftDr input output len endState)
    (h : Ready s = true) : ∃ x, (x = .shiftDr ∨ x = .shiftIr) ∧ exec i s =
      .next (concluded ((shiftRegister x input output len endState s).map fun _ => Result.none)) := by
  rcases hi with rfl | rfl
  · exact ⟨.shiftIr, .inr rfl, by rw [exec_ready _ h, body, live_ready _ h]⟩
  · exact ⟨.shiftDr, .inl rfl, by rw [exec_ready _ h, body, live_ready _ h]⟩

/-- Settles O32: the move, the shift and the move back complete, and none of them is refused. -/
theorem shiftIrAndShiftDrComplete : Obligations.ShiftIrAndShiftDrComplete := by
  intro i s input output len endState hi hI hr hC hadmitted
  obtain ⟨x, hx, hexec⟩ := exec_shiftRegister hi hr
  obtain ⟨t, ht, htap, hcount, hfault⟩ := shiftRegister_completes (endState := endState) hI hC hx hadmitted
  have hrefused := (shiftRegister_progress x input output len endState s).refused
  rw [ht] at hrefused
  exact ⟨t.withResponse (some (.result .none)), by rw [hexec, ht]; rfl, rfl, htap, hcount, hfault, hrefused⟩

end Sys2Proof.Machine
end

section
/-! The phases of a shift as one list of data commands, each with what its response does to the output vector
(42_data_shifter.md R154 to R156), and what the shifting requests leave unchanged (R159 to R163, 43_chain_enumerator.md R194). -/

namespace Sys2Proof.Machine

open Sys2Proof

/-! ### The list of data commands -/

/-- A data command of a shift: its bytes, how many bytes it returns, and what those do to the output vector. -/
structure DataStep where
  cmd : List Byte
  size : Nat
  write : List Byte → List Byte → List Byte

/-- The command and its size, as `shiftPlan` lists them. -/
def DataStep.key (c : DataStep) : List Byte × Nat := (c.cmd, c.size)

/-- Issue the commands in order, each capturing its response before the next is sent. -/
def runSteps : List DataStep → Work → Run Work Unit
  | [], w => .done () w
  | c :: cs, w => (w.lift (issue c.cmd c.size w.out.isSome w.s)).bind fun r u => runSteps cs (u.capture c.write r)

/-- A chunk of the whole-byte phase, from its offset and its size (R154). -/
def byteStep (o : Opc) (inp : Option (List Byte)) (read : Bool) (p : Nat × Nat) : DataStep where
  cmd := byteCommand o (inp.map fun v => memRead v p.1 p.2) read p.2
  size := p.2
  write v bs := memWrite v p.1 bs

/-- The command of the residual phase, where there is one (R155). -/
def residualSteps (o : Opc) (inp : Option (List Byte)) (read : Bool) (nb nr : Nat) : List DataStep :=
  if nr = 0 then []
  else [{ cmd := bitCommand o (inp.map fun v => vecByte v nb) read nr, size := 1,
          write := fun v bs => memWrite v nb [realign (vecByte bs 0) nr] }]

/-- The final-bit command, where there is one (R156). -/
def finalSteps (o : Opc) (inp : Option (List Byte)) (read : Bool) (nb nr : Nat) (isLast : Bool) : List DataStep :=
  if isLast then
    [{ cmd := finalCommand o read ((inp.map fun v => (vecByte v nb).getLsbD nr).getD false), size := 1,
       write := fun v bs => memWrite v nb [vecByte v nb ||| finalCapture (vecByte bs 0) nr] }]
  else []

/-- The commands before the final bit. -/
def dataSteps (o : Opc) (inp : Option (List Byte)) (read : Bool) (len : Nat) (isLast : Bool) (xfer : Nat) : List DataStep :=
  (cut xfer (nbByte len isLast) 0 (nbByte len isLast)).map (byteStep o inp read)
    ++ residualSteps o inp read (nbByte len isLast) (nbBit len isLast)

/-- The commands of the three phases. -/
def shiftSteps (o : Opc) (inp : Option (List Byte)) (read : Bool) (len : Nat) (isLast : Bool) (xfer : Nat) : List DataStep :=
  dataSteps o inp read len isLast xfer ++ finalSteps o inp read (nbByte len isLast) (nbBit len isLast) isLast

/-- They are the commands of the plan. -/
theorem shiftSteps_key {xfer : Nat} (h : 1 ≤ xfer) (o : Opc) (inp : Option (List Byte)) (read : Bool) (len : Nat)
    (isLast : Bool) : (shiftSteps o inp read len isLast xfer).map DataStep.key = shiftPlan o inp read len isLast xfer := by
  have hbit : (residualSteps o inp read (nbByte len isLast) (nbBit len isLast)).map DataStep.key
      = residualCmds o inp read (nbByte len isLast) (nbBit len isLast) := by
    unfold residualSteps residualCmds
    split <;> rfl
  have hfinal : (finalSteps o inp read (nbByte len isLast) (nbBit len isLast) isLast).map DataStep.key
      = finalCmds o inp read (nbByte len isLast) (nbBit len isLast) isLast := by
    unfold finalSteps finalCmds
    split <;> rfl
  rw [shiftPlan_eq h, shiftSteps, dataSteps, List.map_append, List.map_append, hbit, hfinal, List.map_map]
  rfl

/-! ### Running the list -/

theorem runSteps_append (a b : List DataStep) (w : Work) :
    runSteps (a ++ b) w = (runSteps a w).bind fun _ u => runSteps b u := by
  induction a generalizing w with
  | nil => rfl
  | cons c a ih =>
    rw [List.cons_append, runSteps, runSteps]
    cases w.lift (issue c.cmd c.size w.out.isSome w.s) with
    | done r u => exact ih _
    | ended e u => rfl

theorem capture_isSome (w : Work) (f : List Byte → List Byte → List Byte) (r : Option (List Byte)) :
    (w.capture f r).out.isSome = w.out.isSome := by
  unfold Work.capture
  split
  · next h => simp [h]
  · rfl

/-- A command keeps what the next ones depend on: the parameters, and whether there is an output. -/
theorem lift_issue_done {cmd : List Byte} {n : Nat} {read : Bool} {w u : Work} {r : Option (List Byte)}
    (h : w.lift (issue cmd n read w.s) = .done r u) : u.s.params = w.s.params ∧ u.out = w.out := by
  obtain ⟨hissue, hout⟩ := lift_done h
  have e := issue_extends cmd n read w.s
  rw [hissue] at e
  exact ⟨e.params, hout⟩

theorem runSteps_done {cs : List DataStep} {w u : Work} (h : runSteps cs w = .done () u) :
    u.s.params = w.s.params ∧ u.out.isSome = w.out.isSome := by
  induction cs generalizing w with
  | nil =>
    cases h
    exact ⟨rfl, rfl⟩
  | cons c cs ih =>
    rw [runSteps] at h
    cases hx : w.lift (issue c.cmd c.size w.out.isSome w.s) with
    | done r v =>
      rw [hx] at h
      obtain ⟨hparams, hout⟩ := lift_issue_done hx
      obtain ⟨hp, ho⟩ := ih h
      exact ⟨hp.trans (by rw [Work.capture_s, hparams]), ho.trans (by rw [capture_isSome, hout])⟩
    | ended e v =>
      rw [hx] at h
      cases h

/-- The whole-byte phase runs its chunks. -/
theorem bytePhase_eq_runSteps (inp : Option (List Byte)) (xfer fuel k rem : Nat) (w : Work) :
    bytePhase inp xfer fuel k rem w =
      runSteps ((cut xfer fuel k rem).map (byteStep w.s.params.opc inp w.out.isSome)) w := by
  induction fuel generalizing k rem w with
  | zero => rfl
  | succ fuel ih =>
    by_cases hr : rem = 0
    · rw [bytePhase, if_pos hr, cut, if_pos hr]
      rfl
    · rw [bytePhase, if_neg hr, cut, if_neg hr, List.map_cons, runSteps]
      dsimp only [byteStep]
      cases hx : w.lift (issue (byteCommand w.s.params.opc (inp.map fun v => memRead v k (min rem xfer)) w.out.isSome
          (min rem xfer)) (min rem xfer) w.out.isSome w.s) with
      | done r u =>
        obtain ⟨hparams, hout⟩ := lift_issue_done hx
        rw [Run.bind_done, Run.bind_done, ih, Work.capture_s, capture_isSome, hparams, hout]
      | ended e u => rfl

theorem residualPhase_eq_runSteps (inp : Option (List Byte)) (nb nr : Nat) (w : Work) :
    residualPhase inp nb nr w = runSteps (residualSteps w.s.params.opc inp w.out.isSome nb nr) w := by
  unfold residualPhase residualSteps
  split <;> rfl

/-- The edge of the final bit, of a shift at work (R157). -/
def Work.leaveIfLast (isLast : Bool) (w : Work) : Work := { w with s := Machine.leaveIfLast isLast w.s }

theorem finalPhase_eq_runSteps (inp : Option (List Byte)) (nb nr : Nat) (isLast : Bool) (w : Work) :
    finalPhase inp nb nr isLast w = (runSteps (finalSteps w.s.params.opc inp w.out.isSome nb nr isLast) w).bind
      fun _ u => .done () (u.leaveIfLast isLast) := by
  cases isLast with
  | false => rfl
  | true =>
    rw [finalPhase, finalSteps, if_pos rfl, if_pos rfl, runSteps]
    cases w.lift (issue _ 1 w.out.isSome w.s) <;> rfl

/-- The three phases run their commands in order, and the final bit then leaves the shift state (R154 to R157). -/
theorem shiftPhases_eq_runSteps (inp : Option (List Byte)) (len : Nat) (isLast : Bool) (xfer : Nat) (w : Work) :
    shiftPhases inp len isLast xfer w =
      (runSteps (shiftSteps w.s.params.opc inp w.out.isSome len isLast xfer) w).bind
        fun _ u => .done () (u.leaveIfLast isLast) := by
  rw [shiftPhases, bytePhase_eq_runSteps, shiftSteps, dataSteps, runSteps_append, runSteps_append]
  cases hbyte : runSteps ((cut xfer (nbByte len isLast) 0 (nbByte len isLast)).map
      (byteStep w.s.params.opc inp w.out.isSome)) w with
  | ended e u => rfl
  | done a u =>
    obtain ⟨hparams, hout⟩ := runSteps_done hbyte
    rw [Run.bind_done, Run.bind_done, residualPhase_eq_runSteps, hparams, hout]
    cases hbit : runSteps (residualSteps w.s.params.opc inp w.out.isSome (nbByte len isLast) (nbBit len isLast)) u with
    | ended e v => rfl
    | done b v =>
      obtain ⟨hparams', hout'⟩ := runSteps_done hbit
      rw [Run.bind_done, Run.bind_done, finalPhase_eq_runSteps, hparams', hout', hparams, hout]

/-! ### What is written of a vector -/

/-- Byte by byte, what `MemWrite` leaves (R9). -/
theorem getElem?_memWrite {v bs : List Byte} {k : Nat} (h : k + bs.length ≤ v.length) (j : Nat) :
    (memWrite v k bs)[j]? = if k ≤ j ∧ j < k + bs.length then bs[j - k]? else v[j]? := by
  have hk : (v.take k).length = k := by simp; omega
  unfold memWrite
  by_cases hlt : j < k
  · rw [if_neg (by omega), List.append_assoc, List.getElem?_append_left (by omega), List.getElem?_take_of_lt hlt]
  · by_cases hin : j < k + bs.length
    · rw [if_pos (by omega), List.append_assoc, List.getElem?_append_right (by omega), hk,
        List.getElem?_append_left (by omega)]
    · rw [if_neg (by omega), List.getElem?_append_right (by simp; omega), List.getElem?_drop]
      congr 1
      simp
      omega

/-- `u` is as long as `v` and has the same bytes from byte `n` on. -/
def SameFrom (n : Nat) (v u : List Byte) : Prop := u.length = v.length ∧ ∀ k, n ≤ k → u[k]? = v[k]?

theorem SameFrom.refl (n : Nat) (v : List Byte) : SameFrom n v v := ⟨rfl, fun _ _ => rfl⟩

theorem SameFrom.trans {n : Nat} {v u t : List Byte} (h : SameFrom n v u) (k : SameFrom n u t) : SameFrom n v t :=
  ⟨k.1.trans h.1, fun j hj => (k.2 j hj).trans (h.2 j hj)⟩

theorem memWrite_sameFrom {n k : Nat} {v bs : List Byte} (hn : k + bs.length ≤ n) (hv : n ≤ v.length) :
    SameFrom n v (memWrite v k bs) :=
  ⟨memWrite_length (by omega), fun j hj => by rw [getElem?_memWrite (by omega), if_neg (by omega)]⟩

/-- The command's response changes only the bytes below `n` of a vector with at least as many. -/
def DataStep.Within (n : Nat) (c : DataStep) : Prop :=
  ∀ v bs : List Byte, bs.length = c.size → n ≤ v.length → SameFrom n v (c.write v bs)

theorem cut_le (xfer fuel k rem : Nat) : ∀ p ∈ cut xfer fuel k rem, p.1 + p.2 ≤ k + rem := by
  induction fuel generalizing k rem with
  | zero => simp [cut]
  | succ fuel ih =>
    rw [cut]
    split
    · simp
    · intro p hp
      rcases List.mem_cons.1 hp with rfl | hp
      · dsimp only
        omega
      · have := ih _ _ p hp
        omega

/-- R151: with residual bits or a final bit to shift, a vector that is long enough has a byte after the whole bytes. -/
theorem nbByte_lt_vecBytes {len : Nat} {isLast : Bool} (hlen : len ≠ 0 ∨ isLast = false)
    (h : nbBit len isLast ≠ 0 ∨ isLast = true) : nbByte len isLast < vecBytes len := by
  cases isLast with
  | false =>
    have hbit : len % 8 ≠ 0 := by simpa [nbBit, effLength] using h
    show len / 8 < (len + 7) / 8
    omega
  | true =>
    have hpos : len ≠ 0 := by simpa using hlen
    show (len - 1) / 8 < (len + 7) / 8
    omega

/-- R159: the commands of an admitted shift write within the bytes that the length covers. -/
theorem shiftSteps_within (o : Opc) (inp : Option (List Byte)) (read : Bool) {len : Nat} {isLast : Bool} (xfer : Nat)
    (hlen : len ≠ 0 ∨ isLast = false) : ∀ c ∈ shiftSteps o inp read len isLast xfer, c.Within (vecBytes len) := by
  have hnb := nbByte_le_vecBytes len isLast
  intro c hc v bs hbs hv
  rw [shiftSteps, dataSteps, List.mem_append, List.mem_append] at hc
  rcases hc with (hc | hc) | hc
  · obtain ⟨p, hp, rfl⟩ := List.mem_map.1 hc
    have hle := cut_le _ _ _ _ p hp
    have hsize : bs.length = p.2 := hbs
    exact memWrite_sameFrom (by omega) hv
  · unfold residualSteps at hc
    split at hc
    · cases hc
    · next hr =>
      rw [List.mem_singleton.1 hc]
      exact memWrite_sameFrom (nbByte_lt_vecBytes hlen (.inl hr)) hv
  · unfold finalSteps at hc
    split at hc
    · next hl =>
      rw [List.mem_singleton.1 hc]
      exact memWrite_sameFrom (nbByte_lt_vecBytes hlen (.inr hl)) hv
    · cases hc

theorem Run.bind_eq_done {σ α β : Type} {x : Run σ α} {f : α → σ → Run σ β} {b : β} {u : σ}
    (h : x.bind f = .done b u) : ∃ a s, x = .done a s ∧ f a s = .done b u := by
  cases x with
  | done a s => exact ⟨a, s, rfl, h⟩
  | ended w s => cases h

theorem Run.map_eq_done {σ α β : Type} {x : Run σ α} {f : α → β} {b : β} {u : σ} (h : x.map f = .done b u) :
    ∃ a, x = .done a u ∧ f a = b := by
  cases x with
  | done a s =>
    cases h
    exact ⟨a, rfl, rfl⟩
  | ended w s => cases h

theorem txRead_done_length {n : Nat} {s u : State} {bs : List Byte} (h : txRead n s = .done bs u) : bs.length = n := by
  unfold txRead readAnswer at h
  cases hanswer : s.tx.answer.against n with
  | full data =>
    rw [hanswer] at h
    cases h
    exact answerBytes_length _ _ _
  | short k =>
    rw [hanswer] at h
    cases h
  | stall =>
    rw [hanswer] at h
    cases h

/-- A command that reads gets as many bytes as it asked for (R44). -/
theorem issue_done_length {cmd : List Byte} {n : Nat} {read : Bool} {s u : State} {bs : List Byte}
    (h : issue cmd n read s = .done (some bs) u) : bs.length = n := by
  unfold issue at h
  split at h
  · obtain ⟨_, v, -, h⟩ := Run.bind_eq_done h
    obtain ⟨b, hread, hb⟩ := Run.map_eq_done h
    cases hb
    exact txRead_done_length hread
  · split at h
    · obtain ⟨_, v, -, h⟩ := Run.bind_eq_done h
      obtain ⟨_, -, hb⟩ := Run.map_eq_done h
      cases hb
    · cases h

theorem lift_final_out {α : Type} (w : Work) (x : Run State α) : (w.lift x).final.out = w.out := by
  cases x <;> rfl

theorem capture_read {w : Work} {v : List Byte} (h : w.out = some v) (f : List Byte → List Byte → List Byte)
    (bs : List Byte) : w.capture f (some bs) = { w with out := some (f v bs) } := by
  obtain ⟨s, out⟩ := w
  cases h
  rfl

theorem capture_unread (w : Work) (f : List Byte → List Byte → List Byte) : w.capture f none = w := by
  unfold Work.capture
  split
  · next h => cases h
  · rfl

/-- Commands that write within `n` bytes leave the others, however they end. -/
theorem runSteps_sameFrom {n : Nat} {cs : List DataStep} (hcs : ∀ c ∈ cs, c.Within n) {w : Work} {v : List Byte}
    (hv : w.out = some v) (hn : n ≤ v.length) : ∃ u, (runSteps cs w).final.out = some u ∧ SameFrom n v u := by
  induction cs generalizing w v with
  | nil => exact ⟨v, hv, .refl n v⟩
  | cons c cs ih =>
    have hout := lift_final_out w (issue c.cmd c.size w.out.isSome w.s)
    rw [runSteps]
    cases hx : w.lift (issue c.cmd c.size w.out.isSome w.s) with
    | ended e u =>
      rw [hx] at hout
      exact ⟨v, hout.trans hv, .refl n v⟩
    | done r u =>
      rw [hx] at hout
      have hu : u.out = some v := hout.trans hv
      have htail := fun x hx => hcs x (List.mem_cons_of_mem _ hx)
      rw [Run.bind_done]
      cases r with
      | none =>
        rw [capture_unread]
        exact ih htail hu hn
      | some bs =>
        have hwrite := hcs c List.mem_cons_self v bs (issue_done_length (lift_done hx).1) hn
        rw [capture_read hu]
        obtain ⟨t, ht, hsame⟩ := ih htail (w := { u with out := some (c.write v bs) }) rfl (by rw [hwrite.1]; exact hn)
        exact ⟨t, ht, hwrite.trans hsame⟩

/-! ### The frame of the shifting requests -/

/-- R150, check 2. -/
theorem shiftCheck_none_length {inp out : Option (List Byte)} {al : Bool} {len : Nat} {isLast : Bool} {s : State}
    (h : shiftCheck inp out al len isLast s = none) : len ≠ 0 ∨ isLast = false := by
  by_contra hc
  have hzero : len = 0 ∧ isLast = true := by simpa [not_or] using hc
  rw [shiftCheck, if_pos hzero] at h
  cases h

/-- The edge of the final bit is no write to the output. -/
theorem leaveIfLast_out (isLast : Bool) (x : Run Work Unit) :
    (x.bind fun _ u => .done () (u.leaveIfLast isLast)).final.out = x.final.out := by
  cases x <;> rfl

/-- R159: a shift writes its output within the bytes that the length covers, however it ends. -/
theorem shiftValues_sameFrom (inp : Option (List Byte)) (v : List Byte) (al : Bool) (len : Nat) (isLast : Bool) (s : State) :
    ∃ u, (shiftValues inp (some v) al len isLast s).final.out = some u ∧ SameFrom (vecBytes len) v u := by
  unfold shiftValues
  split
  · exact ⟨v, rfl, .refl _ v⟩
  · next hcheck =>
    split
    · cases flushTms true (bufSizeAsked s) with
      | ended e u => exact ⟨v, rfl, .refl _ v⟩
      | done n u =>
        have hv : vecBytes len ≤ v.length := by simpa [tooShort] using shiftCheck_none_output hcheck
        obtain ⟨t, ht, hsame⟩ := runSteps_sameFrom
          (shiftSteps_within u.params.opc inp true (bufSizeNow s - 3) (shiftCheck_none_length hcheck))
          (w := { s := u, out := some v }) rfl hv
        refine ⟨t, ?_, hsame⟩
        rw [Work.lift, Run.mapState_done, Run.bind_done, shiftPhases_eq_runSteps, leaveIfLast_out]
        exact ht
    · exact ⟨v, rfl, .refl _ v⟩

/-- From `s` to `t` a shift of `len` bits into the vector `output` may have run: of the caller's vectors only the bytes of
that one which the length covers may differ. -/
structure ShiftFramed (output : Option Nat) (len : Nat) (s t : State) : Prop where
  params : t.params = s.params
  port : t.port = s.port
  warnings : t.warnings = s.warnings
  life : t.sess.life = s.sess.life
  quirk : t.sess.quirk = s.sess.quirk
  memory : Memory.wf s.mem = true → Memory.wf t.mem = true
  readByte : Memory.wf s.mem = true → ∀ name k, (output = some name → vecBytes len ≤ k) →
    t.readByte name k = s.readByte name k

section
variable {output : Option Nat} {len : Nat}

theorem Extends.shiftFramed {s t : State} (e : Extends s t) : ShiftFramed output len s t :=
  ⟨e.params, e.port, e.warnings, e.life, e.quirk, fun h => by rw [e.mem]; exact h,
    fun _ name k _ => by rw [State.readByte, State.readByte, e.mem]⟩

theorem ShiftFramed.refl (s : State) : ShiftFramed output len s s := (Extends.refl s).shiftFramed

theorem ShiftFramed.trans {s t u : State} (h : ShiftFramed output len s t) (k : ShiftFramed output len t u) :
    ShiftFramed output len s u :=
  ⟨k.params.trans h.params, k.port.trans h.port, k.warnings.trans h.warnings, k.life.trans h.life, k.quirk.trans h.quirk,
    fun m => k.memory (h.memory m),
    fun m name j hj => (k.readByte (h.memory m) name j hj).trans (h.readByte m name j hj)⟩

theorem ShiftFramed.bind {α β : Type} {s : State} {x : Run State α} {f : α → State → Run State β}
    (hx : ShiftFramed output len s x.final) (hf : ∀ a u, ShiftFramed output len u (f a u).final) :
    ShiftFramed output len s (x.bind f).final := by
  cases x with
  | done a u => exact hx.trans (hf a u)
  | ended w u => exact hx

end

/-- Writing back the output of a shift changes only the bytes that the length covers. -/
theorem putOutput_readByte {s u : State} {name : Nat} {v : List Byte} {n : Nat} (hmem : u.mem = s.mem)
    (h : SameFrom n (s.mem.get name) v) (hwf : Memory.wf s.mem = true) (other k : Nat)
    (hk : some name = some other → n ≤ k) :
    (u.putOutput (some name) (some v)).readByte other k = s.readByte other k := by
  rw [State.readByte, State.readByte]
  by_cases he : some name = some other
  · obtain rfl := Option.some.inj he
    rw [putOutput_get_same u name v (by rw [hmem]; exact hwf)]
    exact h.2 k (hk he)
  · rw [putOutput_get_other u _ _ other he, hmem]

theorem shiftVectors_framed (input : Option VecArg) (output : Option Nat) (len : Nat) (isLast : Bool) (s : State) :
    ShiftFramed output len s (shiftVectors input output len isLast s).final := by
  have e := shiftValues_extends (s.input input) (s.output output) (sameStorage input output) len isLast s
  rw [shiftVectors, Run.final_mapState]
  cases output with
  | none => exact e.shiftFramed
  | some name =>
    obtain ⟨v, hv, hsame⟩ := shiftValues_sameFrom (s.input input) (s.mem.get name) (sameStorage input (some name)) len
      isLast s
    have hout : (shiftValues (s.input input) (s.output (some name)) (sameStorage input (some name)) len isLast s).final.out
      = some v := hv
    rw [hout]
    exact ⟨by simpa using e.params, by simpa using e.port, by simpa using e.warnings, by simpa using e.life,
      by simpa using e.quirk, fun h => putOutput_wf _ _ _ (by rw [e.mem]; exact h),
      fun h other k hk => putOutput_readByte e.mem hsame h other k hk⟩

theorem shiftRegister_framed (x : TapState) (input : Option VecArg) (output : Option Nat) (len : Nat) (e : TapState)
    (s : State) : ShiftFramed output len s (shiftRegister x input output len e s).final := by
  unfold shiftRegister
  split
  · exact .refl s
  · split
    · exact .refl s
    · exact .bind (moveTo_extends x s).shiftFramed fun _ u => .bind (shiftVectors_framed _ _ _ _ u) fun _ v =>
        (moveTo_extends e v).shiftFramed

/-- Settles O31: the core's frame, and the bytes that the commands of a shift write. -/
theorem shiftRequestsFrame : Obligations.ShiftRequestsFrame := by
  intro i s t hI hr hi hexec
  obtain ⟨output, len, hout, f⟩ : ∃ output len, outputOf i = output.map (fun n => (n, len)) ∧
      ShiftFramed output len s (body i s).final := by
    obtain ⟨a, b, n, l, rfl⟩ | ⟨a, b, n, e, rfl⟩ | ⟨a, n, e, rfl⟩ | ⟨a, b, n, e, rfl⟩ | ⟨m, rfl⟩ := hi
      <;> rw [body, live_ready _ hr]
    · exact ⟨b, n, rfl, by rw [Run.final_map]; exact shiftVectors_framed a b n l s⟩
    · exact ⟨b, n, rfl, by rw [Run.final_map]; exact shiftRegister_framed _ a b n e s⟩
    · refine ⟨none, n, rfl, ?_⟩
      split
      · exact .refl s
      · rw [Run.final_map]
        exact shiftRegister_framed _ _ none n e s
    · exact ⟨b, n, rfl, by rw [Run.final_map]; exact shiftRegister_framed _ a b n e s⟩
    · exact ⟨none, 0, rfl, by rw [Run.final_map]; exact (detect_extends m s).shiftFramed⟩
  rw [exec_ready i hr] at hexec
  obtain rfl := Host.Outcome.next.inj hexec
  have hwf := ((stateInv_iff s).1 hI).2.2
  refine ⟨(concluded_params _).trans f.params, (concluded_port _).trans f.port, (concluded_warnings _).trans f.warnings,
    (concluded_life _).trans f.life, (concluded_quirk _).trans f.quirk, fun name k hk => ?_⟩
  rw [State.readByte, concluded_mem]
  exact f.readByte hwf name k fun h => hk len (by rw [hout, h]; rfl)

end Sys2Proof.Machine
end

section
/-! What a SHIFT leaves in its output vector, bit by bit (42_data_shifter.md R159), and the round trip of a target that echoes
every bit (95_test_vectors.md E2). -/

namespace Sys2Proof.Machine

open Sys2Proof

/-! ### The opening flush under a script -/

/-- A buffer with no bit valid is all zeros (R23). -/
theorem tmsBuf_of_empty {s : State} (h : bufferOk s = true) (hcount : s.sess.tmsCount = 0) :
    s.sess.tmsBuf = List.replicate s.params.tmsCapacity false := by
  obtain ⟨hlen, -, hzero⟩ := (bufferOk_iff s).1 h
  rw [hcount, List.drop_zero] at hzero
  exact List.eq_replicate_iff.2 ⟨hlen, hzero⟩

/-- What the opening flush takes of the script: one full answer where a bit is pending, none where the buffer is empty. -/
def openingScript (s : State) : List Answer := if s.sess.tmsCount = 0 then [] else [.full []]

theorem flushTms_scripted {s : State} {answers : List Answer} (hbuf : bufferOk s = true)
    (h : s.tx.script = openingScript s ++ answers) :
    ∃ u, flushTms true s = .done s.sess.tmsCount u ∧ u.tx.script = answers ∧ u.trace = s.trace ++ openingEvents s ∧
      u.sess = { s.sess with tmsBuf := List.replicate s.params.tmsCapacity false, tmsCount := 0 } ∧
      u.params = s.params := by
  have htrace := flushTms_trace s
  by_cases hcount : s.sess.tmsCount = 0
  · have hflush : flushTms true s = .done s.sess.tmsCount s := by rw [flushTms, if_pos hcount, hcount]
    rw [hflush] at htrace
    rw [openingScript, if_pos hcount] at h
    exact ⟨s, hflush, h, htrace, by rw [← tmsBuf_of_empty hbuf hcount, ← hcount], rfl⟩
  · rw [openingScript, if_neg hcount] at h
    have hanswer : s.tx.answer = .full [] := by rw [Transport.answer, h]; rfl
    have hflush := flushTms_full hanswer
    rw [if_neg hcount] at hflush
    rw [hflush] at htrace
    exact ⟨_, hflush, by simp [h], htrace, rfl, rfl⟩

/-! ### Byte by byte -/

theorem vecByte_memWrite {v bs : List Byte} {k : Nat} (h : k + bs.length ≤ v.length) (j : Nat) :
    vecByte (memWrite v k bs) j = if k ≤ j ∧ j < k + bs.length then vecByte bs (j - k) else vecByte v j := by
  simp only [vecByte, List.getD_eq_getElem?_getD, getElem?_memWrite h]
  split <;> rfl

theorem vecByte_memWrite_one {v : List Byte} {k : Nat} (h : k < v.length) (b : Byte) (j : Nat) :
    vecByte (memWrite v k [b]) j = if j = k then b else vecByte v j := by
  rw [vecByte_memWrite (by simpa using h)]
  by_cases hj : j = k
  · simp [hj, vecByte]
  · rw [if_neg hj, if_neg (by simp; omega)]

/-- What the residual phase leaves of a vector (R155). -/
def residualInto (v : List Byte) (nb nr : Nat) (r : Byte) : List Byte :=
  if nr = 0 then v else memWrite v nb [realign r nr]

theorem residualInto_length {v : List Byte} {nb nr : Nat} (h : nr ≠ 0 → nb < v.length) (r : Byte) :
    (residualInto v nb nr r).length = v.length := by
  unfold residualInto
  split
  · rfl
  · next hr => exact memWrite_length (h hr)

theorem vecByte_residualInto {v : List Byte} {nb nr : Nat} (h : nr ≠ 0 → nb < v.length) (r : Byte) (j : Nat) :
    vecByte (residualInto v nb nr r) j = if nr ≠ 0 ∧ j = nb then realign r nr else vecByte v j := by
  unfold residualInto
  split
  · next hr => rw [if_neg fun hc => hc.1 hr]
  · next hr => simp only [vecByte_memWrite_one (h hr), ne_eq, hr, not_false_eq_true, true_and]

/-- What the final bit's phase leaves of a vector (R156). -/
def finalInto (v : List Byte) (nb nr : Nat) (isLast : Bool) (f : Byte) : List Byte :=
  if isLast then memWrite v nb [vecByte v nb ||| finalCapture f nr] else v

theorem finalInto_length {v : List Byte} {nb : Nat} {isLast : Bool} (h : isLast = true → nb < v.length) (nr : Nat)
    (f : Byte) :
    (finalInto v nb nr isLast f).length = v.length := by
  unfold finalInto
  split
  · next hl => exact memWrite_length (h hl)
  · rfl

theorem vecByte_finalInto {v : List Byte} {nb : Nat} {isLast : Bool} (h : isLast = true → nb < v.length) (nr : Nat)
    (f : Byte) (j : Nat) : vecByte (finalInto v nb nr isLast f) j =
      if isLast = true ∧ j = nb then vecByte v nb ||| finalCapture f nr else vecByte v j := by
  unfold finalInto
  split
  · next hl => simp only [vecByte_memWrite_one (h hl), hl, true_and]
  · next hl => rw [if_neg fun hc => hl hc.1]

theorem capturedInto_eq (v : List Byte) (len : Nat) (isLast : Bool) (cap : List (List Byte)) (r f : Byte) :
    capturedInto v len isLast cap r f = finalInto (residualInto (memWrite v 0 cap.flatten) (nbByte len isLast)
      (nbBit len isLast) r) (nbByte len isLast) (nbBit len isLast) isLast f := rfl

/-! ### Bit by bit -/

theorem realign_getLsbD (r : Byte) (nr b : Nat) : (realign r nr).getLsbD b = r.getLsbD (8 - nr + b) :=
  BitVec.getLsbD_ushiftRight r (8 - nr) b

/-- R156: the captured bit is bit 7 of the answer, and lands at bit `nr`. -/
theorem finalCapture_getLsbD (f : Byte) {nr : Nat} (hr : nr < 8) (b : Nat) :
    (finalCapture f nr).getLsbD b = (decide (b = nr) && f.getLsbD 7) := by
  rw [finalCapture, BitVec.getLsbD_ushiftRight, BitVec.getLsbD_and, getLsbD_0x80]
  by_cases hb : b = nr
  · have h7 : 7 - nr + nr = 7 := by omega
    simp [hb, h7]
  · have h7 : 7 - nr + b ≠ 7 := by omega
    simp [hb, h7]

section
variable {v : List Byte} {nb nr : Nat} {isLast : Bool}

/-- The residual phase at bit `i`: its bits, then zeros up to the byte's end. -/
theorem vecBit_residualInto (h : nr ≠ 0 → nb < v.length) (hr : nr < 8) (r : Byte) (i : Nat) :
    vecBit (residualInto v nb nr r) i =
      if nr ≠ 0 ∧ 8 * nb ≤ i ∧ i < 8 * nb + 8 then decide (i < 8 * nb + nr) && r.getLsbD (8 - nr + (i - 8 * nb))
      else vecBit v i := by
  have hbyte : (nr ≠ 0 ∧ i / 8 = nb) ↔ nr ≠ 0 ∧ 8 * nb ≤ i ∧ i < 8 * nb + 8 := by omega
  rw [vecBit, vecByte_residualInto h]
  simp only [hbyte]
  split
  · next hi =>
    rw [realign_getLsbD, show i % 8 = i - 8 * nb by omega]
    by_cases hlt : i < 8 * nb + nr
    · simp [hlt]
    · rw [BitVec.getLsbD_of_ge _ _ (by omega)]
      simp [hlt]
  · rfl

/-- The final bit's phase at bit `i`: the captured bit is OR'd in. -/
theorem vecBit_finalInto (h : isLast = true → nb < v.length) (hr : nr < 8) (f : Byte) (i : Nat) :
    vecBit (finalInto v nb nr isLast f) i =
      (vecBit v i || (isLast && decide (i = 8 * nb + nr) && f.getLsbD 7)) := by
  rw [vecBit, vecByte_finalInto h]
  split
  · next hi =>
    have hbit : i % 8 = nr ↔ i = 8 * nb + nr := by omega
    rw [BitVec.getLsbD_or, finalCapture_getLsbD f hr, hi.1, ← hi.2, vecBit]
    simp [hbit, hi.2]
  · next hi =>
    have hno : (isLast && decide (i = 8 * nb + nr)) = false := by
      rw [← Bool.not_eq_true, Bool.and_eq_true, decide_eq_true_eq]
      rintro ⟨hl, rfl⟩
      exact hi ⟨hl, by omega⟩
    rw [hno, vecBit]
    simp

end

theorem nbBit_lt (len : Nat) (isLast : Bool) : nbBit len isLast < 8 := Nat.mod_lt _ (by decide)

/-- R151: the bits before the final one are the whole bytes and the residual bits. -/
theorem effLength_eq (len : Nat) (isLast : Bool) : effLength len isLast = 8 * nbByte len isLast + nbBit len isLast :=
  (Nat.div_add_mod _ 8).symm

/-- The captured chunks at bit `i`. -/
theorem vecBit_memWrite_zero {v bs : List Byte} (h : bs.length ≤ v.length) (i : Nat) :
    vecBit (memWrite v 0 bs) i = if i < 8 * bs.length then vecBit bs i else vecBit v i := by
  have hbyte : (0 ≤ i / 8 ∧ i / 8 < 0 + bs.length) ↔ i < 8 * bs.length := by omega
  rw [vecBit, vecByte_memWrite (by omega)]
  simp only [hbyte, Nat.sub_zero]
  split <;> rfl

section
variable {v : List Byte} {len : Nat} {isLast : Bool} {cap : List (List Byte)}

theorem capturedInto_length (hlen : len ≠ 0 ∨ isLast = false) (hv : vecBytes len ≤ v.length)
    (hcap : cap.flatten.length = nbByte len isLast) (r f : Byte) :
    (capturedInto v len isLast cap r f).length = v.length := by
  have hnb := nbByte_le_vecBytes len isLast
  have hchunks : (memWrite v 0 cap.flatten).length = v.length := memWrite_length (by omega)
  have hlt := fun h => (nbByte_lt_vecBytes hlen h).trans_le hv
  have hres := residualInto_length (fun hr => (hlt (.inl hr)).trans_eq hchunks.symm) r
  rw [capturedInto_eq, finalInto_length (fun hl => (hlt (.inr hl)).trans_eq (hres.trans hchunks).symm), hres, hchunks]

/-- R159, bit by bit. -/
theorem vecBit_capturedInto (hlen : len ≠ 0 ∨ isLast = false) (hv : vecBytes len ≤ v.length)
    (hcap : cap.flatten.length = nbByte len isLast) (r f : Byte) (i : Nat) :
    vecBit (capturedInto v len isLast cap r f) i =
      if i < 8 * nbByte len isLast then vecBit cap.flatten i
      else if i < effLength len isLast then r.getLsbD (8 - nbBit len isLast + (i - 8 * nbByte len isLast))
      else if i = effLength len isLast ∧ isLast = true then
        (f.getLsbD 7 || (decide (nbBit len isLast = 0) && vecBit v i))
      else if nbBit len isLast ≠ 0 ∧ i < 8 * nbByte len isLast + 8 then false
      else vecBit v i := by
  have hnb := nbByte_le_vecBytes len isLast
  have hchunks : (memWrite v 0 cap.flatten).length = v.length := memWrite_length (by omega)
  have hlt := fun h => (nbByte_lt_vecBytes hlen h).trans_le hv
  have hres := residualInto_length (fun hr => (hlt (.inl hr)).trans_eq hchunks.symm) r
  have hr := nbBit_lt len isLast
  rw [capturedInto_eq, vecBit_finalInto (fun hl => (hlt (.inr hl)).trans_eq (hres.trans hchunks).symm) hr,
    vecBit_residualInto (fun hr => (hlt (.inl hr)).trans_eq hchunks.symm) hr, vecBit_memWrite_zero (by omega), hcap,
    effLength_eq]
  generalize nbByte len isLast = nb, nbBit len isLast = nr at *
  by_cases hbyte : i < 8 * nb
  · rw [if_neg (by omega), if_pos hbyte, if_pos hbyte, decide_eq_false (by omega : i ≠ 8 * nb + nr), Bool.and_false,
      Bool.false_and, Bool.or_false]
  rw [if_neg hbyte, if_neg hbyte]
  by_cases hbit : i < 8 * nb + nr
  · rw [if_pos (by omega), if_pos hbit, decide_eq_true hbit, decide_eq_false (by omega : i ≠ 8 * nb + nr), Bool.and_false,
      Bool.false_and, Bool.or_false, Bool.true_and]
  rw [if_neg hbit, decide_eq_false hbit, Bool.false_and]
  by_cases hfinal : i = 8 * nb + nr
  · by_cases hzero : nr = 0
    · cases isLast <;> simp [hfinal, hzero, Bool.or_comm]
    · cases isLast <;> simp [hfinal, hzero, hr]
  · rw [decide_eq_false hfinal, Bool.and_false, Bool.false_and, Bool.or_false]
    by_cases hzero : nr = 0
    · rw [if_neg fun h => h.1 hzero, if_neg fun h => hfinal h.1, if_neg fun h => h.1 hzero]
    · simp only [hzero, hfinal, ne_eq, not_false_eq_true, true_and, false_and, if_false, show 8 * nb ≤ i by omega]

end

/-! ### A shift under a script -/

/-- The sizes of the chunks in closed form (R154). -/
theorem cut_sizes {xfer : Nat} (h : 1 ≤ xfer) (nb : Nat) :
    (cut xfer nb 0 nb).map Prod.snd = (List.range (chunkCount nb xfer)).map (chunkSize nb xfer) := by
  rw [cut_eq h _ _ _ le_rfl, List.map_map]
  rfl

/-- An admitted shift with an output, every answer it gets written out in the script: what it leaves in the output. -/
theorem shiftVectors_scripted {s : State} {input : Option VecArg} {name len : Nat} {isLast : Bool} {cap : List (List Byte)}
    {r f : Byte} {more : List Answer} (hI : StateInv s = true) (hadmitted : ShiftAdmitted s input (some name) len isLast)
    (hcap : cap.map List.length = (List.range (chunkCount (nbByte len isLast) (bufSizeNow s - 3))).map
      (chunkSize (nbByte len isLast) (bufSizeNow s - 3)))
    (hscript : s.tx.script = openingScript s ++
      readScript (cap ++ (if nbBit len isLast = 0 then [] else [[r]]) ++ (if isLast then [[f]] else [])) ++ more) :
    ∃ t, shiftVectors input (some name) len isLast s = .done () t ∧
      t.mem.get name = capturedInto (s.mem.get name) len isLast cap r f := by
  obtain ⟨⟨-, -, -, hout, -⟩, hmin, -⟩ := id hadmitted
  obtain ⟨-, hbuf, hwf⟩ := (stateInv_iff s).1 hI
  rw [List.append_assoc] at hscript
  obtain ⟨u, hflush, htx, -, -, -⟩ := flushTms_scripted (s := bufSizeAsked s) hbuf hscript
  obtain ⟨z, hserves, -⟩ := serves_script htx
  rw [← List.append_nil (cap ++ _ ++ _), List.append_assoc, List.append_assoc] at hserves
  have hphases := shiftPhases_read (s.input input) len isLast (xfer := bufSizeNow s - 3) (by omega) (v := s.mem.get name)
    hserves (by rw [cut_sizes (by omega), hcap]) ((nbByte_le_vecBytes len isLast).trans (hout _ rfl))
  have hrun := shiftValues_admitted hadmitted
  rw [hflush] at hrun
  have hmem := (shiftValues_extends (s.input input) (s.output (some name)) (sameStorage input (some name)) len isLast s).mem
  rw [hrun.trans hphases] at hmem
  refine ⟨_, by rw [shiftVectors, hrun]; exact congrArg (Run.mapState _) hphases, ?_⟩
  exact putOutput_get_same _ name _ (hmem ▸ hwf)

/-- Settles O27: the phases leave `capturedInto`, whose bits are known. -/
theorem shiftCapturesIntoOutput : Obligations.ShiftCapturesIntoOutput := by
  intro s input name len isLast cap r f more hI hr hadmitted hcap hscript
  obtain ⟨⟨hlen, -, -, hout, -⟩, hmin, -⟩ := id hadmitted
  obtain ⟨t, ht, hget⟩ := shiftVectors_scripted hI hadmitted hcap hscript
  have htotal : cap.flatten.length = nbByte len isLast := by
    have hsum := cut_sum (xfer := bufSizeNow s - 3) (by omega) (nbByte len isLast) 0 (nbByte len isLast) le_rfl
    rw [cut_sizes (by omega), ← hcap] at hsum
    rw [List.length_flatten, hsum]
  refine ⟨t.withResponse (some (.result .none)), by rw [exec_shift _ _ _ _ hr, ht]; rfl, ?_⟩
  have hmem : (t.withResponse (some (.result .none))).mem.get name =
      capturedInto (s.mem.get name) len isLast cap r f := hget
  rw [hmem]
  exact ⟨capturedInto_length hlen (hout _ rfl) htotal r f, vecBit_capturedInto hlen (hout _ rfl) htotal r f⟩

/-! ### A target that echoes -/

theorem memRead_append (v : List Byte) (k a b : Nat) : memRead v k a ++ memRead v (k + a) b = memRead v k (a + b) := by
  rw [memRead, memRead, memRead, List.take_add, List.drop_drop]

theorem memRead_length {v : List Byte} {k n : Nat} (h : k + n ≤ v.length) : (memRead v k n).length = n := by
  rw [memRead, List.length_take, List.length_drop]
  omega

/-- The chunks of a vector put together are its bytes (R154). -/
theorem cut_memRead_flatten (xfer : Nat) (h : 1 ≤ xfer) (v : List Byte) (fuel k rem : Nat) (hf : rem ≤ fuel) :
    ((cut xfer fuel k rem).map fun p => memRead v p.1 p.2).flatten = memRead v k rem := by
  induction fuel generalizing k rem with
  | zero => simp [cut, Nat.le_zero.1 hf, memRead]
  | succ fuel ih =>
    by_cases hr : rem = 0
    · simp [cut, hr, memRead]
    · rw [cut, if_neg hr, List.map_cons, List.flatten_cons, ih _ _ (by omega), memRead_append]
      congr 1
      omega

theorem vecBit_memRead_zero (v : List Byte) {n i : Nat} (h : i < 8 * n) : vecBit (memRead v 0 n) i = vecBit v i := by
  have hbyte : i / 8 < n := by omega
  simp [vecBit, vecByte, memRead, List.getElem?_take_of_lt hbyte]

/-- R155: a residual byte that a target echoes has the input's bits at its top. -/
theorem echoed_getLsbD (b : Byte) {nr x : Nat} (hr : nr ≤ 8) (hx : x < nr) :
    (b <<< (8 - nr)).getLsbD (8 - nr + x) = b.getLsbD x := by
  rw [BitVec.getLsbD_shiftLeft, Nat.add_sub_cancel_left, decide_eq_true (by omega), decide_eq_false (by omega)]
  rfl

/-- R151: past the bits before the final one a shift has at most that one, in a last shift. -/
theorem last_bit_of_effLength_le {len i : Nat} {isLast : Bool} (h : effLength len isLast ≤ i) (hi : i < len) :
    i = effLength len isLast ∧ isLast = true ∧ i = len - 1 := by
  cases isLast with
  | false => exact absurd hi (Nat.not_lt.2 h)
  | true =>
    have hle : len - 1 ≤ i := h
    exact ⟨(by omega : i = len - 1), rfl, by omega⟩

/-- Settles O28: the echoed chunks, the echoed residual byte and the echoed final bit are the input's. -/
theorem shiftLoopbackReturnsTheInput : Obligations.ShiftLoopbackReturnsTheInput := by
  intro s inp name len isLast more hI hr hadmitted hzero hscript
  obtain ⟨⟨hlen, -, hin, -, -⟩, hmin, -⟩ := id hadmitted
  have hinp : vecBytes len ≤ inp.length := hin inp rfl
  have hnb := nbByte_le_vecBytes len isLast
  have hcut := cut_eq (xfer := bufSizeNow s - 3) (by omega) (nbByte len isLast) 0 (nbByte len isLast) le_rfl
  have hchunks : (List.range (chunkCount (nbByte len isLast) (bufSizeNow s - 3))).map (fun j =>
      memRead inp (j * (bufSizeNow s - 3)) (chunkSize (nbByte len isLast) (bufSizeNow s - 3) j)) =
      (cut (bufSizeNow s - 3) (nbByte len isLast) 0 (nbByte len isLast)).map fun p => memRead inp p.1 p.2 := by
    rw [hcut, List.map_map]
    simp only [Function.comp_def, Nat.zero_add]
  rw [hchunks] at hscript
  obtain ⟨t, hexec, -, hbits⟩ := shiftCapturesIntoOutput s _ name len isLast _ _ _ more hI hr hadmitted (by
    rw [← cut_sizes (by omega), List.map_map]
    refine List.map_congr_left fun p hp => memRead_length ?_
    have := cut_le _ _ _ _ p hp
    omega) hscript
  refine ⟨t, hexec, fun i hi => ?_⟩
  have hr := nbBit_lt len isLast
  have heff := effLength_eq len isLast
  rw [hbits, cut_memRead_flatten _ (by omega) inp _ _ _ le_rfl, hzero i hi]
  by_cases hbyte : i < 8 * nbByte len isLast
  · rw [if_pos hbyte, vecBit_memRead_zero inp hbyte]
  · rw [if_neg hbyte]
    by_cases hbit : i < effLength len isLast
    · rw [if_pos hbit, echoed_getLsbD _ (by omega) (by omega), vecBit, show i / 8 = nbByte len isLast by omega,
        show i % 8 = i - 8 * nbByte len isLast by omega]
    · obtain ⟨hfinal, hlast, hlen⟩ := last_bit_of_effLength_le (Nat.not_lt.1 hbit) hi
      rw [if_neg hbit, if_pos ⟨hfinal, hlast⟩, hlen]
      cases vecBit inp (len - 1) <;> simp

end Sys2Proof.Machine
end

section
/-! How a SHIFT ends with an error (42_data_shifter.md R160, 60_exceptions.md R232), and what the commands of the stream leave
unchanged (42_data_shifter.md R154 to R157). -/

namespace Sys2Proof.Machine

open Sys2Proof

/-- Settles O29: a shift that stops early has not moved `S.tap`, and an error is the short answer recorded last. -/
theorem shiftErrorLeavesTap : Obligations.ShiftErrorLeavesTap := by
  intro s t input output len isLast e hr hexec he
  rw [exec_shift _ _ _ _ hr, shiftVectors] at hexec
  obtain rfl := Host.Outcome.next.inj hexec
  have hstop := shiftValues_stops (s.input input) (s.output output) (sameStorage input output) len isLast s
  cases hrun : shiftValues (s.input input) (s.output output) (sameStorage input output) len isLast s with
  | done a w =>
    rw [hrun] at he
    cases he
  | ended stop w =>
    rw [hrun] at he hstop
    cases stop with
    | refused r => cases he
    | stuck => cases he
    | error e' =>
      obtain rfl : e' = e := by simpa using he
      obtain ⟨hfault, hlast, htap⟩ := hstop
      exact ⟨by simpa using htap, by simpa using hfault, by simpa [LastShort] using hlast⟩

/-! ### The commands of the stream -/

/-- The core's frame, with a tracked state that only a final bit (`final`) moves. -/
structure CommandFramed (final : Bool) (s t : State) : Prop where
  frame : Extends s t
  tap : final = false → t.sess.tap = s.sess.tap

section
variable {final : Bool} {s : State}

theorem CommandFramed.refl (s : State) : CommandFramed final s s := ⟨.refl s, fun _ => rfl⟩

theorem CommandFramed.live {b : State → Run State Result} (h : CommandFramed final s (b s).final) :
    CommandFramed final s (live b s).final := by
  unfold Machine.live
  split
  · exact h
  · exact .refl s

theorem CommandFramed.guarded {wf : Bool} {x : Run State Result} (h : CommandFramed final s x.final) :
    CommandFramed final s (if wf then x else refuse .malformedCommand s).final := by
  cases wf
  · exact .refl s
  · exact h

/-- A command of one phase keeps `S.tap` (R154, R155). -/
theorem dataCommand_tap (cmd : List Byte) (n : Nat) (read : Bool) (s : State) :
    (dataCommand cmd n read id s).final.sess.tap = s.sess.tap := by
  unfold dataCommand
  split
  · exact tap_bind (flushTms_tap true s) fun _ u _ => tap_bind (issue_tap cmd n read u) fun _ _ _ => rfl
  · rfl

theorem dataCommand_framed (cmd : List Byte) (n : Nat) (read : Bool) (s : State) :
    CommandFramed final s (dataCommand cmd n read id s).final :=
  ⟨dataCommand_extends _ _ _ _ s id_extends, fun _ => dataCommand_tap cmd n read s⟩

/-- R157: the two commands that may move it. -/
theorem finalDataCommand_framed (cmd : List Byte) (n : Nat) (read : Bool) (s : State) :
    CommandFramed true s (dataCommand cmd n read leaveShift s).final :=
  ⟨dataCommand_extends _ _ _ _ s leaveShift_extends, fun h => by cases h⟩

theorem byteDataCommand_framed (payload : Option (List Byte)) (n : Nat) (read : Bool) (s : State) :
    CommandFramed final s (byteDataCommand payload n read s).final := by
  refine ⟨byteDataCommand_extends payload n read s, fun _ => ?_⟩
  unfold byteDataCommand
  split
  · split
    · split
      · exact dataCommand_tap _ _ _ _
      · rfl
    · rfl
  · rfl

/-- R22, R134: a TMS command goes out after the packer's bits, and `S.tap` does not follow. -/
theorem tmsCommand_framed (cmd : List Byte) (s : State) : CommandFramed final s (txSend cmd (autoFlush s)) := by
  refine ⟨(autoFlush_extends s).trans (txSend_extends cmd _), fun _ => ?_⟩
  unfold autoFlush
  split <;> rfl

end

theorem body_command_framed {o : Opc} {i : Instr} {iss : Issuer} {bs : List Byte} (h : encode o i = .command iss bs)
    (s : State) : CommandFramed (isFinalCommand i) s (body i s).final := by
  cases i <;> dsimp only [body, isFinalCommand]
  case tms => exact .live (.guarded (tmsCommand_framed _ s))
  case finalBit | finalBitRead => exact .live (.guarded (finalDataCommand_framed _ _ _ s))
  case bytes | bytesRead => exact .live (byteDataCommand_framed _ _ _ s)
  case bytesWrite | bytesWriteRead => exact .live (.guarded (byteDataCommand_framed _ _ _ s))
  case bits | bitsWrite | bitsRead | bitsWriteRead => exact .live (.guarded (dataCommand_framed _ _ _ s))
  all_goals cases h

/-- Settles O53: a command's body works inside the core's frame, and so does its refusal by a busy port. -/
theorem commandsFrame : Obligations.CommandsFrame := by
  rintro i s t ⟨iss, bs, hcode⟩ hexec
  rw [exec_eq] at hexec
  obtain ⟨x, rfl, hframe, htap⟩ : ∃ x, concluded x = t ∧ CommandFramed (isFinalCommand i) s x.final := by
    split at hexec
    · exact ⟨_, Host.Outcome.next.inj hexec, .refl s⟩
    · exact ⟨_, Host.Outcome.next.inj hexec, body_command_framed hcode s⟩
  have hmem := (concluded_mem x).trans hframe.mem
  exact ⟨fun name k => by rw [State.readByte, State.readByte, hmem], hmem, (concluded_params x).trans hframe.params,
    (concluded_port x).trans hframe.port, (concluded_warnings x).trans hframe.warnings,
    (concluded_life x).trans hframe.life, (concluded_quirk x).trans hframe.quirk,
    fun hfinal => (concluded_tap x).trans (htap hfinal)⟩

end Sys2Proof.Machine
end

section
/-! A SHIFT whose read answers short: what the reads before it gave stays, and nothing follows (42_data_shifter.md R154, R155,
R160, 60_exceptions.md R232). -/

namespace Sys2Proof.Machine

open Sys2Proof

/-! ### Where the responses before the final bit are written -/

/-- A byte of the receive stream as it is written at byte `j`: the residual byte, which follows the whole bytes, is realigned
(R154, R155). -/
def placed (nb nr j : Nat) (b : Byte) : Byte := if j < nb then b else realign b nr

/-- The command's response is written at the bytes from `a` on. -/
def DataStep.WritesAt (nb nr a : Nat) (c : DataStep) : Prop :=
  ∀ v bs : List Byte, bs.length = c.size → a + c.size ≤ v.length →
    (c.write v bs).length = v.length ∧ ∀ j, vecByte (c.write v bs) j =
      if a ≤ j ∧ j < a + c.size then placed nb nr j (vecByte bs (j - a)) else vecByte v j

/-- The commands' responses are written one after the other, from byte `a` on. -/
def WriteFrom (nb nr : Nat) : Nat → List DataStep → Prop
  | _, [] => True
  | a, c :: cs => c.WritesAt nb nr a ∧ WriteFrom nb nr (a + c.size) cs

/-- How many bytes the commands return. -/
def stepBytes (cs : List DataStep) : Nat := (cs.map DataStep.size).sum

theorem stepBytes_append (a b : List DataStep) : stepBytes (a ++ b) = stepBytes a + stepBytes b := by
  rw [stepBytes, List.map_append, List.sum_append]
  rfl

section
variable {nb nr : Nat}

theorem writeFrom_append {a : Nat} {cs ds : List DataStep} :
    WriteFrom nb nr a (cs ++ ds) ↔ WriteFrom nb nr a cs ∧ WriteFrom nb nr (a + stepBytes cs) ds := by
  induction cs generalizing a with
  | nil => simp [WriteFrom, stepBytes]
  | cons c cs ih =>
    simp only [List.cons_append, WriteFrom, ih, stepBytes, List.map_cons, List.sum_cons, and_assoc, Nat.add_assoc]

/-- What the responses `answers` of the commands leave of a vector. -/
def written : List DataStep → List (List Byte) → List Byte → List Byte
  | c :: cs, bs :: answers, v => written cs answers (c.write v bs)
  | _, _, v => v

theorem written_nil (answers : List (List Byte)) (v : List Byte) : written [] answers v = v := by
  unfold written
  rfl

theorem vecByte_append (a b : List Byte) (j : Nat) :
    vecByte (a ++ b) j = if j < a.length then vecByte a j else vecByte b (j - a.length) := by
  simp only [vecByte, List.getD_eq_getElem?_getD, List.getElem?_append]
  split <;> rfl

/-- Byte by byte, what the responses leave: their bytes in order from `a` on. -/
theorem vecByte_written {a : Nat} {cs : List DataStep} {answers : List (List Byte)} {v : List Byte}
    (hcs : WriteFrom nb nr a cs) (hs : answers.map List.length = cs.map DataStep.size)
    (hv : a + answers.flatten.length ≤ v.length) :
    (written cs answers v).length = v.length ∧ ∀ j, vecByte (written cs answers v) j =
      if a ≤ j ∧ j < a + answers.flatten.length then placed nb nr j (vecByte answers.flatten (j - a)) else vecByte v j := by
  induction cs generalizing a answers v with
  | nil =>
    obtain rfl : answers = [] := List.map_eq_nil_iff.1 hs
    refine ⟨rfl, fun j => ?_⟩
    rw [if_neg (by simp), written_nil]
  | cons c cs ih =>
    cases answers with
    | nil => cases hs
    | cons bs answers =>
      obtain ⟨hsize, hs⟩ := List.cons.inj hs
      obtain ⟨hc, hcs⟩ := hcs
      rw [List.flatten_cons, List.length_append] at hv ⊢
      obtain ⟨hlen, hbyte⟩ := hc v bs hsize (by omega)
      obtain ⟨hlen', hbyte'⟩ := ih hcs hs (v := c.write v bs) (by omega)
      refine ⟨hlen'.trans hlen, fun j => ?_⟩
      rw [written, hbyte', hbyte, vecByte_append, hsize]
      by_cases hafter : a + c.size ≤ j
      · have hplace : (a ≤ j ∧ j < a + (c.size + answers.flatten.length)) ↔
            (a + c.size ≤ j ∧ j < a + c.size + answers.flatten.length) := by omega
        simp only [hplace, if_neg (show ¬(a ≤ j ∧ j < a + c.size) by omega), if_neg (show ¬j - a < c.size by omega),
          show j - a - c.size = j - (a + c.size) by omega]
      · have hplace : (a ≤ j ∧ j < a + (c.size + answers.flatten.length)) ↔ (a ≤ j ∧ j < a + c.size) := by omega
        rw [if_neg fun h => hafter h.1]
        simp only [hplace]
        split
        · rw [if_pos (by omega)]
        · rfl

end

/-! ### The commands before the final bit -/

theorem byteStep_writesAt (o : Opc) (inp : Option (List Byte)) (read : Bool) {nb nr : Nat} {p : Nat × Nat}
    (h : p.1 + p.2 ≤ nb) : (byteStep o inp read p).WritesAt nb nr p.1 := by
  intro v bs hbs hv
  have hsize : bs.length = p.2 := hbs
  have hle : p.1 + p.2 ≤ v.length := hv
  refine ⟨memWrite_length (by omega), fun j => ?_⟩
  show vecByte (memWrite v p.1 bs) j =
    if p.1 ≤ j ∧ j < p.1 + p.2 then placed nb nr j (vecByte bs (j - p.1)) else vecByte v j
  rw [vecByte_memWrite (by omega), hsize]
  split
  · rw [placed, if_pos (by omega)]
  · rfl

theorem cut_writeFrom (o : Opc) (inp : Option (List Byte)) (read : Bool) {nb nr xfer : Nat} (fuel k rem : Nat)
    (h : k + rem ≤ nb) : WriteFrom nb nr k ((cut xfer fuel k rem).map (byteStep o inp read)) := by
  induction fuel generalizing k rem with
  | zero => trivial
  | succ fuel ih =>
    rw [cut]
    split
    · trivial
    · exact ⟨byteStep_writesAt (p := (k, min rem xfer)) o inp read (by dsimp only; omega),
        ih (k + min rem xfer) (rem - min rem xfer) (by omega)⟩

theorem residualSteps_writeFrom (o : Opc) (inp : Option (List Byte)) (read : Bool) (nb nr : Nat) :
    WriteFrom nb nr nb (residualSteps o inp read nb nr) := by
  unfold residualSteps
  split
  · trivial
  · refine ⟨fun v bs _ hv => ⟨memWrite_length hv, fun j => ?_⟩, trivial⟩
    have hone : (nb ≤ j ∧ j < nb + 1) ↔ j = nb := by omega
    rw [vecByte_memWrite_one hv]
    simp only [hone]
    split
    · next hj => rw [hj, placed, if_neg (Nat.lt_irrefl nb), Nat.sub_self]
    · rfl

theorem stepBytes_cut {xfer : Nat} (hx : 1 ≤ xfer) (o : Opc) (inp : Option (List Byte)) (read : Bool) (nb : Nat) :
    stepBytes ((cut xfer nb 0 nb).map (byteStep o inp read)) = nb := by
  rw [stepBytes, List.map_map]
  exact cut_sum hx nb 0 nb le_rfl

section
variable {xfer : Nat} (hx : 1 ≤ xfer) (o : Opc) (inp : Option (List Byte)) (read : Bool) (len : Nat) (isLast : Bool)
include hx

/-- R154, R155: the chunks and the residual byte stand one after the other in the output. -/
theorem dataSteps_writeFrom :
    WriteFrom (nbByte len isLast) (nbBit len isLast) 0 (dataSteps o inp read len isLast xfer) := by
  refine writeFrom_append.2 ⟨cut_writeFrom o inp read _ _ _ (by omega), ?_⟩
  rw [stepBytes_cut hx, Nat.zero_add]
  exact residualSteps_writeFrom o inp read _ _

theorem stepBytes_dataSteps_le (hlen : len ≠ 0 ∨ isLast = false) :
    stepBytes (dataSteps o inp read len isLast xfer) ≤ vecBytes len := by
  rw [dataSteps, stepBytes_append, stepBytes_cut hx, residualSteps]
  split
  · exact nbByte_le_vecBytes len isLast
  · next hr => exact nbByte_lt_vecBytes hlen (.inl hr)

end

/-- A command of a shift comes after commands that all stand before the final bit. -/
theorem dataSteps_of_shiftSteps {o : Opc} {inp : Option (List Byte)} {read : Bool} {len : Nat} {isLast : Bool} {xfer : Nat}
    {a b : List DataStep} {c : DataStep} (h : shiftSteps o inp read len isLast xfer = a ++ c :: b) :
    ∃ d, dataSteps o inp read len isLast xfer = a ++ d := by
  have hfinal : (finalSteps o inp read (nbByte len isLast) (nbBit len isLast) isLast).length ≤ 1 := by
    unfold finalSteps
    split <;> simp
  rcases List.append_eq_append_iff.1 h with ⟨d, rfl, hd⟩ | ⟨d, hd, -⟩
  · rw [hd, List.length_append, List.length_cons] at hfinal
    obtain rfl : d = [] := List.length_eq_zero_iff.1 (by omega)
    exact ⟨[], by simp⟩
  · exact ⟨d, hd⟩

/-! ### Reads that the transport serves, and one it does not -/

/-- Commands whose reads the transport serves. -/
theorem runSteps_serves {cs : List DataStep} {s : State} {answers : List (List Byte)} {z : Transport}
    (h : Serves s.tx answers z) (hs : answers.map List.length = cs.map DataStep.size) (v : List Byte) :
    runSteps cs { s := s, out := some v } = .done ()
      { s := s.read (((cs.map DataStep.key).zip answers).flatMap readEvents) z, out := some (written cs answers v) } := by
  induction cs generalizing s answers v with
  | nil =>
    obtain rfl : answers = [] := List.map_eq_nil_iff.1 hs
    cases h
    rw [runSteps, written_nil, List.map_nil, List.zip_nil_left, List.flatMap_nil, State.read_nil]
  | cons c cs ih =>
    cases answers with
    | nil => cases hs
    | cons bs answers =>
      obtain ⟨hsize, hs⟩ := List.cons.inj hs
      obtain ⟨u, hissue, hserves⟩ := issue_serves c.cmd h
      rw [hsize] at hissue
      have hnext := ih (s := s.read (readEvents ((c.cmd, c.size), bs)) u) hserves hs (c.write v bs)
      rw [State.read_read] at hnext
      rw [runSteps, Option.isSome_some, hissue]
      exact hnext

/-- The events of a data command whose read is cut short (R232). -/
def shortEvents (c : DataStep) (k : Nat) : List Event := [.send c.cmd, .flush (.full []), .read c.size (.short k)]

/-- R232: a read that answers short raises the error, and its bytes are discarded. -/
theorem issue_short {s : State} {c : DataStep} {d : List Byte} {k : Nat} (hflush : s.tx.answer = .full d)
    (hread : s.tx.answered.answer = .short k) (hk : k < c.size) :
    ∃ tx, issue c.cmd c.size true s = .ended (.error (.transport .read c.size k))
      (s.read (shortEvents c k) tx).setFault := by
  obtain ⟨hanswer, hended⟩ := txRead_short (s := flushed (txSend c.cmd s)) hread hk
  refine ⟨(readDone c.size (flushed (txSend c.cmd s))).tx, ?_⟩
  rw [issue, if_pos rfl, txFlush_full (s := txSend c.cmd s) hflush, Run.bind_done, hended, Run.map_ended]
  congr 1
  have htrace : (readDone c.size (flushed (txSend c.cmd s))).trace = s.trace ++ shortEvents c k := by
    rw [readDone_trace, hanswer, flushed_trace, flushAnswer_full (s := txSend c.cmd s) hflush, txSend_trace,
      List.append_assoc, List.append_assoc]
    rfl
  rw [State.read, ← htrace]
  rfl

/-- The phases of a shift, the reads before a command served and its own cut short. -/
theorem shiftPhases_short (inp : Option (List Byte)) {len : Nat} {isLast : Bool} {xfer : Nat} {a b : List DataStep}
    {c : DataStep} {u : State} {answers : List (List Byte)} {z : Transport} {d v : List Byte} {k : Nat}
    (hsteps : shiftSteps u.params.opc inp true len isLast xfer = a ++ c :: b) (hserves : Serves u.tx answers z)
    (hs : answers.map List.length = a.map DataStep.size) (hflush : z.answer = .full d)
    (hread : z.answered.answer = .short k) (hk : k < c.size) :
    ∃ tx, shiftPhases inp len isLast xfer { s := u, out := some v } =
      .ended (.error (.transport .read c.size k))
        { s := (u.read (((a.map DataStep.key).zip answers).flatMap readEvents ++ shortEvents c k) tx).setFault,
          out := some (written a answers v) } := by
  obtain ⟨tx, hissue⟩ := issue_short (s := u.read (((a.map DataStep.key).zip answers).flatMap readEvents) z)
    hflush hread hk
  rw [State.read_read] at hissue
  refine ⟨tx, ?_⟩
  rw [shiftPhases_eq_runSteps]
  dsimp only [Option.isSome_some]
  rw [hsteps, runSteps_append, runSteps_serves hserves hs, Run.bind_done, runSteps, Option.isSome_some, Work.lift, hissue]
  rfl

/-- A whole shift, from the query to the read cut short. -/
theorem shiftValues_short {s : State} {input : Option VecArg} {name len : Nat} {isLast : Bool} {a b : List DataStep}
    {c : DataStep} {answers : List (List Byte)} {d : List Byte} {k : Nat} {more : List Answer} (hbuf : bufferOk s = true)
    (hadmitted : ShiftAdmitted s input (some name) len isLast)
    (hsteps : shiftSteps s.params.opc (s.input input) true len isLast (bufSizeNow s - 3) = a ++ c :: b)
    (hs : answers.map List.length = a.map DataStep.size) (hk : k < c.size)
    (hscript : s.tx.script = openingScript s ++ (readScript answers ++ .full d :: .short k :: more)) :
    ∃ w, shiftValues (s.input input) (s.output (some name)) (sameStorage input (some name)) len isLast s =
        .ended (.error (.transport .read c.size k)) w ∧
      w.s.trace = s.trace ++ [.bufSize (bufSizeNow s)] ++ openingEvents (bufSizeAsked s)
        ++ ((a.map DataStep.key).zip answers).flatMap readEvents ++ shortEvents c k ∧
      w.s.sess = { s.sess with tmsBuf := List.replicate s.params.tmsCapacity false, tmsCount := 0, fault := true } ∧
      w.out = some (written a answers (s.mem.get name)) := by
  obtain ⟨u, hflush, htx, htrace, hsess, hparams⟩ := flushTms_scripted (s := bufSizeAsked s) hbuf hscript
  obtain ⟨z, hserves, hz⟩ := serves_script htx
  have hanswer : z.answer = .full d := by rw [Transport.answer, hz]
  have hread : z.answered.answer = .short k := by rw [Transport.answer, Transport.answered_script, hz]; rfl
  rw [← bufSizeAsked_params, ← hparams] at hsteps
  obtain ⟨tx, hphases⟩ := shiftPhases_short (v := s.mem.get name) (s.input input) hsteps hserves hs hanswer hread hk
  have hrun := shiftValues_admitted hadmitted
  rw [hflush] at hrun
  refine ⟨_, hrun.trans hphases, ?_, ?_, rfl⟩
  · rw [bufSizeAsked_trace] at htrace
    exact (congrArg (· ++ _) htrace).trans (List.append_assoc _ _ _).symm
  · rw [State.setFault, State.read, hsess]
    rfl

/-- A shift that ends with an error writes its output back, and answers the error. -/
theorem exec_shift_error {s : State} {input : Option VecArg} {output : Option Nat} {len : Nat} {isLast : Bool} {e : Error}
    {w : Work} (h : Ready s = true) (hrun : shiftValues (s.input input) (s.output output) (sameStorage input output) len
      isLast s = .ended (.error e) w) :
    exec (.shift input output len isLast) s =
      .next ((w.s.putOutput output w.out).withResponse (some (.error e))) := by
  rw [exec_shift _ _ _ _ h, shiftVectors, hrun]
  rfl

/-- Settles O30: the served reads stand in the output from its first byte on, and the short one ends the shift. -/
theorem shiftShortReadIsDiscarded : Obligations.ShiftShortReadIsDiscarded := by
  intro s input name len isLast before cmd n k d rest answers more hI hr hadmitted hplan hsizes hk hscript
  obtain ⟨⟨hlen, -, -, hout, -⟩, hmin, -⟩ := id hadmitted
  obtain ⟨-, hbuf, hwf⟩ := (stateInv_iff s).1 hI
  have hx : 1 ≤ bufSizeNow s - 3 := by omega
  rw [← shiftSteps_key hx, List.map_eq_append_iff] at hplan
  obtain ⟨a, post, hsteps, rfl, hpost⟩ := hplan
  obtain ⟨c, b, rfl, hkey, -⟩ := List.map_eq_cons_iff.1 hpost
  obtain ⟨rfl, rfl⟩ := Prod.mk.inj hkey
  rw [List.map_map] at hsizes
  rw [List.append_assoc, List.append_assoc] at hscript
  obtain ⟨w, hrun, htrace, hsess, hw⟩ := shiftValues_short hbuf hadmitted hsteps hsizes hk hscript
  have hmem := (shiftValues_extends (s.input input) (s.output (some name)) (sameStorage input (some name)) len isLast s).mem
  rw [hrun, Run.final_ended] at hmem
  have hexec := exec_shift_error hr hrun
  rw [hw] at hexec
  have hget : (w.s.putOutput (some name) (some (written a answers (s.mem.get name)))).mem.get name =
      written a answers (s.mem.get name) := putOutput_get_same _ _ _ (by rw [hmem]; exact hwf)
  have hbytes : answers.flatten.length = stepBytes a := by rw [List.length_flatten, hsizes]; rfl
  obtain ⟨d, hd⟩ := dataSteps_of_shiftSteps hsteps
  have hwrite := dataSteps_writeFrom hx s.params.opc (s.input input) true len isLast
  have hle := stepBytes_dataSteps_le hx s.params.opc (s.input input) true len isLast hlen
  rw [hd] at hwrite hle
  rw [stepBytes_append] at hle
  have hv : vecBytes len ≤ (s.mem.get name).length := hout _ rfl
  obtain ⟨hlength, hbyte⟩ := vecByte_written (writeFrom_append.1 hwrite).1 hsizes (v := s.mem.get name) (by omega)
  refine ⟨_, hexec, (putOutput_trace _ _ _).trans htrace, (putOutput_sess _ _ _).trans hsess, rfl, fun hnone => ?_,
    fun other hne => ?_, (congrArg List.length hget).trans hlength, fun j => ?_⟩
  · have ha : a = [] := List.map_eq_nil_iff.1 (by rw [← hsizes, hnone]; rfl)
    rw [ha, written_nil]
    exact (congrArg State.mem (putOutput_unchanged (some name) hmem)).trans hmem
  · exact (putOutput_get_other _ _ _ _ fun h => hne (Option.some.inj h).symm).trans (by rw [hmem])
  · refine (congrArg (vecByte · j) hget).trans ?_
    rw [hbyte]
    by_cases hj : answers.flatten.length ≤ j
    · rw [if_neg (by omega), if_pos hj]
    · rw [if_pos (by omega), if_neg hj, placed, Nat.sub_zero]

end Sys2Proof.Machine
end

section
/-! How DETECT_CHAIN ends: it completes while every answer is full and every buffer size is one the core takes, and else it stops
at the event that says why (43_chain_enumerator.md R192 to R194, 60_exceptions.md R232, R234). -/

namespace Sys2Proof.Machine

open Sys2Proof

/-! ### Windows that complete -/

/-- A window in SHIFT_DR passes the checks of a shift (R191). -/
theorem window_checked {s : State} (ht : s.sess.tap = .shiftDr) (isLast : Bool) :
    shiftCheck (some windowOnes) (some windowZeros) false Config.idcodeWidth isLast s = none := by
  rw [shiftCheck, ht]
  cases isLast <;> rfl

theorem windowWords_length (out : Option (List Byte)) : (windowWords out).length ≤ 1 := by
  unfold windowWords
  split <;> simp

/-- R192: a word that is recorded is a device's. -/
theorem isDevice_of_mem_windowWords {out : Option (List Byte)} {w : Word32} (h : w ∈ windowWords out) : isDevice w = true := by
  unfold windowWords at h
  split at h
  · next hdevice => rwa [List.mem_singleton.1 h]
  · cases h

theorem bufSizeOk_of_sizesOk {s : State} (h : SizesOk s.tx = true) : bufSizeOk (bufSizeNow s) = true := by
  obtain ⟨hlisted, hdefault⟩ := Bool.and_eq_true_iff.1 h
  unfold bufSizeNow
  cases hb : s.tx.bufSizes with
  | nil => exact hdefault
  | cons b bs => exact List.all_eq_true.1 hlisted b (by simp [hb])

/-- A query uses up one of the buffer sizes to come. -/
theorem sizesOk_tail {t u : Transport} (h : SizesOk t = true) (htail : u.bufSizes = t.bufSizes.tail)
    (hdefault : u.bufSize = t.bufSize) : SizesOk u = true := by
  obtain ⟨hlisted, hsize⟩ := Bool.and_eq_true_iff.1 h
  rw [SizesOk, htail, hdefault, hsize, Bool.and_true, List.all_eq_true]
  exact fun b hb => List.all_eq_true.1 hlisted b (List.mem_of_mem_tail hb)

/-- The windows of R194 complete; all but the last stay in SHIFT_DR. -/
theorem windows_complete (m : Nat) {s : State} (hC : Cooperative s.tx = true) (hsizes : SizesOk s.tx = true)
    (ht : m ≠ 0 → s.sess.tap = .shiftDr) :
    ∃ ws t, windows m s = .done ws t ∧ ws.length ≤ m ∧ (∀ w ∈ ws, isDevice w = true) ∧ t.sess.fault = s.sess.fault ∧
      Cooperative t.tx = true := by
  induction m generalizing s with
  | zero => exact ⟨[], s, rfl, le_rfl, by simp, rfl, hC⟩
  | succ m ih =>
    have hshift := ht (Nat.succ_ne_zero m)
    obtain ⟨c, hc, d⟩ := shiftValues_completes hC (window_checked hshift (decide (m = 0))) (bufSizeOk_of_sizesOk hsizes)
    obtain ⟨ws, t, hws, hlen, hdevice, hfault, hCt⟩ := ih d.cooperative (sizesOk_tail hsizes d.bufSizes d.bufSize)
      fun hm => by rw [d.tap, decide_eq_false hm, hshift]; rfl
    refine ⟨windowWords c.out ++ ws, t, by rw [windows, hc]; dsimp only; rw [hws, Run.map_done], ?_, ?_,
      hfault.trans d.fault, hCt⟩
    · rw [List.length_append]
      have := windowWords_length c.out
      omega
    · intro w hw
      exact (List.mem_append.1 hw).elim isDevice_of_mem_windowWords (hdevice w)

theorem Moved.sizesOk {bits : List Bool} {tap : TapState} {s t : State} (m : Moved bits tap s t) :
    SizesOk t.tx = SizesOk s.tx := by
  rw [m.tx]
  split <;> rfl

/-- The enumeration completes: reset, move, windows, reset (R194). -/
theorem detect_completes (m : Nat) {s : State} (hI : StateInv s = true) (hC : Cooperative s.tx = true)
    (hsizes : SizesOk s.tx = true) :
    ∃ ws t, detect m s = .done ws t ∧ ws.length ≤ m ∧ (∀ w ∈ ws, isDevice w = true) ∧ t.sess.tap = .testLogicReset ∧
      t.sess.tmsCount = 0 ∧ t.sess.fault = s.sess.fault := by
  obtain ⟨d, hd⟩ := cooperative_answer hC
  obtain ⟨a, ha, ma⟩ := resetTap_moved hI hd
  obtain ⟨d', hd'⟩ := cooperative_answer (ma.cooperative hC)
  obtain ⟨b, hb, mb⟩ := moveTo_moved .shiftDr (ma.inv hI) hd'
  obtain ⟨ws, c, hc, hlen, hdevice, hfault, hCc⟩ := windows_complete m (mb.cooperative (ma.cooperative hC))
    (by rw [mb.sizesOk, ma.sizesOk, hsizes]) fun _ => mb.tap
  have hIc : StateInv c = true := by
    have e := windows_extends m b
    rw [hc] at e
    exact e.progress.stateInv (mb.inv (ma.inv hI))
  obtain ⟨d'', hd''⟩ := cooperative_answer hCc
  obtain ⟨t, ht, mt⟩ := resetTap_moved hIc hd''
  refine ⟨ws, t, ?_, hlen, hdevice, mt.tap, mt.tmsCount, mt.fault.trans (hfault.trans (mb.fault.trans ma.fault))⟩
  rw [detect, ha, Run.bind_done, hb, Run.bind_done, hc, Run.bind_done, ht, Run.map_done]

/-! ### The event that ends an enumeration -/

/-- An event after which an enumeration does not go on: a short answer, or a buffer size that the core does not take. -/
def Event.halting : Event → Bool
  | .bufSize b => !bufSizeOk b
  | e => e.cutShort

/-- The last event of a run that ended early, by the reason it ended for (R232, R234, R235). -/
inductive HaltsAt : Stop → Event → Prop
  | flush {asked n : Nat} (h : n < asked) : HaltsAt (.error (.transport .flush asked n)) (.flush (.short n))
  | read {asked n : Nat} (h : n < asked) : HaltsAt (.error (.transport .read asked n)) (.read asked (.short n))
  | size {b : Nat} (h : bufSizeOk b = false) : HaltsAt (.refused .bufferSizeOutOfRange) (.bufSize b)
  | stall {e : Event} (h : e.stalled = true) : HaltsAt .stuck e

/-- An error, and nothing else, sets `S.fault` (R25, R232). -/
def Stop.faults : Stop → Bool
  | .error _ => true
  | .refused _ => false
  | .stuck => false

/-- From `s` to `t` no event was halting, and the fault mark stayed. -/
structure Unhalted (s t : State) : Prop where
  quiet : QuietTo Event.halting s t
  fault : t.sess.fault = s.sess.fault

theorem Unhalted.refl (s : State) : Unhalted s s := ⟨.refl _ s, rfl⟩

theorem Unhalted.trans {s t u : State} (h : Unhalted s t) (k : Unhalted t u) : Unhalted s u :=
  ⟨h.quiet.trans k.quiet, k.fault.trans h.fault⟩

theorem Unhalted.one {s t : State} {e : Event} (h : t.trace = s.trace ++ [e]) (he : e.halting = false)
    (hfault : t.sess.fault = s.sess.fault) : Unhalted s t := ⟨.one h he, hfault⟩

theorem Unhalted.same {s t : State} (h : t.trace = s.trace) (hfault : t.sess.fault = s.sess.fault) : Unhalted s t :=
  ⟨.same h, hfault⟩

/-- A run from `s` whose halting event, where it has one, is the last, and is the reason it ended for. -/
inductive Halting {α : Type} (s : State) : Run State α → Prop
  | done {a : α} {u : State} (h : Unhalted s u) : Halting s (.done a u)
  | ended {w : Stop} {u v : State} {e : Event} (h : Unhalted s v) (htrace : u.trace = v.trace ++ [e]) (hat : HaltsAt w e)
      (hfault : u.sess.fault = (w.faults || v.sess.fault)) : Halting s (.ended w u)

section
variable {α β : Type} {s : State}

theorem Unhalted.then {t : State} {x : Run State α} (h : Unhalted s t) (hx : Halting t x) : Halting s x := by
  cases hx with
  | done hu => exact .done (h.trans hu)
  | ended hv htrace hat hfault => exact .ended (h.trans hv) htrace hat hfault

theorem Halting.bind {x : Run State α} {f : α → State → Run State β} (hx : Halting s x)
    (hf : ∀ a u, x = .done a u → Halting u (f a u)) : Halting s (x.bind f) := by
  cases hx with
  | done hu => exact hu.then (hf _ _ rfl)
  | ended hv htrace hat hfault => exact .ended hv htrace hat hfault

theorem Halting.map {x : Run State α} (f : α → β) (hx : Halting s x) : Halting s (x.map f) := by
  cases hx with
  | done hu => exact .done hu
  | ended hv htrace hat hfault => exact .ended hv htrace hat hfault

/-- The last event of a run is its one halting event. -/
theorem Halting.event {x : Run State α} {es : List Event} {e : Event} (h : Halting s x)
    (htrace : x.final.trace = s.trace ++ es) (he : e ∈ es) (hhalting : e.halting = true) :
    ∃ w u, x = .ended w u ∧ HaltsAt w e ∧ es.getLast? = some e ∧ u.sess.fault = (w.faults || s.sess.fault) := by
  cases h with
  | done h =>
    obtain ⟨fs, hfs, hquiet⟩ := h.quiet
    obtain rfl := List.append_cancel_left (hfs.symm.trans htrace)
    rw [hquiet e he] at hhalting
    cases hhalting
  | @ended w u v a h hu hat hfault =>
    obtain ⟨⟨fs, hfs, hquiet⟩, hvfault⟩ := h
    rw [hfs, List.append_assoc] at hu
    obtain rfl := List.append_cancel_left (hu.symm.trans htrace)
    obtain hm | rfl : e ∈ fs ∨ e = a := by simpa using he
    · rw [hquiet e hm] at hhalting
      cases hhalting
    · exact ⟨w, u, rfl, hat, List.getLast?_concat, by rw [hfault, hvfault]⟩

end

/-! ### The packer and the walker -/

theorem txFlush_halting (s : State) : Halting s (txFlush s) := by
  unfold txFlush
  split
  · next d h => exact .done (.one (flushed_trace s) (by rw [h]; rfl) rfl)
  · next n h =>
    exact .ended (.refl s) (by rw [State.setFault_trace, flushed_trace, h]) (.flush (flushAnswer_short h)) rfl
  · next h => exact .ended (.refl s) (by rw [flushed_trace, h]) (.stall rfl) rfl

theorem txRead_halting (n : Nat) (s : State) : Halting s (txRead n s) := by
  unfold txRead
  split
  · next d h => exact .done (.one (readDone_trace n s) (by rw [h]; rfl) rfl)
  · next k h =>
    exact .ended (.refl s) (by rw [State.setFault_trace, readDone_trace, h]) (.read (readAnswer_short h)) rfl
  · next h => exact .ended (.refl s) (by rw [readDone_trace, h]) (.stall rfl) rfl

theorem sendPending_unhalted (s : State) : Unhalted s (sendPending s) := by
  refine ⟨⟨_, sendPending_trace s, fun e m => ?_⟩, rfl⟩
  obtain ⟨bs, -, rfl⟩ := List.mem_map.1 m
  rfl

theorem pushTms_unhalted (b : Bool) (s : State) : Unhalted s (pushTms b s) := by
  unfold pushTms autoFlush
  split
  · split
    · exact .same rfl rfl
    · exact (sendPending_unhalted s).trans (.same rfl rfl)
  · exact .same rfl rfl

theorem pushAll_unhalted (bits : List Bool) (s : State) : Unhalted s (pushAll bits s) := by
  induction bits generalizing s with
  | nil => exact .refl s
  | cons b bits ih => exact (pushTms_unhalted b s).trans (ih _)

theorem queueEdge_unhalted (b : Bool) (s : State) : Unhalted s (queueEdge b s) :=
  (pushTms_unhalted b s).trans (.same (State.setTap_trace _ _) (State.setTap_fault _ _))

theorem queuePath_unhalted (bits : List Bool) (s : State) : Unhalted s (queuePath bits s) := by
  induction bits generalizing s with
  | nil => exact .refl s
  | cons b bits ih => exact (queueEdge_unhalted b s).trans (ih _)

theorem flushTms_halting (s : State) : Halting s (flushTms true s) := by
  unfold flushTms
  split
  · exact .done (.refl s)
  · exact .map _ ((sendPending_unhalted s).then (txFlush_halting _))

theorem moveTo_halting (t : TapState) (s : State) : Halting s (moveTo t s) :=
  .map _ ((queuePath_unhalted _ s).then (flushTms_halting _))

theorem resetTap_halting (s : State) : Halting s (resetTap s) :=
  .map _ (((pushAll_unhalted _ s).trans (.same (State.setTap_trace _ _) (State.setTap_fault _ _))).then
    (flushTms_halting _))

/-! ### The windows -/

theorem issue_halting (cmd : List Byte) (n : Nat) (s : State) : Halting s (issue cmd n true s) :=
  (Unhalted.one (txSend_trace cmd s) rfl rfl).then
    (.bind (txFlush_halting _) fun _ _ _ => .map _ (txRead_halting n _))

/-- The same of a run inside a shift. -/
def WorkHalting (s : State) {α : Type} (x : Run Work α) : Prop := Halting s (x.mapState Work.s)

theorem WorkHalting.bind {α β : Type} {s : State} {x : Run Work α} {f : α → Work → Run Work β} (hx : WorkHalting s x)
    (hf : ∀ a w, x = .done a w → WorkHalting w.s (f a w)) : WorkHalting s (x.bind f) := by
  cases x with
  | done a w =>
    cases hx with
    | done hu => exact hu.then (hf a w rfl)
  | ended w u =>
    cases hx with
    | ended hv htrace hat hfault => exact .ended hv htrace hat hfault

theorem WorkHalting.lift {α : Type} {s : State} {x : Run State α} (w : Work) (hx : Halting s x) :
    WorkHalting s (w.lift x) := by
  cases x <;> exact hx

theorem runSteps_halting (cs : List DataStep) {w : Work} (h : w.out.isSome = true) : WorkHalting w.s (runSteps cs w) := by
  induction cs generalizing w with
  | nil => exact .done (.refl w.s)
  | cons c cs ih =>
    rw [runSteps, h]
    refine .bind (.lift w (issue_halting _ _ _)) fun r u hu => ?_
    have hnext := ih (w := u.capture c.write r) (by rw [capture_isSome, (lift_done hu).2, h])
    rwa [Work.capture_s] at hnext

theorem shiftPhases_halting (inp : Option (List Byte)) (len : Nat) (isLast : Bool) (xfer : Nat) {w : Work}
    (h : w.out.isSome = true) : WorkHalting w.s (shiftPhases inp len isLast xfer w) := by
  rw [shiftPhases_eq_runSteps]
  exact .bind (runSteps_halting _ h) fun _ u _ => .done (by cases isLast <;> exact .same rfl rfl)

/-- A shift with an output that passes the checks ends early at a short answer or at its buffer size. -/
theorem shiftValues_halting {inp : Option (List Byte)} {v : List Byte} {al : Bool} {len : Nat} {isLast : Bool} {s : State}
    (hcheck : shiftCheck inp (some v) al len isLast s = none) :
    WorkHalting s (shiftValues inp (some v) al len isLast s) := by
  rw [shiftValues, hcheck]
  dsimp only
  split
  · next hsize =>
    have hquery : Unhalted s (bufSizeAsked s) := .one (bufSizeAsked_trace s) (by rw [Event.halting, hsize]; rfl) rfl
    refine .bind (.lift _ (hquery.then (flushTms_halting _))) fun _ u hu => shiftPhases_halting _ _ _ _ ?_
    rw [(lift_done hu).2]
    rfl
  · next hsize =>
    exact .ended (.refl s) (bufSizeAsked_trace s) (.size (Bool.eq_false_iff.2 hsize)) rfl

/-- The tracked state of a shift at work is `tap`. -/
def Work.InState (tap : TapState) (w : Work) : Prop := w.s.sess.tap = tap

/-- A shift that is not the last keeps `S.tap`, however it ends (R157). -/
theorem shiftValues_tap (inp out : Option (List Byte)) (al : Bool) (len : Nat) (s : State) :
    (shiftValues inp out al len false s).final.InState s.sess.tap := by
  unfold shiftValues
  split
  · exact rfl
  · split
    · refine Run.final_bind_of ?_ fun _ u hu => ?_
      · exact (congrArg (·.sess.tap) (lift_final _ _)).trans (flushTms_tap true (bufSizeAsked s))
      · exact Run.final_bind_of (P := Work.InState s.sess.tap) ((bytePhase_tap _ _ _ _ _ u).trans hu) fun _ v hv =>
          Run.final_bind_of (P := Work.InState s.sess.tap) ((residualPhase_tap _ _ _ v).trans hv) fun _ _ hw => hw
    · exact rfl

/-- A shift on an empty buffer leaves it empty, however it ends (R160). -/
theorem shiftValues_tmsEmpty (inp out : Option (List Byte)) (al : Bool) (len : Nat) (isLast : Bool) {s : State}
    (h : TmsEmpty s) : (shiftValues inp out al len isLast s).final.TmsEmpty := by
  unfold shiftValues
  split
  · exact h
  · split
    · refine Run.final_bind_of ?_ fun _ _ hu => shiftPhases_tmsEmpty _ _ _ _ hu
      rw [Work.TmsEmpty, lift_final]
      exact flushTms_true_tmsCount (bufSizeAsked s)
    · exact h

/-- Where the windows stand: in SHIFT_DR while any is to come, and with an empty buffer. -/
structure AtWindow (m : Nat) (s : State) : Prop where
  tap : m ≠ 0 → s.sess.tap = .shiftDr
  tmsEmpty : TmsEmpty s

theorem AtWindow.next {m : Nat} {s : State} {c : Work} {a : Unit} (h : AtWindow (m + 1) s)
    (hc : shiftValues (some windowOnes) (some windowZeros) false Config.idcodeWidth (decide (m = 0)) s = .done a c) :
    AtWindow m c.s := by
  have hempty := shiftValues_tmsEmpty (some windowOnes) (some windowZeros) false Config.idcodeWidth (decide (m = 0))
    h.tmsEmpty
  rw [hc] at hempty
  refine ⟨fun hm => ?_, hempty⟩
  have htap := shiftValues_tap (some windowOnes) (some windowZeros) false Config.idcodeWidth s
  rw [decide_eq_false hm] at hc
  rw [hc] at htap
  exact htap.trans (h.tap (Nat.succ_ne_zero m))

theorem windows_halting (m : Nat) {s : State} (h : AtWindow m s) : Halting s (windows m s) := by
  induction m generalizing s with
  | zero => exact .done (.refl s)
  | succ m ih =>
    have hshift := shiftValues_halting (window_checked (h.tap (Nat.succ_ne_zero m)) (decide (m = 0)))
    unfold windows
    split
    · next e c hc =>
      rw [hc] at hshift
      cases hshift with
      | ended hv htrace hat hfault => exact .ended hv htrace hat hfault
    · next a c hc =>
      rw [hc] at hshift
      cases hshift with
      | done hu => exact hu.then (.map _ (ih (h.next hc)))

theorem moveTo_final_tap (t : TapState) (s : State) : (moveTo t s).final.sess.tap = t := by
  rw [moveTo, Run.final_map, flushTms_tap, queuePath_tap, walk_path]

/-- The move to SHIFT_DR ends where the windows begin. -/
theorem atWindow_of_moveTo {s u : State} (m : Nat) (h : moveTo .shiftDr s = .done () u) : AtWindow m u := by
  have htap := moveTo_final_tap .shiftDr s
  have hempty := moveTo_empties .shiftDr s
  rw [h] at htap hempty
  exact ⟨fun _ => htap, hempty⟩

theorem detect_halting (m : Nat) (s : State) : Halting s (detect m s) :=
  .bind (resetTap_halting s) fun _ u _ => .bind (moveTo_halting _ u) fun _ _ hv =>
    .bind (windows_halting m (atWindow_of_moveTo m hv)) fun _ w _ => .map _ (resetTap_halting w)

/-! ### Where an enumeration that ends early leaves `S` -/

/-- What R194 says of `S` at an early end. -/
def LeftAt : Stop → State → Prop
  | .error _, u => u.sess.tap = .testLogicReset ∨ u.sess.tap = .shiftDr
  | .refused _, u => u.sess.tap = .shiftDr ∧ u.sess.tmsCount = 0
  | .stuck, _ => True

/-- A run that, if it ends early, leaves `S` so. -/
inductive Leaves {α : Type} : Run State α → Prop
  | done (a : α) (u : State) : Leaves (.done a u)
  | ended {w : Stop} {u : State} (h : LeftAt w u) : Leaves (.ended w u)

theorem Leaves.bind {α β : Type} {x : Run State α} {f : α → State → Run State β} (hx : Leaves x)
    (hf : ∀ a u, x = .done a u → Leaves (f a u)) : Leaves (x.bind f) := by
  cases hx with
  | done a u => exact hf a u rfl
  | ended h => exact .ended h

theorem Leaves.map {α β : Type} {x : Run State α} (f : α → β) (hx : Leaves x) : Leaves (x.map f) := by
  cases hx with
  | done a u => exact .done (f a) u
  | ended h => exact .ended h

/-- A flush is not refused, so only `S.tap` is to be told. -/
theorem flushTms_leaves {s : State} (ht : s.sess.tap = .testLogicReset ∨ s.sess.tap = .shiftDr) :
    Leaves (flushTms true s) := by
  have hstop := flushTms_stops False true s
  rw [← flushTms_tap true s] at ht
  cases hx : flushTms true s with
  | done n u => exact .done n u
  | ended w u =>
    rw [hx] at hstop ht
    cases w with
    | error e => exact .ended ht
    | refused r => exact hstop.elim
    | stuck => exact .ended trivial

theorem moveTo_leaves (s : State) : Leaves (moveTo .shiftDr s) :=
  .map _ (flushTms_leaves (.inr (by rw [queuePath_tap, walk_path])))

theorem resetTap_leaves (s : State) : Leaves (resetTap s) :=
  .map _ (flushTms_leaves (.inl (State.setTap_tap _ _)))

theorem windows_leaves (m : Nat) {s : State} (h : AtWindow m s) : Leaves (windows m s) := by
  induction m generalizing s with
  | zero => exact .done _ _
  | succ m ih =>
    have hstop := shiftValues_stops (some windowOnes) (some windowZeros) false Config.idcodeWidth (decide (m = 0)) s
    have hempty := shiftValues_tmsEmpty (some windowOnes) (some windowZeros) false Config.idcodeWidth (decide (m = 0))
      h.tmsEmpty
    have htap := h.tap (Nat.succ_ne_zero m)
    unfold windows
    split
    · next w c hc =>
      rw [hc] at hstop hempty
      cases w with
      | error e =>
        obtain ⟨-, -, hstay⟩ := hstop
        exact .ended (.inr (hstay.trans htap))
      | refused r =>
        obtain ⟨-, hstay⟩ := hstop
        exact .ended ⟨hstay.trans htap, hempty⟩
      | stuck => exact .ended trivial
    · next a c hc => exact .map _ (ih (h.next hc))

theorem detect_leaves (m : Nat) (s : State) : Leaves (detect m s) :=
  .bind (resetTap_leaves s) fun _ u _ => .bind (moveTo_leaves u) fun _ _ hv =>
    .bind (windows_leaves m (atWindow_of_moveTo m hv)) fun _ w _ => .map _ (resetTap_leaves w)

/-! ### The request -/

/-- DETECT_CHAIN is answered as the enumeration ends. -/
theorem exec_detectChain (m : Nat) {s : State} (h : Ready s = true) :
    exec (.detectChain m) s = .next (concluded ((detect m s).map Result.words)) := by
  rw [exec_ready _ h, body, live_ready _ h]

theorem halting_of_cutShort {e : Event} (h : e.cutShort = true) : e.halting = true := by
  cases e with
  | bufSize b => cases h
  | _ => exact h

/-- A stall is not a short answer. -/
theorem not_cutShort_of_stalled {e : Event} (h : e.stalled = true) : ¬e.cutShort = true := by
  unfold Event.stalled at h
  split at h
  · exact Bool.false_ne_true
  · exact Bool.false_ne_true
  · exact Bool.false_ne_true
  · cases h

/-- Settles O38: full answers complete it, and an event that is halting is the last and tells the answer. -/
theorem detectChainCompletes : Obligations.DetectChainCompletes := by
  refine ⟨fun s m hI hr hC hsizes => ?_, fun s t m hr hexec => ?_⟩
  · obtain ⟨ws, t, ht, hlen, hdevice, htap, hcount, hfault⟩ := detect_completes m hI hC hsizes
    have e := detect_extends m s
    rw [ht] at e
    refine ⟨t.withResponse (some (.result (.words ws))), ws, by rw [exec_detectChain m hr, ht]; rfl, rfl, hlen,
      fun w hw => of_decide_eq_true (hdevice w hw), htap, hcount, hfault, e.refused, e.mem⟩
  · rw [exec_detectChain m hr] at hexec
    obtain rfl := Host.Outcome.next.inj hexec
    have e := detect_extends m s
    have hleaves := detect_leaves m s
    obtain ⟨es, htrace, -⟩ := e.trace
    have hall : (concluded ((detect m s).map Result.words)).trace = s.trace ++ es := by
      rw [concluded_trace, Run.final_map, htrace]
    rw [eventsSince_of_trace hall]
    refine ⟨by rw [concluded_mem, Run.final_map, e.mem], hall, fun a ha hcut => ?_, fun b hb hsize => ?_⟩
    · obtain ⟨w, u, hrun, hat, hlast, hfault⟩ := (detect_halting m s).event htrace ha (halting_of_cutShort hcut)
      rw [hrun] at e hleaves ⊢
      obtain ⟨_, _⟩ | hleft := hleaves
      cases hat with
      | flush h => exact ⟨hlast, hfault, e.refused, hleft, .flush, _, _, rfl, h, .inl ⟨rfl, rfl⟩⟩
      | read h => exact ⟨hlast, hfault, e.refused, hleft, .read, _, _, rfl, h, .inr ⟨rfl, rfl⟩⟩
      | size h => cases hcut
      | stall h => exact absurd hcut (not_cutShort_of_stalled h)
    · have hbad : bufSizeOk b = false := by
        rw [Bool.eq_false_iff, ne_eq, bufSizeOk_iff]
        omega
      obtain ⟨w, u, hrun, hat, hlast, hfault⟩ := (detect_halting m s).event htrace hb (by rw [Event.halting, hbad]; rfl)
      rw [hrun] at hleaves ⊢
      obtain ⟨_, _⟩ | hleft := hleaves
      cases hat with
      | size h => exact ⟨hlast, rfl, rfl, hfault, hleft⟩
      | stall h => cases h

end Sys2Proof.Machine
end

section
/-! What DETECT_CHAIN returns (43_chain_enumerator.md R191 to R194): the recorded words among those the windows capture, and of no
windows the empty list. -/

namespace Sys2Proof.Machine

open Sys2Proof

/-! ### The word that a window captures -/

/-- The bytes of a word, as they are shifted out (R42). -/
def wordBytes (w : Word32) : List Byte :=
  [w.extractLsb' 0 8, w.extractLsb' 8 8, w.extractLsb' 16 8, w.extractLsb' 24 8]

/-- R42: a word is read back from its bytes. -/
theorem wordOf_wordBytes (w : Word32) : wordOf (wordBytes w) = w := by
  apply BitVec.eq_of_getLsbD_eq
  intro j hj
  rw [wordOf_getLsbD _ hj, vecBit]
  obtain hq | hq | hq | hq : j / 8 = 0 ∨ j / 8 = 1 ∨ j / 8 = 2 ∨ j / 8 = 3 := by omega
  all_goals
    rw [hq]
    simp only [vecByte, wordBytes, List.getD_cons_zero, List.getD_cons_succ, BitVec.getLsbD_extractLsb']
    rw [decide_eq_true (by omega), Bool.true_and]
    congr 1
    omega

/-- The whole bytes of a window that captures `w`, chunk by chunk (R154). -/
def windowChunks (xfer : Nat) (w : Word32) (isLast : Bool) : List (List Byte) :=
  (cut xfer (nbByte Config.idcodeWidth isLast) 0 (nbByte Config.idcodeWidth isLast)).map
    fun p => memRead (wordBytes w) p.1 p.2

/-- The answers of a window: its chunks, and in the last window the residual byte and the final byte (R155, R156). -/
theorem windowAnswers_eq {xfer : Nat} (h : 1 ≤ xfer) (w : Word32) (isLast : Bool) :
    windowAnswers xfer w isLast = windowChunks xfer w isLast
      ++ ((if nbBit Config.idcodeWidth isLast = 0 then [] else [[vecByte (wordBytes w) 3 <<< 1]])
      ++ ((if isLast then [[vecByte (wordBytes w) 3 &&& 0x80]] else []) ++ [])) := by
  have hchunks : windowChunks xfer w isLast = (List.range (chunkCount (nbByte Config.idcodeWidth isLast) xfer)).map fun j =>
      memRead (wordBytes w) (j * xfer) (chunkSize (nbByte Config.idcodeWidth isLast) xfer j) := by
    rw [windowChunks, cut_eq h _ _ _ le_rfl, List.map_map]
    simp only [Function.comp_def, Nat.zero_add]
  rw [hchunks]
  cases isLast <;> rfl

/-- R191: a window takes four bytes. -/
theorem nbByte_window_le (isLast : Bool) : nbByte Config.idcodeWidth isLast ≤ 4 := by
  cases isLast <;> decide

theorem windowChunks_sizes (xfer : Nat) (w : Word32) (isLast : Bool) :
    (windowChunks xfer w isLast).map List.length =
      (cut xfer (nbByte Config.idcodeWidth isLast) 0 (nbByte Config.idcodeWidth isLast)).map Prod.snd := by
  rw [windowChunks, List.map_map]
  refine List.map_congr_left fun p hp => memRead_length ?_
  have hpart := cut_le _ _ _ _ p hp
  have hfour := nbByte_window_le isLast
  have hlength : (wordBytes w).length = 4 := rfl
  omega

/-- R155, R156: the seven residual bits and the final bit are the last byte. -/
theorem realign_or_finalCapture (b : Byte) : realign (b <<< 1) 7 ||| finalCapture (b &&& 0x80) 7 = b := by
  apply BitVec.eq_of_getLsbD_eq
  intro i hi
  rw [BitVec.getLsbD_or, realign_getLsbD, finalCapture_getLsbD _ (by decide), BitVec.getLsbD_and, getLsbD_0x80]
  by_cases h7 : i = 7
  · subst h7
    simp
  · rw [echoed_getLsbD b (nr := 7) (by decide) (by omega), decide_eq_false h7, Bool.false_and, Bool.or_false]

/-- R159, R191: the window's buffer ends as the word's bytes. -/
theorem capturedInto_window {xfer : Nat} (h : 1 ≤ xfer) (w : Word32) (isLast : Bool) :
    capturedInto windowZeros Config.idcodeWidth isLast (windowChunks xfer w isLast) (vecByte (wordBytes w) 3 <<< 1)
      (vecByte (wordBytes w) 3 &&& 0x80) = wordBytes w := by
  rw [capturedInto_eq, windowChunks, cut_memRead_flatten xfer h _ _ _ _ le_rfl]
  cases isLast with
  | false => rfl
  | true =>
    have hbytes : wordBytes w = [vecByte (wordBytes w) 0, vecByte (wordBytes w) 1, vecByte (wordBytes w) 2,
        realign (vecByte (wordBytes w) 3 <<< 1) 7 ||| finalCapture (vecByte (wordBytes w) 3 &&& 0x80) 7] := by
      rw [realign_or_finalCapture]
      rfl
    exact hbytes.symm

/-! ### The windows under a script -/

/-- A window whose reads the script serves: it captures its word and uses up its answers and one buffer size. -/
theorem window_scripted {m : Nat} {s : State} {w : Word32} {isLast : Bool} {more : List Answer} (hat : AtWindow (m + 1) s)
    (hsize : bufSizeOk (bufSizeNow s) = true)
    (hscript : s.tx.script = readScript (windowAnswers (bufSizeNow s - 3) w isLast) ++ more) :
    ∃ c, shiftValues (some windowOnes) (some windowZeros) false Config.idcodeWidth isLast s = .done () c ∧
      c.out = some (wordBytes w) ∧ c.s.tx.script = more ∧ c.s.tx.bufSizes = s.tx.bufSizes.tail ∧
      c.s.tx.bufSize = s.tx.bufSize := by
  have hx : 1 ≤ bufSizeNow s - 3 := by
    have := ((bufSizeOk_iff _).1 hsize).1
    omega
  have hflush : flushTms true (bufSizeAsked s) = .done 0 (bufSizeAsked s) := if_pos hat.tmsEmpty
  obtain ⟨z, hserves, hz⟩ := serves_script (t := (bufSizeAsked s).tx) hscript
  obtain ⟨hsizes, hdefault, -, -⟩ := hserves.sizes
  rw [windowAnswers_eq hx] at hserves
  have hphases := shiftPhases_read (some windowOnes) Config.idcodeWidth isLast hx (s := bufSizeAsked s) (v := windowZeros)
    hserves (windowChunks_sizes _ w isLast) (nbByte_window_le isLast)
  rw [capturedInto_window hx] at hphases
  refine ⟨_, Eq.trans ?_ hphases, rfl, hz, hsizes, hdefault⟩
  rw [shiftValues, window_checked (hat.tap (Nat.succ_ne_zero m))]
  dsimp only
  rw [if_pos hsize, hflush]
  rfl

/-- The answers of the first window, which is the last if no other follows, and of those after it. -/
theorem windowsAnswers_cons (w : Word32) (b : Nat) (ws : List (Word32 × Nat)) :
    windowsAnswers ((w, b) :: ws) = windowAnswers (b - 3) w (decide (ws.length = 0)) ++ windowsAnswers ws := by
  cases ws with
  | nil => exact (List.append_nil _).symm
  | cons p ws => rfl

/-- The next `n` buffer sizes that the transport gives (R47). -/
def Transport.sizesToCome (n : Nat) (t : Transport) : List Nat :=
  (List.range n).map fun k => t.bufSizes.getD k t.bufSize

/-- The first of them answers the next query. -/
theorem sizesToCome_succ (n : Nat) {s u : State} (htail : u.tx.bufSizes = s.tx.bufSizes.tail)
    (hdefault : u.tx.bufSize = s.tx.bufSize) :
    s.tx.sizesToCome (n + 1) = bufSizeNow s :: u.tx.sizesToCome n := by
  unfold Transport.sizesToCome bufSizeNow
  rw [htail, hdefault, List.range_succ_eq_map, List.map_cons, List.map_map]
  cases s.tx.bufSizes with
  | nil => rfl
  | cons b bs => rfl

/-- R193: the buffer of a window that captured `w` adds `w` if it is recorded. -/
theorem windowWords_wordBytes (w : Word32) : windowWords (some (wordBytes w)) = [w].filter isDevice := by
  rw [windowWords, Option.getD_some, wordOf_wordBytes, List.filter_singleton]
  cases isDevice w <;> rfl

/-- The windows under a script return the recorded words in order, and use up their answers (R193, R194). -/
theorem windows_scripted {ws : List (Word32 × Nat)} {s : State} {more : List Answer} (hat : AtWindow ws.length s)
    (hsizes : ws.map Prod.snd = s.tx.sizesToCome ws.length) (hok : ∀ p ∈ ws, bufSizeOk p.2 = true)
    (hscript : s.tx.script = readScript (windowsAnswers ws) ++ more) :
    ∃ t, windows ws.length s = .done ((ws.map Prod.fst).filter isDevice) t ∧ t.tx.script = more := by
  induction ws generalizing s with
  | nil => exact ⟨s, rfl, hscript⟩
  | cons p ws ih =>
    obtain ⟨w, b⟩ := p
    obtain ⟨rfl, -⟩ := List.cons.inj (hsizes.trans (sizesToCome_succ ws.length (u := bufSizeAsked s) rfl rfl))
    rw [windowsAnswers_cons, readScript, List.flatMap_append, List.append_assoc] at hscript
    obtain ⟨c, hc, hout, hcscript, htail, hdefault⟩ := window_scripted hat (hok _ List.mem_cons_self) hscript
    obtain ⟨-, hrest⟩ := List.cons.inj (hsizes.trans (sizesToCome_succ ws.length htail hdefault))
    obtain ⟨t, ht, htscript⟩ := ih (hat.next hc) hrest (fun p hp => hok p (List.mem_cons_of_mem _ hp)) hcscript
    refine ⟨t, ?_, htscript⟩
    rw [List.length_cons, windows, hc]
    dsimp only
    rw [ht, Run.map_done, hout, windowWords_wordBytes, ← List.filter_append]
    rfl

/-! ### The enumeration -/

/-- A walk of at least one bit takes one answer, and no buffer size. -/
theorem Moved.tx_answered {bits : List Bool} {tap : TapState} {s t : State} (m : Moved bits tap s t) (h : bits ≠ []) :
    t.tx = s.tx.answered := by
  rw [m.tx, if_neg h]

theorem resetBits_ne_nil (bits : List Bool) : bits ++ List.replicate Config.resetTmsCount true ≠ [] := by
  simp [Config.resetTmsCount]

/-- A script that begins with a full answer. -/
theorem answer_of_script {t : Transport} {a : Answer} {more : List Answer} (h : t.script = a :: more) : t.answer = a := by
  rw [Transport.answer, h]

/-- The reset and the move that open an enumeration take an answer each and leave the windows at their place. -/
theorem detect_opening {s : State} {d e : List Byte} {more : List Answer} (hI : StateInv s = true)
    (hscript : s.tx.script = .full d :: .full e :: more) :
    ∃ a b, resetTap s = .done () a ∧ moveTo .shiftDr a = .done () b ∧ StateInv b = true ∧
      b.tx = s.tx.answered.answered := by
  obtain ⟨a, ha, ma⟩ := resetTap_moved hI (answer_of_script hscript)
  have hatx := ma.tx_answered (resetBits_ne_nil _)
  have hnext : a.tx.script = .full e :: more := by rw [hatx, Transport.answered_script, hscript]; rfl
  obtain ⟨b, hb, mb⟩ := moveTo_moved .shiftDr (ma.inv hI) (answer_of_script hnext)
  have hmove : a.pending ++ path a.sess.tap .shiftDr ≠ [] := by
    rw [ma.tap]
    exact List.append_ne_nil_of_right_ne_nil _ (by decide)
  exact ⟨a, b, ha, hb, mb.inv (ma.inv hI), by rw [mb.tx_answered hmove, hatx]⟩

/-- The enumeration under a script. -/
theorem detect_scripted {s : State} {ws : List (Word32 × Nat)} {more : List Answer} {d e f : List Byte} (hI : StateInv s = true)
    (hsizes : ws.map Prod.snd = s.tx.sizesToCome ws.length) (hok : ∀ p ∈ ws, bufSizeOk p.2 = true)
    (hscript : s.tx.script = .full d :: .full e :: (readScript (windowsAnswers ws) ++ .full f :: more)) :
    ∃ t, detect ws.length s = .done ((ws.map Prod.fst).filter isDevice) t ∧ t.sess.tap = .testLogicReset := by
  obtain ⟨a, b, ha, hb, hIb, htx⟩ := detect_opening hI hscript
  obtain ⟨c, hc, hcscript⟩ := windows_scripted (s := b) (atWindow_of_moveTo _ hb) (by rw [htx]; exact hsizes) hok
    (by rw [htx, Transport.answered_script, Transport.answered_script, hscript]; rfl)
  have hIc : StateInv c = true := by
    have hframe := windows_extends ws.length b
    rw [hc] at hframe
    exact hframe.progress.stateInv hIb
  obtain ⟨t, ht, mt⟩ := resetTap_moved hIc (answer_of_script hcscript)
  refine ⟨t, ?_, mt.tap⟩
  rw [detect, ha, Run.bind_done, hb, Run.bind_done, hc, Run.bind_done, ht, Run.map_done]

/-- Settles O39: every window captures its word, and the record keeps the devices' words. -/
theorem detectChainReturnsTheRecordedWords : Obligations.DetectChainReturnsTheRecordedWords := by
  intro s ws more hI hr hsizes hok hscript
  rw [List.append_assoc, List.append_assoc] at hscript
  obtain ⟨t, ht, htap⟩ := detect_scripted hI hsizes (fun p hp => (bufSizeOk_iff _).2 (hok p hp)) hscript
  exact ⟨t.withResponse _, by rw [exec_detectChain _ hr, ht]; rfl, rfl, htap⟩

/-! ### An enumeration of no windows -/

/-- With room bits are only queued, behind the pending ones (R131). -/
theorem pushAll_room (bits : List Bool) {s : State} (hbuf : bufferOk s = true)
    (room : s.sess.tmsCount + bits.length ≤ s.params.tmsCapacity) :
    (pushAll bits s).trace = s.trace ∧ (pushAll bits s).pending = s.pending ++ bits := by
  induction bits generalizing s with
  | nil => exact ⟨rfl, (List.append_nil _).symm⟩
  | cons b bits ih =>
    rw [List.length_cons] at room
    have hlt : s.sess.tmsCount < s.params.tmsCapacity := by omega
    have hroom : (appendTms b s).sess.tmsCount + bits.length ≤ s.params.tmsCapacity := by
      rw [appendTms_tmsCount]
      omega
    obtain ⟨htrace, hqueue⟩ := ih (s := appendTms b s) (appendTms_bufferOk b s hlt hbuf) hroom
    rw [pushAll, pushTms, if_neg hlt.ne, htrace, hqueue, pending_appendTms b hbuf hlt, List.append_assoc]
    exact ⟨rfl, rfl⟩

/-- R134: up to six bits are one command. -/
theorem tmsCommands_chunk (o : Opc) {bits : List Bool} (hne : bits ≠ []) (h : bits.length ≤ 6) :
    tmsCommands o bits = [tmsCommand o bits] := by
  obtain ⟨n, hn⟩ := Nat.exists_eq_succ_of_ne_zero (List.length_pos_iff.2 hne).ne'
  rw [tmsCommands, hn, chunks_cons n hne, List.take_of_length_le h, List.drop_of_length_le h, chunks_nil]
  rfl

/-- The events of a walk of up to six bits on an empty buffer (R133, R134). -/
def walkEvents (o : Opc) (bits : List Bool) : List Event := [.send (tmsCommand o bits), .flush (.full [])]

theorem State.setTap_pending (t : TapState) (s : State) : (s.setTap t).pending = s.pending := rfl

/-- The flush that ends a walk of up to six bits: `u` is `s` with the bits queued. -/
theorem flushTms_chunk {s u : State} {d : List Byte} {bits : List Bool} (hext : Extends s u) (hI : StateInv s = true)
    (hanswer : u.tx.answer = .full d) (hqueued : u.trace = s.trace ∧ u.pending = bits) (hne : bits ≠ [])
    (hsize : bits.length ≤ 6) : (flushTms true u).final.trace = s.trace ++ walkEvents s.params.opc bits := by
  obtain ⟨htrace, hpending⟩ := hqueued
  rw [flushTms_trace, openingEvents_full (hext.buffer (stateInv_capacity hI) (stateInv_buffer hI)) hanswer, htrace,
    hpending, if_neg hne, tmsCommands_chunk _ hne hsize, hext.params]
  rfl

section
variable {s : State} {d : List Byte} (hI : StateInv s = true) (hcount : s.sess.tmsCount = 0)
  (hroom : 6 ≤ s.params.tmsCapacity) (hanswer : s.tx.answer = .full d)
include hI hcount hroom hanswer

/-- R106: the reset on an empty buffer with room sends its six ones in one command. -/
theorem resetTap_events :
    (resetTap s).final.trace = s.trace ++ walkEvents s.params.opc (List.replicate Config.resetTmsCount true) := by
  have hext := (pushAll_extends (List.replicate Config.resetTmsCount true) s).trans (setTap_extends .testLogicReset _)
  obtain ⟨htrace, hpending⟩ := pushAll_room (List.replicate Config.resetTmsCount true) (stateInv_buffer hI)
    (by rw [hcount, Nat.zero_add]; exact hroom)
  rw [pending_of_zero hcount, List.nil_append] at hpending
  obtain ⟨buf, cnt, tr, hwrites⟩ := pushAll_writes (List.replicate Config.resetTmsCount true) s
  rw [resetTap, Run.final_map]
  exact flushTms_chunk hext hI (by rw [hwrites]; exact hanswer)
    ⟨(State.setTap_trace _ _).trans htrace, (State.setTap_pending _ _).trans hpending⟩ (by decide) (by decide)

/-- R105: a move on an empty buffer with room sends its path in one command. -/
theorem moveTo_events {target : TapState} (hpath : path s.sess.tap target ≠ [])
    (hsize : (path s.sess.tap target).length ≤ 6) :
    (moveTo target s).final.trace = s.trace ++ walkEvents s.params.opc (path s.sess.tap target) := by
  have hqueued := queuePath_room (path s.sess.tap target) (stateInv_buffer hI) (by omega)
  rw [pending_of_zero hcount, List.nil_append] at hqueued
  rw [moveTo, Run.final_map]
  exact flushTms_chunk (queuePath_extends _ s) hI (by rw [queuePath_tx]; exact hanswer) hqueued hpath hsize

end

/-- R103, R106: the four bits from the reset to the windows. -/
theorem path_reset_shiftDr : path .testLogicReset .shiftDr = [false, true, false, false] := by decide

/-- Settles O40: three walks, each of one command on an empty buffer. -/
theorem detectChainOfNoWindows : Obligations.DetectChainOfNoWindows := by
  intro s hI hr hC hcount hroom
  obtain ⟨d, hd⟩ := cooperative_answer hC
  obtain ⟨a, ha, ma⟩ := resetTap_moved hI hd
  have hIa := ma.inv hI
  have hCa := ma.cooperative hC
  obtain ⟨e, he⟩ := cooperative_answer hCa
  obtain ⟨b, hb, mb⟩ := moveTo_moved .shiftDr hIa he
  obtain ⟨f, hf⟩ := cooperative_answer (mb.cooperative hCa)
  obtain ⟨t, ht, -⟩ := resetTap_moved (mb.inv hIa) hf
  have hpath : path a.sess.tap .shiftDr = [false, true, false, false] := by rw [ma.tap, path_reset_shiftDr]
  have hfirst := resetTap_events hI hcount hroom hd
  have hmove := moveTo_events hIa ma.tmsCount (by rw [ma.params]; exact hroom) he (target := .shiftDr)
    (by rw [hpath]; decide) (by rw [hpath]; decide)
  have hlast := resetTap_events (mb.inv hIa) mb.tmsCount (by rw [mb.params, ma.params]; exact hroom) hf
  rw [ha, Run.final_done] at hfirst
  rw [hb, Run.final_done, hfirst, hpath, ma.params] at hmove
  rw [ht, Run.final_done, hmove, mb.params, ma.params, List.append_assoc, List.append_assoc] at hlast
  have hrun : detect 0 s = .done [] t := by
    rw [detect, ha, Run.bind_done, hb, Run.bind_done, windows, Run.bind_done, ht, Run.map_done]
  exact ⟨t.withResponse _, by rw [exec_detectChain _ hr, hrun]; rfl, rfl, hlast⟩

end Sys2Proof.Machine
end

section
/-! The session's creation and its release: every field of S written at creation, a release that completes whatever is short,
and nothing but NotLive after it (44_session.md R210, R211, R213, R215; 60_exceptions.md R233, R234). -/

namespace Sys2Proof.Machine

open Sys2Proof

/-- Settles O41: an idle port runs creation, whose session record is `Session.created`. -/
theorem sessionCreateWritesEveryField : Obligations.SessionCreateWritesEveryField :=
  fun s hbusy => exec_idle .sessionCreate s hbusy

/-! ### After release -/

/-- R234: every request but SESSION_CREATE first asks whether the session is Live. -/
theorem body_eq_live {i : Instr} (h : i ≠ .sessionCreate) : ∃ b : State → Run State Result, body i = live b := by
  cases i
  case sessionCreate => exact absurd rfl h
  all_goals exact ⟨_, rfl⟩

theorem body_released {i : Instr} {s : State} (hi : i ≠ .sessionCreate) (h : s.sess.life = .released) :
    body i s = refuse .notLive s := by
  obtain ⟨b, hb⟩ := body_eq_live hi
  have hlife : s.sess.life ≠ .live := by
    rw [h]
    decide
  rw [hb, live, if_neg hlife]

/-- Settles O45: the idle port runs a body that refuses at once. -/
theorem releasedSessionRefusesEveryRequest : Obligations.ReleasedSessionRefusesEveryRequest := by
  intro i s hi hbusy hlife
  rw [exec_idle i s hbusy, body_released hi hlife]
  rfl

/-! ### A transport that never stalls -/

theorem neverStalls_iff (t : Transport) : NeverStalls t = true ↔ (∀ a ∈ t.script, a ≠ .stall) ∧ t.steady ≠ .stall := by
  simp [NeverStalls]

theorem neverStalls_answer {t : Transport} (h : NeverStalls t = true) : t.answer ≠ .stall := by
  obtain ⟨hscript, hsteady⟩ := (neverStalls_iff t).1 h
  unfold Transport.answer
  split
  · exact hsteady
  · next a rest hcons => exact hscript a (by simp [hcons])

theorem neverStalls_answered {t : Transport} (h : NeverStalls t = true) : NeverStalls t.answered = true := by
  obtain ⟨hscript, hsteady⟩ := (neverStalls_iff t).1 h
  exact (neverStalls_iff _).2 ⟨fun a ha => hscript a (List.mem_of_mem_tail ha), hsteady⟩

/-- Log 13: counting what was asked makes no stall of an answer. -/
theorem Answer.against_ne_stall {a : Answer} (h : a ≠ .stall) (asked : Nat) : a.against asked ≠ .stall := by
  cases a with
  | full d => simp [Answer.against]
  | short n =>
    rw [Answer.against]
    split <;> simp
  | stall => exact absurd rfl h

theorem flushAnswer_ne_stall {s : State} (h : NeverStalls s.tx = true) : flushAnswer s ≠ .stall := by
  have hagainst := Answer.against_ne_stall (neverStalls_answer h) (flushAsked s)
  unfold flushAnswer
  split
  · simp
  · simp
  · next hstall => exact absurd hstall hagainst

theorem readAnswer_ne_stall {s : State} (h : NeverStalls s.tx = true) (n : Nat) : readAnswer n s ≠ .stall := by
  have hagainst := Answer.against_ne_stall (neverStalls_answer h) n
  unfold readAnswer
  split
  · simp
  · simp
  · next hstall => exact absurd hstall hagainst

/-! ### The release -/

/-- What a release records of the answer to its flush (R213, R233). -/
def flushWarnings : Answer → List Warning
  | .full _ => []
  | .short _ => [.flush]
  | .stall => []

/-- What a release records of the answer to its read of `n` bytes; of no bytes it makes no read (R213, R233). -/
def readWarnings (n : Nat) (b : Answer) : List Warning :=
  if n = 0 then [] else match b with
    | .full _ => []
    | .short k => [.count k]
    | .stall => []

/-- R233: short or full, the flush is done, and only a short one is recorded. -/
theorem releaseFlush_completes {s : State} (h : NeverStalls s.tx = true) :
    releaseFlush s = .done () { flushed s with warnings := s.warnings ++ flushWarnings (flushAnswer s) } := by
  have hstall := flushAnswer_ne_stall h
  unfold releaseFlush
  cases ha : flushAnswer s with
  | full d =>
    rw [flushWarnings, List.append_nil]
    rfl
  | short n => rfl
  | stall => exact absurd ha hstall

/-- R233: the same of the read-back, which is left out where no byte is expected. -/
theorem releaseRead_completes (n : Nat) {s : State} (h : NeverStalls s.tx = true) :
    ∃ tx : Transport, releaseRead n s = .done () { s with
      tx := tx, trace := s.trace ++ (if n = 0 then [] else [.read n (readAnswer n s)]),
      warnings := s.warnings ++ readWarnings n (readAnswer n s) } := by
  have hstall := readAnswer_ne_stall h n
  unfold releaseRead readWarnings
  by_cases hn : n = 0
  · exact ⟨s.tx, by simp [hn]⟩
  · refine ⟨(readDone n s).tx, ?_⟩
    simp only [if_neg hn]
    cases ha : readAnswer n s with
    | full d => simp [readDone, State.emit, ha]
    | short k => simp [readDone, State.emit, State.warn, ha]
    | stall => exact absurd ha hstall

/-- R213: the pending bits are not sent, and of `S` the release writes `S.life` alone. -/
theorem releaseSession_completes {s : State} (h : NeverStalls s.tx = true) :
    ∃ (tx : Transport) (a b : Answer), releaseSession s = .done () { s with
      sess := { s.sess with life := .released }, tx := tx,
      trace := s.trace ++ [.send s.params.teardownCmds, .flush a]
        ++ (if s.params.teardownExpect = 0 then [] else [.read s.params.teardownExpect b]),
      warnings := s.warnings ++ flushWarnings a ++ readWarnings s.params.teardownExpect b } := by
  let sent := txSend s.params.teardownCmds s
  let written := { flushed sent with warnings := s.warnings ++ flushWarnings (flushAnswer sent) }
  have hflush : releaseFlush sent = .done () written := releaseFlush_completes h
  have hquiet : NeverStalls written.tx = true := neverStalls_answered h
  obtain ⟨tx, hread⟩ := releaseRead_completes s.params.teardownExpect hquiet
  have htrace : written.trace = s.trace ++ [.send s.params.teardownCmds, .flush (flushAnswer sent)] :=
    List.append_assoc ..
  refine ⟨tx, flushAnswer sent, readAnswer s.params.teardownExpect written, ?_⟩
  rw [releaseSession, hflush, Run.bind_done, ← htrace]
  exact congrArg (Run.bind · _) hread

/-- Settles O42: where nothing stalls the flush and the read-back each complete, their shortfalls recorded as warnings. -/
theorem sessionReleaseCompletesRegardless : Obligations.SessionReleaseCompletesRegardless := by
  intro s hready hquiet
  obtain ⟨tx, a, b, hrun⟩ := releaseSession_completes hquiet
  have hbody : body .sessionRelease s = (releaseSession s).map fun _ => Result.none := by
    rw [body, live_ready _ hready]
  refine ⟨_, a, b, exec_ready .sessionRelease hready, ?_⟩
  rw [hbody, hrun]
  refine ⟨rfl, rfl, rfl, rfl, rfl, rfl, ?_⟩
  cases a <;> cases b <;> rfl

end Sys2Proof.Machine
end

section
/-! InvalidArgument and the one request that raises it (60_exceptions.md R231). -/

namespace Sys2Proof.Machine

open Sys2Proof

/-- R231: the length is checked before the first event. -/
theorem body_shiftIrByte_tooLong {s : State} {irlen : Nat} (tdi : Byte) (endState : TapState) (h : Ready s = true)
    (h8 : 8 < irlen) : body (.shiftIrByte tdi irlen endState) s = .ended (.error (.invalidArgument irlen)) s := by
  rw [body, live_ready _ h, if_pos h8, raise]

/-- R232: an error met on the way is a TransportError, the record of the short answer. -/
theorem not_stopsAt_invalidArgument {α : Type} (m : Prop) (n : Nat) (u : State) :
    ¬StopsAt m (.ended (.error (.invalidArgument n)) u : Run State α) := by
  rintro ⟨-, _, _, _, he, -⟩
  cases he

/-- R231: the only body that ends with InvalidArgument is SHIFT_IR_BYTE's, for the length that the error records. -/
theorem eq_shiftIrByte_of_body_invalidArgument {i : Instr} {s u : State} {n : Nat}
    (h : body i s = .ended (.error (.invalidArgument n)) u) :
    ∃ (tdi : Byte) (endState : TapState), i = .shiftIrByte tdi n endState ∧ 8 < n := by
  rcases body_stops i s with hstop | ⟨tdi, irlen, endState, hi, h8, hinvalid⟩
  · rw [h] at hstop
    exact absurd hstop (not_stopsAt_invalidArgument True n u)
  · rw [h] at hinvalid
    cases hinvalid
    exact ⟨tdi, endState, hi, h8⟩

/-- Settles O35: SHIFT_IR_BYTE checks its length first, and every other error is a short answer's. -/
theorem invalidArgumentIsShiftIrByteAlone : Obligations.InvalidArgumentIsShiftIrByteAlone := by
  refine ⟨fun s tdi irlen endState hready h8 => ?_, fun i s t n hexec herror => ?_⟩
  · rw [exec_ready _ hready, body_shiftIrByte_tooLong tdi endState hready h8, concluded]
  · obtain ⟨u, hbody, -⟩ := exec_error hexec herror
    exact eq_shiftIrByte_of_body_invalidArgument hbody

end Sys2Proof.Machine
end
